-- ==== Sys2Proof/Word.lean ====
section
/-! DEFINITION. The word types of the pywisp CORE (10_state.md rules R12 to R27): bytes, 32-bit words,
16-bit operands and the 6-bit frame identifier. -/

namespace Sys2Proof

/-- One byte: a wire byte, a sequence number, a length, an operation code. -/
abbrev Byte := BitVec 8

/-- 32 bits: a CRC accumulator, a millisecond time, a diagnostic counter, a status word. -/
abbrev Word := BitVec 32

/-- 16 bits: the transmit space, the `len` operand of `QUEUE`, an offset or mask operand. -/
abbrev Half := BitVec 16

/-- A frame identifier, 0 to 63 (30_encoding.md rule R63, bits 5:0 of the control byte). -/
abbrev Ident := BitVec 6

end Sys2Proof
end

