-- ==== Sys2Proof/Config.lean ====
section
/-! DEFINITION. What an instance fixes at construction (00_scope.md rules R6, R7; 92_eei_decisions.md D31), the
fixed constants of the block, and the free values: what the spec leaves unspecified and the machine goes on with. -/

namespace Sys2Proof

/-- Header or synchronisation byte (rule R7). -/
def headerByte : Byte := 0xAA#8

/-- Stuff byte (rule R7). -/
def stuffByte : Byte := 0x55#8

/-- End-marker byte (rule R7); the same value as the stuff byte, told apart by position (rule R67). -/
def eofByte : Byte := 0x55#8

/-- Control value of an ACK frame (rules R7, R71). -/
def ctrlAck : Byte := 0xFF#8

/-- Control value of a RESET frame (rules R7, R71). -/
def ctrlReset : Byte := 0xFE#8

/-- Transport flag, bit 7 of a control byte (rules R7, R63). -/
def ctrlTransport : Byte := 0x80#8

/-- Reflected CRC polynomial (rule R7). -/
def crcPoly : Word := 0xEDB88320#32

/-- CRC initial value (rules R7, R86). -/
def crcInitValue : Word := 0xFFFFFFFF#32

/-- What the senders add to a payload length before they compare it with the transmit space (rules R7, R69). -/
def txOverhead : Nat := 11

/-- `HostTx`, the one OPEN parameter (92_eei_decisions.md D31, rule R191): how `tx_space` changes as bytes are
emitted and what becomes of a byte with no room. -/
inductive HostTx where
  /-- Unbounded: `TxSpace()` always reads 0xFFFF, every byte is taken. -/
  | h0
  /-- Finite buffer: each byte lowers the space by 1, saturating at 0; a byte written at 0 is lost. -/
  | h1
deriving DecidableEq, Repr

/-- The construction constants (rule R6) with the ranges of the table of rule R6. A record outside them cannot be
built: "a model refuses to construct it" (rules R50, R209; 93_implementation_defined.md U3). The two capacities
are given by their exponents, so a capacity that is not a power of two cannot be written down. DEDUCED, safe, log 16. -/
structure Config where
  /-- `MAX_PAYLOAD`: the largest payload DEC buffers and QUEUE accepts. -/
  maxPayload : Nat
  /-- `FIFO_BITS`: the exponent of the number of frame slots. -/
  fifoBits : Nat
  /-- `RING_BITS`: the exponent of the size of the payload ring. -/
  ringBits : Nat
  /-- `MAX_WINDOW`: the largest number of frames in flight. -/
  maxWindow : Nat
  /-- `ACK_RETX_MS` -/
  ackRetxMs : Word
  /-- `FRAME_RETX_MS` -/
  frameRetxMs : Word
  /-- `IDLE_MS` -/
  idleMs : Word
  /-- `HostTx` -/
  hostTx : HostTx
  maxPayload_pos : 1 ≤ maxPayload := by decide
  maxPayload_le : maxPayload ≤ 255 := by decide
  fifoBits_le : fifoBits ≤ 8 := by decide
  ringBits_le : ringBits ≤ 16 := by decide
  maxWindow_pos : 1 ≤ maxWindow := by decide
  maxWindow_le : maxWindow ≤ 255 := by decide
deriving DecidableEq, Repr

/-- Construction from raw numbers: refused (`none`) outside the ranges of rule R6 (rule R209). -/
def Config.construct (maxPayload fifoBits ringBits maxWindow : Nat) (ackRetxMs frameRetxMs idleMs : Word)
    (hostTx : HostTx) : Option Config :=
  if h : (1 ≤ maxPayload ∧ maxPayload ≤ 255) ∧ fifoBits ≤ 8 ∧ ringBits ≤ 16 ∧ (1 ≤ maxWindow ∧ maxWindow ≤ 255) then
    some
      { maxPayload, fifoBits, ringBits, maxWindow, ackRetxMs, frameRetxMs, idleMs, hostTx,
        maxPayload_pos := h.1.1, maxPayload_le := h.1.2, fifoBits_le := h.2.1, ringBits_le := h.2.2.1,
        maxWindow_pos := h.2.2.2.1, maxWindow_le := h.2.2.2.2 }
  else none

/-- `FIFO_SLOTS = 2^FIFO_BITS` (rule R6). -/
def Config.fifoSlots (c : Config) : Nat := 2 ^ c.fifoBits

/-- `FIFO_MASK = FIFO_SLOTS - 1` (rule R6). -/
def Config.fifoMask (c : Config) : Nat := c.fifoSlots - 1

/-- `RING_SIZE = 2^RING_BITS` (rule R6). -/
def Config.ringSize (c : Config) : Nat := 2 ^ c.ringBits

/-- `RING_MASK = RING_SIZE - 1` (rule R6). -/
def Config.ringMask (c : Config) : Nat := c.ringSize - 1

/-- The reference configuration of rule R6 with `HostTx = H0`, which 95_test_vectors.md uses. DESIGN CHOICE,
unsafe for what is said of `State.reset` alone, log 8. -/
def Config.reference : Config :=
  { maxPayload := 255, fifoBits := 4, ringBits := 10, maxWindow := 16,
    ackRetxMs := 25#32, frameRetxMs := 50#32, idleMs := 1000#32, hostTx := .h0 }

/-- A FIFO slot: the "Queued Application Frame (`TransportFrame` record)" of rule R21. It stands here because a
free value below has its type. -/
structure Slot where
  /-- `slot[i].id`, 6 bits -/
  id : Ident
  /-- `slot[i].seq`, 8 bits, written at the first send -/
  seq : Byte
  /-- `slot[i].len`, 8 bits -/
  len : Byte
  /-- `slot[i].off`, an offset into `RING`, below `RING_SIZE` -/
  off : Nat
  /-- `slot[i].last_sent_ms`, 32 bits, written at every send -/
  lastSent : Word
deriving DecidableEq, Repr

/-! ### Free values

Constants with no body: nothing can be proved of the values. The first four are what the fields marked "U" in rule
R35 hold after the `HWRESET` instruction (93_implementation_defined.md U2, "any value"), applied to the counter
`State.drawn` (DESIGN CHOICE, safe, log 7). The last two are the result of a FIFO counter that a push or pop outside its calling
conditions drives out of its width (rules R137, R138), applied to the operands (DESIGN CHOICE, safe, log 13). -/

/-- A 32-bit register marked U. -/
opaque Config.freeWord : Nat → Word

/-- An 8-bit register marked U. -/
opaque Config.freeByte : Nat → Byte

/-- The contents of a byte memory marked U. -/
opaque Config.freeCells : Nat → List (Nat × Byte)

/-- The contents of the slot array, marked U. -/
opaque Config.freeSlots : Nat → List (Nat × Slot)

/-- A sum that does not fit the counter's width. -/
opaque Config.freeSum : Nat → Nat → Nat

/-- A difference below zero. -/
opaque Config.freeDifference : Nat → Nat → Nat

end Sys2Proof
end

