-- ==== Sys2Proof/Syntax.lean ====
section
/-! DEFINITION. The operations of the block: one constructor per row of opcode_table.json, which is the table of
30_encoding.md rule R77. Operands are those of the row's `source_fields` and of rule R78. -/

namespace Sys2Proof

/-- Which of the block's two checksum contexts an operation is applied to (rules R12, R85). -/
inductive CrcCtx where
  /-- `tx_crc`, ENC's accumulator -/
  | tx
  /-- `rx_crc`, DEC's accumulator -/
  | rx
deriving DecidableEq, Repr

/-- The byte memory `ENC_EMIT` reads its payload from (rule R96): `RING`, or a constant source such as the
one-byte `ACKSRC` of rules R149, R150. -/
inductive EncSrc where
  | ring
  | imm (bytes : List Byte)
deriving DecidableEq, Repr

/-- What selects an operation: the four "opcode spaces" of 30_encoding.md (introduction, rules R71, R77). -/
inductive OpSpace where
  /-- the reset input -/
  | pin
  /-- the command port, codes 0x01 to 0x05 -/
  | host
  /-- inside other operations, codes 0x10 to 0x55 -/
  | micro
  /-- the control byte of a received frame -/
  | handler
deriving DecidableEq, Repr

/-- The instruction set: every row of opcode_table.json. -/
inductive Instr where
  /-- `HWRESET` (rule R205) -/
  | hwreset
  /-- `FEED b` (rule R148) -/
  | feed (b : Byte)
  /-- `POLL [bytes]` (rule R139) -/
  | poll (bytes : List Byte)
  /-- `QUEUE id, len, payload` (rule R136) -/
  | queue (id : Byte) (len : Half) (payload : List Byte)
  /-- `TRESET inform` (rule R159) -/
  | treset (inform : Bool)
  /-- `STATUS idx` (rule R160) -/
  | status (idx : Byte)
  /-- `CRC_INIT(acc)` (rule R86) -/
  | crcInit (acc : CrcCtx)
  /-- `CRC_STEP(acc, b)` (rule R87) -/
  | crcStep (acc : CrcCtx) (b : Byte)
  /-- `CRC_FINAL(acc)` (rule R88) -/
  | crcFinal (acc : CrcCtx)
  /-- `ENC_RAW(b)` (rule R97) -/
  | encRaw (b : Byte)
  /-- `ENC_PUT(b, crc)` (rule R98) -/
  | encPut (b : Byte) (crc : Bool)
  /-- `ENC_EMIT(control, seq, src, off, mask, len)` (rule R96) -/
  | encEmit (control seq : Byte) (src : EncSrc) (off mask : Half) (len : Byte)
  /-- `RXBYTE(b)` (rule R110) -/
  | rxbyte (b : Byte)
  /-- `DISPATCH` (rule R124) -/
  | dispatch
  /-- `RX_RESYNC` (rule R111, byte 0xAA) -/
  | rxResync
  /-- `RX_DESTUFF` (rule R111, byte 0x55) -/
  | rxDestuff
  /-- `RX_VIOLATION` (rule R111, any other byte) -/
  | rxViolation (b : Byte)
  /-- `RX_SOF` (rule R113) -/
  | rxSof (b : Byte)
  /-- `RX_CTRL` (rule R114) -/
  | rxCtrl (b : Byte)
  /-- `RX_SEQ` (rule R115) -/
  | rxSeq (b : Byte)
  /-- `RX_LEN` (rule R116) -/
  | rxLen (b : Byte)
  /-- `RX_PAY` (rule R117) -/
  | rxPay (b : Byte)
  /-- `RX_C3` (rule R118) -/
  | rxC3 (b : Byte)
  /-- `RX_C2` (rule R119) -/
  | rxC2 (b : Byte)
  /-- `RX_C1` (rule R120) -/
  | rxC1 (b : Byte)
  /-- `RX_C0` (rule R121) -/
  | rxC0 (b : Byte)
  /-- `RX_EOF` (rule R122) -/
  | rxEof (b : Byte)
  /-- `FIFO_PUSH(id6, len, payload)` (rule R137) -/
  | fifoPush (id : Ident) (len : Byte) (payload : List Byte)
  /-- `FIFO_POP` (rule R138) -/
  | fifoPop
  /-- `SEND_FRAME(k)` (rule R145) -/
  | sendFrame (k : Byte)
  /-- `SEND_ACK` (rule R149) -/
  | sendAck
  /-- `SEND_RESET` (rule R150) -/
  | sendReset
  /-- `TP_CLEAR` (rule R158) -/
  | tpClear
  /-- `H_ACK` (rule R155), control byte 0xFF -/
  | hAck
  /-- `H_RESET` (rule R157), control byte 0xFE -/
  | hReset
  /-- `H_APP` (rule R152), control byte `1riiiiii` other than 0xFF and 0xFE -/
  | hApp (r : Bool) (id : Ident)
  /-- `H_NONTP` (rule R153), control byte `0riiiiii` -/
  | hNontp (r : Bool) (id : Ident)
deriving DecidableEq, Repr

/-- An operation as it is presented: the space that selects it, its 8-bit code (the control byte for a handler,
unused for the pin) and its operand bytes. The operand layout is in Decode.lean. -/
structure OpWord where
  space : OpSpace
  op : Byte
  args : List Byte
deriving DecidableEq, Repr

/-- Why presented bytes are not an operation. -/
inductive DecodeError where
  /-- a command code other than 0x01 to 0x05: not an error of the machine, which ignores it (rule R80) -/
  | notHostOp (code : Byte)
  /-- no row of rule R77 has this micro-operation code -/
  | noMicroOp (code : Byte)
  /-- the operand bytes do not have the shape of the named operation (rule R78, opcode_table.json) -/
  | operands (mnemonic : String)
deriving DecidableEq, Repr

/-- What the decoder answers. -/
inductive Decoded where
  | instr (i : Instr)
  | rejected (why : DecodeError)
deriving DecidableEq, Repr

end Sys2Proof
end

