-- ==== Sys2Proof/WellFormed.lean ====
section
/-! DEFINITION. Which operand values the spec gives an operation: the shapes of 30_encoding.md rule R78, the fixed
operands of opcode_table.json, and the calling conditions on operands of rules R96, R111, R137, R145. -/

namespace Sys2Proof

/-- The operand shapes of `ENC_EMIT` (rule R96): `RING` with its wrap mask and an offset inside it, or a one-byte
source with mask 0. -/
def EncSrc.wf (c : Config) (src : EncSrc) (off mask : Half) : Bool :=
  match src with
  | .ring => decide (mask.toNat = c.ringMask) && decide (off.toNat < c.ringSize)
  | .imm bytes => decide (bytes.length = 1) && decide (mask = 0#16)

/-- Well-formed for an instance with constants `c`. -/
def Instr.wf (c : Config) : Instr → Bool
  | .hwreset => true
  | .feed _ => true
  | .poll _ => true
  | .queue _ len payload => decide (payload.length = len.toNat)
  | .treset _ => true
  | .status _ => true
  | .crcInit _ => true
  | .crcStep _ _ => true
  | .crcFinal _ => true
  | .encRaw _ => true
  | .encPut _ _ => true
  | .encEmit _ _ src off mask _ => src.wf c off mask
  | .rxbyte _ => true
  | .dispatch => true
  | .rxResync => true
  | .rxDestuff => true
  | .rxViolation b => decide (b ≠ headerByte) && decide (b ≠ stuffByte)
  | .rxSof _ => true
  | .rxCtrl _ => true
  | .rxSeq _ => true
  | .rxLen _ => true
  | .rxPay _ => true
  | .rxC3 _ => true
  | .rxC2 _ => true
  | .rxC1 _ => true
  | .rxC0 _ => true
  | .rxEof _ => true
  | .fifoPush _ len payload => decide (payload.length = len.toNat) && decide (len.toNat ≤ c.maxPayload)
  | .fifoPop => true
  | .sendFrame k => decide (k.toNat < c.fifoSlots)
  | .sendAck => true
  | .sendReset => true
  | .tpClear => true
  | .hAck => true
  | .hReset => true
  | .hApp r id => !(r && decide (62#6 ≤ id))
  | .hNontp _ _ => true

end Sys2Proof
end

