-- ==== Sys2Proof/Decode.lean ====
section
/-! DEFINITION. Decoding an operation from its code and operand bytes, and the encoder. The codes are those of
30_encoding.md rule R77; a handler's code is the control byte of the frame (rules R63, R71). The spec gives the
operands and their widths but no byte layout for them: operands stand in the order of rule R77 and of
opcode_table.json, one byte each, 16-bit operands low byte first, a one-bit operand as 0 or 1, a list as the bytes
to the end of the message. DESIGN CHOICE, unsafe for what is said of encodings, log 3. -/

namespace Sys2Proof

/-- Low and high byte of a 16-bit operand. -/
def halfBytes (h : Half) : List Byte := [h.setWidth 8, (h >>> 8).setWidth 8]

/-- A 16-bit operand from its low and high byte. -/
def halfOf (lo hi : Byte) : Half := (hi ++ lo : BitVec 16)

/-- A one-bit operand as a byte. -/
def boolByte (b : Bool) : Byte := if b then 1#8 else 0#8

/-- A one-bit operand from its byte: 0 or 1, nothing else. -/
def boolOf (b : Byte) : Option Bool :=
  if b = 0#8 then some false else if b = 1#8 then some true else none

/-- A checksum context as a byte: 0 is `tx_crc`, 1 is `rx_crc`. -/
def ctxByte : CrcCtx → Byte
  | .tx => 0#8
  | .rx => 1#8

/-- A checksum context from its byte. -/
def ctxOf (b : Byte) : Option CrcCtx :=
  if b = 0#8 then some .tx else if b = 1#8 then some .rx else none

/-- The control byte `{t, r, id}` (rules R63, R75). -/
def controlByte (t r : Bool) (id : Ident) : Byte := (BitVec.ofBool t ++ BitVec.ofBool r ++ id : BitVec 8)

/-- Bit 7 of a control byte, the transport flag `T` (rule R63). -/
def controlT (c : Byte) : Bool := c.getLsbD 7

/-- Bit 6 of a control byte, reserved (rule R63). -/
def controlR (c : Byte) : Bool := c.getLsbD 6

/-- Bits 5:0 of a control byte, the identifier (rules R63, R75). -/
def controlId (c : Byte) : Ident := c.extractLsb' 0 6

/-- The handler a control byte selects, tested in the order of rule R71: 0xFF, 0xFE, bit 7. -/
def decodeControl (c : Byte) : Instr :=
  if c = ctrlAck then .hAck
  else if c = ctrlReset then .hReset
  else if controlT c then .hApp (controlR c) (controlId c)
  else .hNontp (controlR c) (controlId c)

/-- An operation with no operands. -/
def decode0 (m : String) (i : Instr) (args : List Byte) : Decoded :=
  match args with
  | [] => .instr i
  | _ => .rejected (.operands m)

/-- An operation whose one operand is a byte. -/
def decode1 (m : String) (f : Byte → Instr) (args : List Byte) : Decoded :=
  match args with
  | [b] => .instr (f b)
  | _ => .rejected (.operands m)

/-- `QUEUE`: `id`, `len` (16 bits), then `len` payload bytes (rule R78). -/
def decodeQueue (args : List Byte) : Decoded :=
  match args with
  | id :: lo :: hi :: payload =>
    if payload.length = (halfOf lo hi).toNat then .instr (.queue id (halfOf lo hi) payload)
    else .rejected (.operands "QUEUE")
  | _ => .rejected (.operands "QUEUE")

/-- `TRESET`: `inform`, one bit. -/
def decodeTreset (args : List Byte) : Decoded :=
  match args with
  | [b] =>
    match boolOf b with
    | some inform => .instr (.treset inform)
    | none => .rejected (.operands "TRESET")
  | _ => .rejected (.operands "TRESET")

/-- `CRC_INIT` and `CRC_FINAL`: a context. -/
def decodeCtx (m : String) (f : CrcCtx → Instr) (args : List Byte) : Decoded :=
  match args with
  | [a] =>
    match ctxOf a with
    | some acc => .instr (f acc)
    | none => .rejected (.operands m)
  | _ => .rejected (.operands m)

/-- `CRC_STEP`: a context and a byte. -/
def decodeCrcStep (args : List Byte) : Decoded :=
  match args with
  | [a, b] =>
    match ctxOf a with
    | some acc => .instr (.crcStep acc b)
    | none => .rejected (.operands "CRC_STEP")
  | _ => .rejected (.operands "CRC_STEP")

/-- `ENC_PUT`: a byte and the flag `crc`. -/
def decodeEncPut (args : List Byte) : Decoded :=
  match args with
  | [b, f] =>
    match boolOf f with
    | some crc => .instr (.encPut b crc)
    | none => .rejected (.operands "ENC_PUT")
  | _ => .rejected (.operands "ENC_PUT")

/-- `ENC_EMIT`: control, seq, the source's tag (0 `RING`, 1 constant bytes), off, mask, len, then the constant bytes. -/
def decodeEncEmit (args : List Byte) : Decoded :=
  match args with
  | control :: seq :: tag :: offLo :: offHi :: maskLo :: maskHi :: len :: bytes =>
    if tag = 0#8 ∧ bytes = [] then
      .instr (.encEmit control seq .ring (halfOf offLo offHi) (halfOf maskLo maskHi) len)
    else if tag = 1#8 then
      .instr (.encEmit control seq (.imm bytes) (halfOf offLo offHi) (halfOf maskLo maskHi) len)
    else .rejected (.operands "ENC_EMIT")
  | _ => .rejected (.operands "ENC_EMIT")

/-- `RX_VIOLATION`: a byte that is neither 0xAA nor 0x55 (rule R111). -/
def decodeViolation (args : List Byte) : Decoded :=
  match args with
  | [b] =>
    if b = headerByte ∨ b = stuffByte then .rejected (.operands "RX_VIOLATION") else .instr (.rxViolation b)
  | _ => .rejected (.operands "RX_VIOLATION")

/-- `FIFO_PUSH`: a 6-bit identifier, `len`, then `len` payload bytes. -/
def decodeFifoPush (args : List Byte) : Decoded :=
  match args with
  | id :: len :: payload =>
    if id.toNat < 64 ∧ payload.length = len.toNat then .instr (.fifoPush (controlId id) len payload)
    else .rejected (.operands "FIFO_PUSH")
  | _ => .rejected (.operands "FIFO_PUSH")

/-- The command port: codes 0x01 to 0x05 (rules R77, R78, R80). -/
def decodeHost (op : Byte) (args : List Byte) : Decoded :=
  if op = 0x01#8 then decode1 "FEED" .feed args
  else if op = 0x02#8 then .instr (.poll args)
  else if op = 0x03#8 then decodeQueue args
  else if op = 0x04#8 then decodeTreset args
  else if op = 0x05#8 then decode1 "STATUS" .status args
  else .rejected (.notHostOp op)

/-- The micro-operation and state-row codes (rule R77). -/
def decodeMicro (op : Byte) (args : List Byte) : Decoded :=
  if op = 0x10#8 then decodeCtx "CRC_INIT" .crcInit args
  else if op = 0x11#8 then decodeCrcStep args
  else if op = 0x12#8 then decodeCtx "CRC_FINAL" .crcFinal args
  else if op = 0x20#8 then decode1 "ENC_RAW" .encRaw args
  else if op = 0x21#8 then decodeEncPut args
  else if op = 0x22#8 then decodeEncEmit args
  else if op = 0x30#8 then decode1 "RXBYTE" .rxbyte args
  else if op = 0x31#8 then decode0 "DISPATCH" .dispatch args
  else if op = 0x32#8 then decode0 "RX_RESYNC" .rxResync args
  else if op = 0x33#8 then decode0 "RX_DESTUFF" .rxDestuff args
  else if op = 0x34#8 then decodeViolation args
  else if op = 0x40#8 then decode1 "RX_SOF" .rxSof args
  else if op = 0x41#8 then decode1 "RX_CTRL" .rxCtrl args
  else if op = 0x42#8 then decode1 "RX_SEQ" .rxSeq args
  else if op = 0x43#8 then decode1 "RX_LEN" .rxLen args
  else if op = 0x44#8 then decode1 "RX_PAY" .rxPay args
  else if op = 0x45#8 then decode1 "RX_C3" .rxC3 args
  else if op = 0x46#8 then decode1 "RX_C2" .rxC2 args
  else if op = 0x47#8 then decode1 "RX_C1" .rxC1 args
  else if op = 0x48#8 then decode1 "RX_C0" .rxC0 args
  else if op = 0x49#8 then decode1 "RX_EOF" .rxEof args
  else if op = 0x50#8 then decodeFifoPush args
  else if op = 0x51#8 then decode0 "FIFO_POP" .fifoPop args
  else if op = 0x52#8 then decode1 "SEND_FRAME" .sendFrame args
  else if op = 0x53#8 then decode0 "SEND_ACK" .sendAck args
  else if op = 0x54#8 then decode0 "SEND_RESET" .sendReset args
  else if op = 0x55#8 then decode0 "TP_CLEAR" .tpClear args
  else .rejected (.noMicroOp op)

/-- The decoder: total on any space, code and operand bytes. The reset pin has no code; a handler is selected by the
control byte alone and takes no operand bytes. -/
def decode (w : OpWord) : Decoded :=
  match w.space with
  | .pin => .instr .hwreset
  | .host => decodeHost w.op w.args
  | .micro => decodeMicro w.op w.args
  | .handler => .instr (decodeControl w.op)

/-- The encoder, from the same table. -/
def encode : Instr → OpWord
  | .hwreset => ⟨.pin, 0#8, []⟩
  | .feed b => ⟨.host, 0x01#8, [b]⟩
  | .poll bytes => ⟨.host, 0x02#8, bytes⟩
  | .queue id len payload => ⟨.host, 0x03#8, id :: (halfBytes len ++ payload)⟩
  | .treset inform => ⟨.host, 0x04#8, [boolByte inform]⟩
  | .status idx => ⟨.host, 0x05#8, [idx]⟩
  | .crcInit acc => ⟨.micro, 0x10#8, [ctxByte acc]⟩
  | .crcStep acc b => ⟨.micro, 0x11#8, [ctxByte acc, b]⟩
  | .crcFinal acc => ⟨.micro, 0x12#8, [ctxByte acc]⟩
  | .encRaw b => ⟨.micro, 0x20#8, [b]⟩
  | .encPut b crc => ⟨.micro, 0x21#8, [b, boolByte crc]⟩
  | .encEmit control seq .ring off mask len =>
    ⟨.micro, 0x22#8, [control, seq, 0#8] ++ halfBytes off ++ halfBytes mask ++ [len]⟩
  | .encEmit control seq (.imm bytes) off mask len =>
    ⟨.micro, 0x22#8, [control, seq, 1#8] ++ halfBytes off ++ halfBytes mask ++ [len] ++ bytes⟩
  | .rxbyte b => ⟨.micro, 0x30#8, [b]⟩
  | .dispatch => ⟨.micro, 0x31#8, []⟩
  | .rxResync => ⟨.micro, 0x32#8, []⟩
  | .rxDestuff => ⟨.micro, 0x33#8, []⟩
  | .rxViolation b => ⟨.micro, 0x34#8, [b]⟩
  | .rxSof b => ⟨.micro, 0x40#8, [b]⟩
  | .rxCtrl b => ⟨.micro, 0x41#8, [b]⟩
  | .rxSeq b => ⟨.micro, 0x42#8, [b]⟩
  | .rxLen b => ⟨.micro, 0x43#8, [b]⟩
  | .rxPay b => ⟨.micro, 0x44#8, [b]⟩
  | .rxC3 b => ⟨.micro, 0x45#8, [b]⟩
  | .rxC2 b => ⟨.micro, 0x46#8, [b]⟩
  | .rxC1 b => ⟨.micro, 0x47#8, [b]⟩
  | .rxC0 b => ⟨.micro, 0x48#8, [b]⟩
  | .rxEof b => ⟨.micro, 0x49#8, [b]⟩
  | .fifoPush id len payload => ⟨.micro, 0x50#8, id.setWidth 8 :: len :: payload⟩
  | .fifoPop => ⟨.micro, 0x51#8, []⟩
  | .sendFrame k => ⟨.micro, 0x52#8, [k]⟩
  | .sendAck => ⟨.micro, 0x53#8, []⟩
  | .sendReset => ⟨.micro, 0x54#8, []⟩
  | .tpClear => ⟨.micro, 0x55#8, []⟩
  | .hAck => ⟨.handler, 0xFF#8, []⟩
  | .hReset => ⟨.handler, 0xFE#8, []⟩
  | .hApp r id => ⟨.handler, controlByte true r id, []⟩
  | .hNontp r id => ⟨.handler, controlByte false r id, []⟩

/-! ### The opcode table's own numbering -/

/-- Whether a code is one the command port takes (rule R77). -/
def isHostCode (op : Byte) : Bool := decide (1 ≤ op.toNat ∧ op.toNat ≤ 5)

/-- Whether a code is a micro-operation's or a state row's (rule R77). -/
def isMicroCode (op : Byte) : Bool :=
  match decodeMicro op [] with
  | .rejected (.noMicroOp _) => false
  | _ => true

/-- How many operand bytes every message of an operation has (a list operand may add more). -/
def fixedArgs (op : Byte) : Nat :=
  if op = 0x02#8 then 0
  else if op = 0x03#8 then 3
  else if op = 0x11#8 ∨ op = 0x21#8 ∨ op = 0x50#8 then 2
  else if op = 0x22#8 then 8
  else if op = 0x31#8 ∨ op = 0x32#8 ∨ op = 0x33#8 ∨ op = 0x51#8 ∨ op = 0x53#8 ∨ op = 0x54#8 ∨ op = 0x55#8 then 0
  else 1

/-- The `n` bytes of `w` from the lowest up. -/
def lowBytes : Nat → Nat → List Byte
  | 0, _ => []
  | n + 1, w => BitVec.ofNat 8 w :: lowBytes n (w / 256)

/-- The message whose first `nbits` bits are `w`, the code in the lowest byte and operand bytes above it; operand
bytes the word does not hold are zero. A row with no bits is the reset pin. A byte that is no code of rule R77's
host or micro-operations is read as a control byte. -/
def tableOpWord (nbits w : Nat) : OpWord :=
  match lowBytes (nbits / 8) (w % 2 ^ nbits) with
  | [] => ⟨.pin, 0#8, []⟩
  | op :: rest =>
    if isHostCode op then ⟨.host, op, rest ++ List.replicate (fixedArgs op - rest.length) 0#8⟩
    else if isMicroCode op then ⟨.micro, op, rest ++ List.replicate (fixedArgs op - rest.length) 0#8⟩
    else ⟨.handler, op, []⟩

/-- The instruction the decoder reads from a word of the opcode table. -/
def decodeTableWord (nbits w : Nat) : Option Instr :=
  match decode (tableOpWord nbits w) with
  | .instr i => some i
  | .rejected _ => none

end Sys2Proof
end

