-- ==== Sys2Proof/Machine/State.lean ====
section
/-! DEFINITION. The state of one instance (10_state.md), as plain data: the construction constants, the four groups
of rule R10 (CRC, ENC, DEC, TP), the ports and streams of rules R31, R32, R190, and the model's own fields. The last
section gives the state after reset (rule R35). -/

namespace Sys2Proof.Machine

/-- A byte memory of the block: `RING` or `RXBUF` (20_memory.md rule R40), as (index, byte) pairs in one canonical
form (`Memory.wf`): indices strictly rising, no entry equal to what an unlisted index reads as. -/
abbrev Memory := List Host.Cell

/-- The slot array (rules R21, R40), in the same form. -/
abbrev Slots := List (Nat × Slot)

/-- What an unlisted byte of `RING` or `RXBUF` reads as: the spec gives their contents no reset value (rule R31).
DESIGN CHOICE, unsafe, log 5. -/
def unwrittenByte : Byte := 0#8

/-- What an unlisted slot reads as: the spec gives slot fields no reset value (rule R21). DESIGN CHOICE, unsafe,
log 6. -/
def unwrittenSlot : Slot := { id := 0#6, seq := 0#8, len := 0#8, off := 0, lastSent := 0#32 }

/-- `rx_state`, the ten parse states of rule R14 (rule R123: "a ten-valued type"). -/
inductive RxState where
  /-- `S_SOF`, searching-for-sync -/
  | sof
  /-- `S_CTRL`, receiving-control -/
  | ctrl
  /-- `S_SEQ`, receiving-sequence -/
  | seq
  /-- `S_LEN`, receiving-length -/
  | len
  /-- `S_PAY`, receiving-payload -/
  | pay
  /-- `S_C3`, receiving-checksum, most significant byte -/
  | c3
  /-- `S_C2` -/
  | c2
  /-- `S_C1` -/
  | c1
  /-- `S_C0`, receiving-checksum, least significant byte -/
  | c0
  /-- `S_EOF`, receiving-end-marker -/
  | eof
deriving DecidableEq, Repr

/-- `rx_hdr_cnt`, the "2-bit header bytes seen counter": 0, 1 or 2; "the value 3 is never produced" (rule R15).
DEDUCED, safe, log 15. -/
inductive RxHdr where
  | zero
  | one
  | two
deriving DecidableEq, Repr

/-- `tx_hdr_cnt`, the stuffing countdown: 1 or 2 between micro-operations, 0 only inside `ENC_PUT` (rule R13).
DEDUCED, safe, log 15. -/
inductive TxCountdown where
  | one
  | two
deriving DecidableEq, Repr

/-- Group CRC (rule R12). -/
structure Crc where
  /-- `tx_crc` -/
  tx : Word
  /-- `rx_crc` -/
  rx : Word
deriving DecidableEq, Repr

/-- Group ENC (rule R13). -/
structure Enc where
  /-- `tx_hdr_cnt` -/
  hdrCnt : TxCountdown
deriving DecidableEq, Repr

/-- Group DEC (rules R14 to R16). -/
structure Dec where
  /-- `rx_state` -/
  state : RxState
  /-- `rx_hdr_cnt` -/
  hdrCnt : RxHdr
  /-- `rx_ctrl` -/
  ctrl : Byte
  /-- `rx_seq` -/
  seq : Byte
  /-- `rx_len` -/
  len : Byte
  /-- `rx_cnt` -/
  cnt : Byte
  /-- `RXBUF`, indices 0 to `MAX_PAYLOAD - 1` -/
  buf : Memory
  /-- `rx_wire_crc` -/
  wireCrc : Word
deriving DecidableEq, Repr

/-- Group TP (rules R17 to R27). The counts and indices whose width depends on the configuration are numbers; every
write keeps them inside their width (Operands.lean). -/
structure Tp where
  /-- `sn_min` -/
  snMin : Byte
  /-- `sn_max` -/
  snMax : Byte
  /-- `rn` -/
  rn : Byte
  /-- `fifo_head` -/
  fifoHead : Nat
  /-- `fifo_tail` -/
  fifoTail : Nat
  /-- `n_frames` -/
  nFrames : Nat
  /-- `ring_tail` -/
  ringTail : Nat
  /-- `ring_used` -/
  ringUsed : Nat
  /-- `slot[0]` to `slot[FIFO_SLOTS-1]` -/
  slots : Slots
  /-- `RING`, indices 0 to `RING_SIZE - 1` -/
  ring : Memory
  /-- `last_rx_any_ms` -/
  lastRxAny : Word
  /-- `last_rx_frame_ms` -/
  lastRxFrame : Word
  /-- `last_ack_tx_ms` -/
  lastAckTx : Word
  /-- `remote_connected` -/
  remoteConnected : Bool
  /-- `remote_active` -/
  remoteActive : Bool
  /-- `dropped_frames` -/
  droppedFrames : Word
  /-- `spurious_acks` -/
  spuriousAcks : Word
  /-- `seq_mismatch_drops` -/
  seqMismatchDrops : Word
  /-- `resets_received` -/
  resetsReceived : Word
deriving DecidableEq, Repr

/-- One record of `app_out`: `Deliver(id, len, bytes)`, the bytes by value (rules R53, R194). -/
structure Delivery where
  id : Ident
  len : Byte
  bytes : List Byte
deriving DecidableEq, Repr

/-- Which frame a `TxNoSpace` event is about (rule R175, "which frame"). -/
inductive TxWhat where
  /-- `TxNoSpace(0xFF)` -/
  | ack
  /-- `TxNoSpace(0xFE)` -/
  | reset
  /-- an application frame, by its sequence number -/
  | frame (seq : Byte)
deriving DecidableEq, Repr

/-- The ten events of 60_exceptions.md rule R175, with the info a trace may keep. -/
inductive Event where
  | stuffViolation (b : Byte)
  | resync
  | oversize (b : Byte)
  | crcMismatch (wire loc : Word)
  | badEndMarker (b : Byte)
  | seqMismatch (seq rn : Byte)
  | spuriousAck (seq : Byte)
  | queueReject (id : Byte) (len : Half)
  | peerReset
  | txNoSpace (what : TxWhat)
deriving DecidableEq, Repr

/-- One thing the host still has in store for the instance: the operation to present next, the clock value it comes
with, and by how much the host drained its transmit buffer before it (92_eei_decisions.md D31). The model's own,
log 1. -/
structure Request where
  /-- `time_ms` when the operation is issued -/
  time : Word
  /-- bytes drained from the host's transmit buffer since the operation before (seen under `H1` only) -/
  freed : Nat
  /-- the reset pin, the command port, or (the model's device, log 2) an operation of the block's own -/
  space : OpSpace
  /-- `op[7:0]` -/
  op : Byte
  /-- the operand bytes -/
  args : List Byte
deriving DecidableEq, Repr

/-- The ports and streams of rules R31, R32, R190. -/
structure Io where
  /-- input `time_ms` -/
  timeMs : Word
  /-- input `tx_space`, the free bytes of a finite host buffer; under `H0` the block reads 0xFFFF instead -/
  txSpace : Half
  /-- output stream `tx_out` -/
  txOut : List Byte
  /-- the model's own: positions in `tx_out` of the bytes a full host buffer lost (`H1` only), DESIGN CHOICE, log 10 -/
  txLost : List Nat
  /-- output stream `app_out` -/
  appOut : List Delivery
  /-- `Return` of the operation last taken from the port, if it returned a value -/
  ret : Option Word
  /-- the model's own: the event trace rule R179 allows, log 12 -/
  trace : List Event
  /-- the model's own: what the host will present, in order, log 1 -/
  port : List Request
deriving DecidableEq, Repr

/-- The state of one instance and of its ports. -/
structure State where
  /-- the construction constants (rules R6, R28) -/
  cfg : Config
  crc : Crc
  enc : Enc
  dec : Dec
  tp : Tp
  io : Io
  /-- `now`: the clock value sampled at the start of the operation under way (rule R33) -/
  now : Word
  /-- the model's own: how many free values `HWRESET` has drawn, log 7 -/
  drawn : Nat
deriving DecidableEq, Repr

/-- Why the machine stops. The spec has no fault (rule R178); these are accesses to a place that does not exist, which
rule R54 says no rule makes. All are safe: the model stops where the spec gives no access. DEDUCED, log 14. -/
inductive Fault where
  /-- `RX_PAY` or a delivery reached an index of `RXBUF` at or above `MAX_PAYLOAD` (rules R41, R54). Raised by `RX_PAY`,
  `H_APP`, `H_NONTP` and what calls them. Safe. -/
  | rxbufIndex (index : Nat)
  /-- `SEND_FRAME` was given a slot index at or above `FIFO_SLOTS` (rules R40, R43). Raised by `SEND_FRAME`. Safe. -/
  | slotIndex (index : Nat)
  /-- `ENC_EMIT` was given an offset and mask that reach outside its source (rules R42, R54, R96). Raised by
  `ENC_EMIT`. Safe. -/
  | sourceIndex (index : Nat)
deriving DecidableEq, Repr

/-- Why an operation has no meaning. -/
inductive Refusal where
  /-- the instruction has no meaning in this model yet; raised by `exec`'s own arm. Safe. -/
  | notModelled (mnemonic : String)
  /-- a request whose bytes are no operation of its space, in one of the shapes of rule R78; raised by `step`. Safe,
  log 19. -/
  | undecodable (why : DecodeError)
  /-- `QUEUE` or `FIFO_PUSH` with a payload that has not the length its `len` operand says: not one of the shapes of
  rules R78, R137, and never what the decoder gives. Raised by those two. Safe, log 18. -/
  | payloadLength
deriving DecidableEq, Repr

/-- The three outcomes of an operation of this machine. -/
abbrev Result := Host.Outcome State Fault Refusal

/-! ### Reset -/

/-- `TP` after reset at time `t0` (rules R17, R19, R23, R26, R27, R35). -/
def Tp.afterReset (t0 : Word) : Tp :=
  { snMin := 0#8, snMax := 0#8, rn := 0#8
    fifoHead := 0, fifoTail := 0, nFrames := 0, ringTail := 0, ringUsed := 0
    slots := [], ring := []
    lastRxAny := t0, lastRxFrame := t0, lastAckTx := t0
    remoteConnected := false, remoteActive := false
    droppedFrames := 0#32, spuriousAcks := 0#32, seqMismatchDrops := 0#32, resetsReceived := 0#32 }

/-- The machine right after `HWRESET` (rule R35). The fields rule R35 marks U hold the values logs 4, 5 and 6 name
(DESIGN CHOICE, unsafe); the constants are the reference configuration (log 8); the inputs and `t0` are those of log
9; nothing is on the command port (log 1). -/
def State.reset : State :=
  { cfg := Config.reference
    crc := { tx := 0#32, rx := 0#32 }
    enc := { hdrCnt := .two }
    dec := { state := .sof, hdrCnt := .zero, ctrl := 0#8, seq := 0#8, len := 0#8, cnt := 0#8, buf := [], wireCrc := 0#32 }
    tp := Tp.afterReset 0#32
    io := { timeMs := 0#32, txSpace := 0xFFFF#16, txOut := [], txLost := [], appOut := [], ret := none, trace := [], port := [] }
    now := 0#32
    drawn := 0 }

end Sys2Proof.Machine
end

