-- ==== Sys2Proof/Machine/Ops.lean ====
section
/-! DEFINITION. The named operations every rule is written with (00_scope.md section 6): the memories, the streams,
the clock sample, the transmit space, and `drop`, which stands where another machine would raise an exception. -/

namespace Sys2Proof.Machine

/-- Go on with the state an operation left, or stop with its fault or refusal. -/
def andThen (o : Result) (f : State → Result) : Result :=
  match o with
  | .next s => f s
  | .fault r => .fault r
  | .refused r => .refused r

/-! ### Stores: the canonical form shared by the byte memories and the slot array -/

/-- What index `a` reads as, `d` where nothing is listed. -/
def storeRead {α : Type} (d : α) : List (Nat × α) → Nat → α
  | [], _ => d
  | (k, v) :: m, a => if a = k then v else storeRead d m a

/-- Write `v` at index `a`, keeping the canonical form: writing `d` removes the entry. -/
def storeWrite {α : Type} [DecidableEq α] (d : α) : List (Nat × α) → Nat → α → List (Nat × α)
  | [], a, v => if v = d then [] else [(a, v)]
  | (k, w) :: m, a, v =>
    if a < k then (if v = d then (k, w) :: m else (a, v) :: (k, w) :: m)
    else if a = k then (if v = d then m else (a, v) :: m)
    else (k, w) :: storeWrite d m a v

/-- The canonical form: indices strictly rising, no entry equal to `d`. -/
def storeWf {α : Type} [DecidableEq α] (d : α) : List (Nat × α) → Bool
  | [] => true
  | (k, v) :: m => decide (v ≠ d) && m.all (fun c => decide (k < c.1)) && storeWf d m

/-- Every listed index is below `n`. -/
def storeInside {α : Type} (n : Nat) (m : List (Nat × α)) : Bool := m.all fun c => decide (c.1 < n)

/-- The canonical store of `n` places that holds `cells` (a later entry of the list wins; entries outside are left
out). Every canonical store inside `n` is this of itself. -/
def storeCanon {α : Type} [DecidableEq α] (d : α) (n : Nat) : List (Nat × α) → List (Nat × α)
  | [] => []
  | (k, v) :: m => if k < n then storeWrite d (storeCanon d n m) k v else storeCanon d n m

/-- `MemRead(space, addr, 1)`. -/
def Memory.read (m : Memory) (a : Nat) : Byte := storeRead unwrittenByte m a

/-- `MemWrite(space, addr, 1, v)`. -/
def Memory.write (m : Memory) (a : Nat) (v : Byte) : Memory := storeWrite unwrittenByte m a v

/-- The canonical form of a byte memory. -/
def Memory.wf (m : Memory) : Bool := storeWf unwrittenByte m

/-- `slot[k]`. -/
def Slots.read (m : Slots) (k : Nat) : Slot := storeRead unwrittenSlot m k

/-- Write the record `slot[k]`. -/
def Slots.write (m : Slots) (k : Nat) (v : Slot) : Slots := storeWrite unwrittenSlot m k v

/-- The canonical form of the slot array. -/
def Slots.wf (m : Slots) : Bool := storeWf unwrittenSlot m

/-! ### Inputs and outputs -/

/-- `now <- Now()` (rule R33). -/
def sampleNow (s : State) : State := { s with now := s.io.timeMs }

/-- `TxSpace()` (rule R191, 92_eei_decisions.md D31): 0xFFFF under `H0`, the host's free bytes under `H1`. -/
def txSpace (s : State) : Nat :=
  match s.cfg.hostTx with
  | .h0 => 0xFFFF
  | .h1 => s.io.txSpace.toNat

/-- The budget test `len + 11 <= TxSpace()` (rules R69, R146). -/
def spaceFor (len : Nat) (s : State) : Bool := decide (len + txOverhead ≤ txSpace s)

/-- `TxByte(b)`: append `b` to `tx_out`. Under `H1` the host's buffer takes the byte and its space falls by 1; at space
0 the byte is lost on the host's side, and nothing of the block's own changes (rule R191, D31). DESIGN CHOICE, unsafe for
what is said of `tx_out` alone under `H1`, log 10. -/
def txByte (b : Byte) (s : State) : State :=
  match s.cfg.hostTx with
  | .h0 => { s with io.txOut := s.io.txOut ++ [b] }
  | .h1 =>
    if s.io.txSpace = 0#16 then
      { s with io.txOut := s.io.txOut ++ [b], io.txLost := s.io.txLost ++ [s.io.txOut.length] }
    else { s with io.txOut := s.io.txOut ++ [b], io.txSpace := s.io.txSpace - 1#16 }

/-- The bytes `RXBUF[0 .. n-1]`. -/
def rxBytes (n : Nat) (s : State) : List Byte := (List.range n).map s.dec.buf.read

/-- `Deliver(id, rx_len, RXBUF[0 .. rx_len - 1])` (rules R53, R194): append one record to `app_out`. -/
def deliver (id : Ident) (s : State) : Result :=
  if s.dec.len.toNat ≤ s.cfg.maxPayload then
    .next { s with io.appOut := s.io.appOut ++ [⟨id, s.dec.len, rxBytes s.dec.len.toNat s⟩] }
  else .fault (.rxbufIndex s.cfg.maxPayload)

/-- `Return(v)`: the value the operation hands back. -/
def returnValue (v : Word) (s : State) : State := { s with io.ret := some v }

/-- `drop <Event>(info)` and every other event (rules R175, R176): the event is noted, and nothing else happens. It saves
nothing, changes no mode and goes nowhere, so there is no return from it either (rule R185). -/
def drop (e : Event) (s : State) : State := { s with io.trace := s.io.trace ++ [e] }

end Sys2Proof.Machine
end

