-- ==== Sys2Proof/Machine/Operands.lean ====
section
/-! DEFINITION. Operand forms and field assembly: checksum contexts, encoder sources, CRC bytes, identifiers and
control bytes (30_encoding.md rule R75), masked indices (20_memory.md rules R42, R43), counts of a given width, the
sequence arithmetic of 43_transport.md rule R161. -/

namespace Sys2Proof.Machine

/-- The accumulator a context operand names (rule R85). -/
def crcGet (acc : CrcCtx) (s : State) : Word :=
  match acc with
  | .tx => s.crc.tx
  | .rx => s.crc.rx

/-- Write the accumulator a context operand names. -/
def crcSet (acc : CrcCtx) (v : Word) (s : State) : State :=
  match acc with
  | .tx => { s with crc.tx := v }
  | .rx => { s with crc.rx := v }

/-- A checksum as it goes onto the wire: `c[31:24]`, `c[23:16]`, `c[15:8]`, `c[7:0]` (rules R47, R75). -/
def wordBytes (c : Word) : List Byte :=
  [c.extractLsb' 24 8, c.extractLsb' 16 8, c.extractLsb' 8 8, c.extractLsb' 0 8]

/-- `{b, 0x000000}` (rule R118). -/
def wireByte3 (b : Byte) : Word := (b ++ 0#24 : BitVec 32)

/-- `w` with bits 23:16 replaced by `b` (rule R119). -/
def wireByte2 (w : Word) (b : Byte) : Word := (w.extractLsb' 24 8 ++ b ++ w.extractLsb' 0 16 : BitVec 32)

/-- `w` with bits 15:8 replaced by `b` (rule R120). -/
def wireByte1 (w : Word) (b : Byte) : Word := (w.extractLsb' 16 16 ++ b ++ w.extractLsb' 0 8 : BitVec 32)

/-- `w` with bits 7:0 replaced by `b` (rule R121). -/
def wireByte0 (w : Word) (b : Byte) : Word := (w.extractLsb' 8 24 ++ b : BitVec 32)

/-- `id[5:0]` of `QUEUE`'s 8-bit identifier operand (rules R78, R136). -/
def maskIdent (id : Byte) : Ident := id.extractLsb' 0 6

/-- The control byte of a queued frame, `0x80 or id`: `{1, 0, id}` (rules R74, R75). -/
def frameControl (id : Ident) : Byte := controlByte true false id

/-- `i and FIFO_MASK` (rule R43). -/
def fifoIndex (c : Config) (i : Nat) : Nat := i &&& c.fifoMask

/-- `i and RING_MASK` (rule R42). -/
def ringIndex (c : Config) (i : Nat) : Nat := i &&& c.ringMask

/-- `a + b` written to a counter of `w` bits. Where the sum does not fit, the spec states no result: a free value of
the counter's width. DESIGN CHOICE, safe, log 13. -/
def countAdd (w a b : Nat) : Nat := if a + b < 2 ^ w then a + b else Config.freeSum a b % 2 ^ w

/-- `a - b` written to a counter of `w` bits. Below zero the spec states no result: a free value of the counter's
width. DESIGN CHOICE, safe, log 13. -/
def countSub (w a b : Nat) : Nat := if b ≤ a then a - b else Config.freeDifference a b % 2 ^ w

/-- How many places a source of `ENC_EMIT` has (rule R96). -/
def srcSize (src : EncSrc) (s : State) : Nat :=
  match src with
  | .ring => s.cfg.ringSize
  | .imm bytes => bytes.length

/-- `MemRead(src, a, 1)` for an index inside the source. -/
def srcByte (src : EncSrc) (s : State) (a : Nat) : Byte :=
  match src with
  | .ring => s.tp.ring.read a
  | .imm bytes => bytes.getD a unwrittenByte

/-- The indices `(off + i) and mask` for `i` in `0 .. n - 1` (rules R42, R96). -/
def srcIndices (off mask n : Nat) : List Nat := (List.range n).map fun i => (off + i) &&& mask

/-- The `n` payload bytes `ENC_EMIT` reads from its source. -/
def srcBytes (src : EncSrc) (off mask n : Nat) (s : State) : List Byte := (srcIndices off mask n).map (srcByte src s)

/-- `win = sn_max -_8 sn_min`, the number of frames in flight (rules R18, R161). -/
def win (s : State) : Byte := s.tp.snMax - s.tp.snMin

/-- `slot[k]`. -/
def slotAt (k : Nat) (s : State) : Slot := s.tp.slots.read k

/-- Write `slot[k]`. -/
def setSlot (k : Nat) (v : Slot) (s : State) : State := { s with tp.slots := s.tp.slots.write k v }

/-- Elapsed time `now -_32 t` as a natural number (rules R161, R188). -/
def elapsed (s : State) (t : Word) : Nat := (s.now - t).toNat

/-- The age of slot `k`, `now -_32 slot[k].last_sent_ms` (rules R142, R143). -/
def slotAge (k : Nat) (s : State) : Nat := elapsed s (slotAt k s).lastSent

end Sys2Proof.Machine
end

