-- ==== Sys2Proof/Machine/Flags.lean ====
section
/-! DEFINITION. The flag-like state of 10_state.md rules R25, R26: the two run-length counters of the stuffing scheme
and the two link-status flags. The block has no arithmetic condition codes. -/

namespace Sys2Proof.Machine

/-- `rx_hdr_cnt` as a number. -/
def RxHdr.toNat : RxHdr → Nat
  | .zero => 0
  | .one => 1
  | .two => 2

/-- `tx_hdr_cnt` as a number. -/
def TxCountdown.toNat : TxCountdown → Nat
  | .one => 1
  | .two => 2

/-- `rx_state` as its code of rule R14. -/
def RxState.code : RxState → BitVec 4
  | .sof => 0#4
  | .ctrl => 1#4
  | .seq => 2#4
  | .len => 3#4
  | .pay => 4#4
  | .c3 => 5#4
  | .c2 => 6#4
  | .c1 => 7#4
  | .c0 => 8#4
  | .eof => 9#4

/-- The counting branch of the pre-check (rule R112): a header byte counts one more, any other clears the count. It is
selected by a count below 2. -/
def countHeader (b : Byte) : RxHdr → RxHdr
  | .zero => if b = headerByte then .one else .zero
  | .one => if b = headerByte then .two else .zero
  | .two => .zero

/-- Whether the countdown reaches zero at this byte, so that a stuff byte follows (rule R98). -/
def stuffDue (b : Byte) (c : TxCountdown) : Bool :=
  match c with
  | .one => decide (b = headerByte)
  | .two => false

/-- The countdown after this byte and the stuff byte it may have caused (rule R98). -/
def countDown (b : Byte) (c : TxCountdown) : TxCountdown :=
  match c with
  | .one => .two
  | .two => if b = headerByte then .one else .two

/-- Recompute `remote_connected` and `remote_active` (rules R26, R140): elapsed time strictly below `IDLE_MS`. -/
def linkFlags (s : State) : State :=
  { s with
    tp.remoteConnected := decide (elapsed s s.tp.lastRxAny < s.cfg.idleMs.toNat)
    tp.remoteActive := decide (elapsed s s.tp.lastRxFrame < s.cfg.idleMs.toNat) }

end Sys2Proof.Machine
end

