-- ==== Sys2Proof/Machine/CrcUnit.lean ====
section
/-! DEFINITION. CRC, the CRC-32/ISO-HDLC generator (40_crc.md): `CRC_INIT`, `CRC_STEP`, `CRC_FINAL`. -/

namespace Sys2Proof.Machine

/-- One iteration: if the low bit is set, shift right and XOR with the polynomial, else shift right (rule R87). -/
def crcBit (a : Word) : Word := if a.getLsbD 0 then (a >>> 1) ^^^ crcPoly else a >>> 1

/-- `n` iterations. -/
def crcBits : Nat → Word → Word
  | 0, a => a
  | n + 1, a => crcBits n (crcBit a)

/-- `step`: XOR the byte into the low 8 bits, then 8 iterations (rule R87). -/
def crcStep (acc : Word) (b : Byte) : Word := crcBits 8 (acc ^^^ b.setWidth 32)

/-- The bitwise complement (rule R88). -/
def crcFinal (acc : Word) : Word := ~~~acc

/-- `Crc32(m)` (rule R90). -/
def crc32 (m : List Byte) : Word := crcFinal (m.foldl crcStep crcInitValue)

/-- `CRC_INIT(acc)` (rule R86). -/
def execCrcInit (acc : CrcCtx) (s : State) : Result := .next (crcSet acc crcInitValue s)

/-- `CRC_STEP(acc, b)` (rule R87). -/
def execCrcStep (acc : CrcCtx) (b : Byte) (s : State) : Result := .next (crcSet acc (crcStep (crcGet acc s) b) s)

/-- `CRC_FINAL(acc)` (rule R88): returns the complement; `acc` itself is not changed. The value goes where every
`Return` goes. DESIGN CHOICE, safe, log 11. -/
def execCrcFinal (acc : CrcCtx) (s : State) : Result := .next (returnValue (crcFinal (crcGet acc s)) s)

end Sys2Proof.Machine
end

