-- ==== Sys2Proof/Machine/Encoder.lean ====
section
/-! DEFINITION. ENC, the byte-stuff frame encoder (41_encoder.md): `ENC_RAW`, `ENC_PUT`, `ENC_EMIT`. -/

namespace Sys2Proof.Machine

/-- A byte that is neither stuffed nor checksummed (rule R97). -/
def encRaw (b : Byte) (s : State) : State := txByte b s

/-- Step `tx_crc` with a logical byte (rule R98, `crc == 1`). -/
def stepTxCrc (b : Byte) (s : State) : State := { s with crc.tx := crcStep s.crc.tx b }

/-- The byte, and the stuff byte where the countdown reaches zero (rule R98). The stuff byte is no logical byte and is
never stepped into `tx_crc`. -/
def putStuffed (b : Byte) (s : State) : State :=
  if stuffDue b s.enc.hdrCnt then txByte stuffByte (txByte b s) else txByte b s

/-- A logical byte (rule R98). -/
def encPut (b : Byte) (crc : Bool) (s : State) : State :=
  let t := putStuffed b s
  let u := if crc then stepTxCrc b t else t
  { u with enc.hdrCnt := countDown b s.enc.hdrCnt }

/-- `ENC_PUT` of each byte in order. -/
def encPuts (bytes : List Byte) (crc : Bool) (s : State) : State := bytes.foldl (fun t b => encPut b crc t) s

/-- The logical bytes before the CRC: control, sequence iff bit 7 of control is set, length, payload (rules R61, R64). -/
def frameBody (control seq len : Byte) (payload : List Byte) : List Byte :=
  [control] ++ (if controlT control then [seq] else []) ++ [len] ++ payload

/-- The whole of `ENC_EMIT` once its payload bytes are read (rule R96): three raw sync bytes, countdown and checksum
initialised, the logical bytes stuffed and checksummed, the CRC big-endian and stuffed, the raw end marker. -/
def emitFrame (control seq len : Byte) (payload : List Byte) (s : State) : State :=
  let t := encRaw headerByte (encRaw headerByte (encRaw headerByte s))
  let u := { t with enc.hdrCnt := .two, crc.tx := crcInitValue }
  let v := encPuts (frameBody control seq len payload) true u
  encRaw eofByte (encPuts (wordBytes (crcFinal v.crc.tx)) false v)

/-- `ENC_RAW(b)` (rule R97). -/
def execEncRaw (b : Byte) (s : State) : Result := .next (encRaw b s)

/-- `ENC_PUT(b, crc)` (rule R98). -/
def execEncPut (b : Byte) (crc : Bool) (s : State) : Result := .next (encPut b crc s)

/-- `ENC_EMIT(control, seq, src, off, mask, len)` (rule R96). The payload bytes are read before the first byte goes out;
no emission writes a source, so the order cannot be seen (DEDUCED, safe, log 17). An index outside the source faults (log
14); with the operands rule R96 gives, none is. -/
def execEncEmit (control seq : Byte) (src : EncSrc) (off mask : Half) (len : Byte) (s : State) : Result :=
  match (srcIndices off.toNat mask.toNat len.toNat).find? (fun a => decide (srcSize src s ≤ a)) with
  | some a => .fault (.sourceIndex a)
  | none => .next (emitFrame control seq len (srcBytes src off.toNat mask.toNat len.toNat s) s)

end Sys2Proof.Machine
end

