-- ==== Sys2Proof/Machine/Fifo.lean ====
section
/-! DEFINITION. The FIFO of frame slots and the payload ring (43_transport.md rules R137, R138, R158): `FIFO_PUSH`,
`FIFO_POP`, `TP_CLEAR`. -/

namespace Sys2Proof.Machine

/-- Write `bytes` at ring positions `at`, `at + 1`, …, each reduced with `RING_MASK` (rules R42, R137). -/
def ringWrite (c : Config) : Memory → Nat → List Byte → Memory
  | m, _, [] => m
  | m, pos, b :: bytes => ringWrite c (m.write (ringIndex c pos) b) (pos + 1) bytes

/-- `FIFO_PUSH` of a payload (rule R137). The slot's `seq` and `last_sent_ms` are not written and keep what
they held (DESIGN CHOICE, unsafe, log 29). -/
def fifoPush (id : Ident) (payload : List Byte) (s : State) : State :=
  let tp := s.tp
  { s with
    tp.ring := ringWrite s.cfg tp.ring tp.ringTail payload
    tp.slots := tp.slots.write tp.fifoTail
      { slotAt tp.fifoTail s with id := id, len := BitVec.ofNat 8 payload.length, off := tp.ringTail }
    tp.ringTail := ringIndex s.cfg (tp.ringTail + payload.length)
    tp.ringUsed := countAdd (s.cfg.ringBits + 1) tp.ringUsed payload.length
    tp.fifoTail := fifoIndex s.cfg (tp.fifoTail + 1)
    tp.nFrames := countAdd (s.cfg.fifoBits + 1) tp.nFrames 1 }

/-- `FIFO_POP` (rule R138). The slot and the ring bytes are not cleared. -/
def fifoPop (s : State) : State :=
  let tp := s.tp
  { s with
    tp.ringUsed := countSub (s.cfg.ringBits + 1) tp.ringUsed (slotAt tp.fifoHead s).len.toNat
    tp.fifoHead := fifoIndex s.cfg (tp.fifoHead + 1)
    tp.nFrames := countSub (s.cfg.fifoBits + 1) tp.nFrames 1 }

/-- `FIFO_POP`, `n` times. -/
def fifoPops : Nat → State → State
  | 0, s => s
  | n + 1, s => fifoPops n (fifoPop s)

/-- `TP_CLEAR` (rule R158). Counters, link flags, slots, `RING` and everything outside TP keep their values. -/
def tpClear (s : State) : State :=
  { s with
    tp.fifoHead := 0
    tp.fifoTail := 0
    tp.nFrames := 0
    tp.ringTail := 0
    tp.ringUsed := 0
    tp.snMin := 0#8
    tp.snMax := 0#8
    tp.rn := 0#8
    tp.lastRxAny := s.now
    tp.lastRxFrame := s.now
    tp.lastAckTx := s.now }

/-- `FIFO_PUSH(id6, len, payload)` (rule R137). -/
def execFifoPush (id : Ident) (len : Byte) (payload : List Byte) (s : State) : Result :=
  if payload.length = len.toNat then .next (fifoPush id payload s) else .refused .payloadLength

/-- `FIFO_POP` (rule R138). -/
def execFifoPop (s : State) : Result := .next (fifoPop s)

/-- `TP_CLEAR` (rule R158). -/
def execTpClear (s : State) : Result := .next (tpClear s)

end Sys2Proof.Machine
end

