-- ==== Sys2Proof/Machine/Send.lean ====
section
/-! DEFINITION. Sending (43_transport.md section 4): `SEND_FRAME`, `SEND_ACK`, `SEND_RESET`. -/

namespace Sys2Proof.Machine

/-- Emit the frame of slot `k` and note the time (rule R145). -/
def sendFrame (k : Nat) (s : State) : State :=
  let f := slotAt k s
  let t := emitFrame (frameControl f.id) f.seq f.len (srcBytes .ring f.off s.cfg.ringMask f.len.toNat s) s
  setSlot k { slotAt k t with lastSent := t.now } t

/-- Emit `ACKF(rn)` if 12 bytes of space are available (rule R149). -/
def sendAck (s : State) : State :=
  if spaceFor 1 s then
    let t := emitFrame ctrlAck s.tp.rn 1#8 [s.tp.rn] s
    { t with tp.lastAckTx := t.now }
  else drop (.txNoSpace .ack) s

/-- Emit `RESETF` if 11 bytes of space are available (rule R150). -/
def sendReset (s : State) : State :=
  if spaceFor 0 s then emitFrame ctrlReset 0#8 0#8 [] s else drop (.txNoSpace .reset) s

/-- `SEND_FRAME(k)` (rule R145), for a slot that exists. -/
def execSendFrame (k : Byte) (s : State) : Result :=
  if k.toNat < s.cfg.fifoSlots then .next (sendFrame k.toNat s) else .fault (.slotIndex k.toNat)

/-- `SEND_ACK` (rule R149). -/
def execSendAck (s : State) : Result := .next (sendAck s)

/-- `SEND_RESET` (rule R150). -/
def execSendReset (s : State) : Result := .next (sendReset s)

end Sys2Proof.Machine
end

