-- ==== Sys2Proof/Machine/Handlers.lean ====
section
/-! DEFINITION. The frame handlers (43_transport.md section 5): `H_APP`, `H_NONTP`, `H_ACK`, `H_RESET`, and `DISPATCH`
(42_decoder.md rule R124). -/

namespace Sys2Proof.Machine

/-- `acked = seq -_8 sn_min` (rule R154). -/
def acked (s : State) : Byte := s.dec.seq - s.tp.snMin

/-- `nacked = p0 -_8 seq`, 0 when the ACK has no payload (rule R154). -/
def nacked (s : State) : Byte := if 1 ≤ s.dec.len.toNat then s.dec.buf.read 0 - s.dec.seq else 0#8

/-- Resend slot `k` if its budget fits, else skip it (rule R155). -/
def resendSlot (k : Nat) (s : State) : State :=
  if spaceFor (slotAt k s).len.toNat s then sendFrame k s else drop (.txNoSpace (.frame (slotAt k s).seq)) s

/-- Resend `n` frames, from distance `j` of the head on (rule R155). -/
def resendFrom : Nat → Nat → State → State
  | 0, _, s => s
  | n + 1, j, s => resendFrom n (j + 1) (resendSlot (fifoIndex s.cfg (s.tp.fifoHead + j)) s)

/-- `H_ACK` (rule R155). -/
def execHAck (s : State) : Result :=
  if (acked s).toNat ≤ (win s).toNat ∧ 0 < s.tp.nFrames then
    .next (resendFrom (min (nacked s).toNat ((win s).toNat - (acked s).toNat)) 0
      (fifoPops (acked s).toNat { s with tp.snMin := s.dec.seq }))
  else if (win s).toNat < (acked s).toNat then
    .next (drop (.spuriousAck s.dec.seq) { s with tp.spuriousAcks := s.tp.spuriousAcks + 1#32 })
  else .next s

/-- `H_RESET` (rule R157). -/
def execHReset (s : State) : Result :=
  .next (drop .peerReset (tpClear { s with tp.resetsReceived := s.tp.resetsReceived + 1#32 }))

/-- `H_APP` (rule R152). The identifier is `rx_ctrl[5:0]`, the field of the control byte that selected the handler;
bit 6, `r`, is ignored. -/
def execHApp (_r : Bool) (id : Ident) (s : State) : Result :=
  let t := { s with tp.lastRxFrame := s.now }
  if t.dec.seq = t.tp.rn then deliver id (sendAck { t with tp.rn := t.tp.rn + 1#8 })
  else .next (drop (.seqMismatch t.dec.seq t.tp.rn) { t with tp.seqMismatchDrops := t.tp.seqMismatchDrops + 1#32 })

/-- `H_NONTP` (rule R153). The identifier is `rx_ctrl[5:0]`, the field of the control byte that selected the handler;
bit 6, `r`, is ignored. -/
def execHNontp (_r : Bool) (id : Ident) (s : State) : Result := deliver id s

/-- `DISPATCH` (rule R124): the handler is selected by `rx_ctrl`, tested in the order of rule R71. -/
def execDispatch (s : State) : Result :=
  if s.dec.ctrl = ctrlAck then execHAck s
  else if s.dec.ctrl = ctrlReset then execHReset s
  else if controlT s.dec.ctrl then execHApp (controlR s.dec.ctrl) (controlId s.dec.ctrl) s
  else execHNontp (controlR s.dec.ctrl) (controlId s.dec.ctrl) s

end Sys2Proof.Machine
end

