-- ==== Sys2Proof/Machine/Receiver.lean ====
section
/-! DEFINITION. DEC, the byte-destuff decoder (42_decoder.md): the pre-check's special branch, the ten state rows and
`RXBYTE`. -/

namespace Sys2Proof.Machine

/-- Step `rx_crc` with a byte of the frame (rules R114 to R117). -/
def stepRxCrc (b : Byte) (s : State) : State := { s with crc.rx := crcStep s.crc.rx b }

/-- Note the arrival of a byte (rule R110). -/
def noteArrival (s : State) : State := { s with tp.lastRxAny := s.now }

/-- Write `rx_hdr_cnt`. -/
def setHdr (h : RxHdr) (s : State) : State := { s with dec.hdrCnt := h }

/-- Go to a parse state. -/
def goto (st : RxState) (s : State) : State := { s with dec.state := st }

/-- `RX_RESYNC` (rule R111): a third 0xAA. The event `Resync` is noted when a frame was in progress. -/
def execRxResync (s : State) : Result :=
  let t := goto .ctrl (setHdr .zero s)
  if s.dec.state = .sof then .next t else .next (drop .resync t)

/-- `RX_DESTUFF` (rule R111): the stuff byte is discarded. -/
def execRxDestuff (s : State) : Result := .next (setHdr .zero s)

/-- `RX_VIOLATION` (rule R111). -/
def execRxViolation (b : Byte) (s : State) : Result :=
  .next (drop (.stuffViolation b) (goto .sof (setHdr .zero s)))

/-- `RX_SOF` (rule R113): the byte is ignored. -/
def execRxSof (_b : Byte) (s : State) : Result := .next s

/-- `RX_CTRL` (rule R114). -/
def execRxCtrl (b : Byte) (s : State) : Result :=
  let t := { s with dec.ctrl := b, dec.cnt := 0#8, crc.rx := crcStep crcInitValue b }
  if controlT b then .next (goto .seq t) else .next (goto .len { t with dec.seq := 0#8 })

/-- `RX_SEQ` (rule R115). -/
def execRxSeq (b : Byte) (s : State) : Result := .next (goto .len (stepRxCrc b { s with dec.seq := b }))

/-- `RX_LEN` (rule R116): the test for 0 comes before the test against `MAX_PAYLOAD`. -/
def execRxLen (b : Byte) (s : State) : Result :=
  let t := stepRxCrc b { s with dec.len := b }
  if b = 0#8 then .next (goto .c3 t)
  else if b.toNat ≤ s.cfg.maxPayload then .next (goto .pay t)
  else .next (drop (.oversize b) (goto .sof t))

/-- `RX_PAY` (rule R117). An index of `RXBUF` at or above `MAX_PAYLOAD` does not exist (rule R54): a fault, which no
reachable state meets. DEDUCED, safe, log 14. -/
def execRxPay (b : Byte) (s : State) : Result :=
  if s.dec.cnt.toNat < s.cfg.maxPayload then
    let t := stepRxCrc b { s with dec.buf := s.dec.buf.write s.dec.cnt.toNat b, dec.cnt := s.dec.cnt + 1#8 }
    if t.dec.cnt = t.dec.len then .next (goto .c3 t) else .next t
  else .fault (.rxbufIndex s.dec.cnt.toNat)

/-- `RX_C3` (rule R118). -/
def execRxC3 (b : Byte) (s : State) : Result := .next (goto .c2 { s with dec.wireCrc := wireByte3 b })

/-- `RX_C2` (rule R119). -/
def execRxC2 (b : Byte) (s : State) : Result := .next (goto .c1 { s with dec.wireCrc := wireByte2 s.dec.wireCrc b })

/-- `RX_C1` (rule R120). -/
def execRxC1 (b : Byte) (s : State) : Result := .next (goto .c0 { s with dec.wireCrc := wireByte1 s.dec.wireCrc b })

/-- `RX_C0` (rule R121): all 32 bits are compared, after this row's write. -/
def execRxC0 (b : Byte) (s : State) : Result :=
  let t := { s with dec.wireCrc := wireByte0 s.dec.wireCrc b }
  if t.dec.wireCrc = crcFinal t.crc.rx then .next (goto .eof t)
  else .next (drop (.crcMismatch t.dec.wireCrc (crcFinal t.crc.rx)) (goto .sof t))

/-- `RX_EOF` (rule R122): `rx_state` is written before `DISPATCH` runs. -/
def execRxEof (b : Byte) (s : State) : Result :=
  if b = eofByte then execDispatch (goto .sof s) else .next (drop (.badEndMarker b) (goto .sof s))

/-- The row of the state table selected by `rx_state` (rules R110, R113 to R122). -/
def rxRow (b : Byte) (s : State) : Result :=
  match s.dec.state with
  | .sof => execRxSof b s
  | .ctrl => execRxCtrl b s
  | .seq => execRxSeq b s
  | .len => execRxLen b s
  | .pay => execRxPay b s
  | .c3 => execRxC3 b s
  | .c2 => execRxC2 b s
  | .c1 => execRxC1 b s
  | .c0 => execRxC0 b s
  | .eof => execRxEof b s

/-- The pre-check's special branch (rule R111). -/
def rxSpecial (b : Byte) (s : State) : Result :=
  if b = headerByte then execRxResync s
  else if b = stuffByte then execRxDestuff s
  else execRxViolation b s

/-- `RXBYTE(b)` (rule R110): note the arrival time, run the pre-check, and unless its special branch consumed the byte,
the row selected by `rx_state`. -/
def execRxbyte (b : Byte) (s : State) : Result :=
  let t := noteArrival s
  if t.dec.hdrCnt = .two then rxSpecial b t
  else rxRow b (setHdr (countHeader b t.dec.hdrCnt) t)

/-- `RXBYTE` of each byte in order (rules R45, R139 step 1). -/
def rxList : List Byte → State → Result
  | [], s => .next s
  | b :: bytes, s => andThen (execRxbyte b s) (rxList bytes)

end Sys2Proof.Machine
end

