-- ==== Sys2Proof/Machine/HostOps.lean ====
section
/-! DEFINITION. The operations of the command port (43_transport.md) and the reset pin (70_reset_and_hazards.md rule
R205): `FEED`, `POLL`, `QUEUE`, `TRESET`, `STATUS`, `HWRESET`. -/

namespace Sys2Proof.Machine

/-- `FEED b` (rule R148). -/
def execFeed (b : Byte) (s : State) : Result := execRxbyte b (sampleNow s)

/-- Whether `QUEUE` rejects (rule R136). -/
def queueRejects (len : Nat) (s : State) : Bool :=
  decide (s.cfg.maxPayload < len) || decide (s.tp.nFrames = s.cfg.fifoSlots) ||
    decide (s.cfg.ringSize - s.tp.ringUsed < len)

/-- `QUEUE id, len, payload` (rule R136). -/
def execQueue (id : Byte) (len : Half) (payload : List Byte) (s : State) : Result :=
  if payload.length = len.toNat then
    let t := sampleNow s
    if queueRejects len.toNat t then
      .next (returnValue 0#32
        (drop (.queueReject id len) { t with tp.droppedFrames := t.tp.droppedFrames + 1#32 }))
    else .next (returnValue 1#32 (fifoPush (maskIdent id) payload t))
  else .refused .payloadLength

/-- `POLL` step 3: the window has room and a queued frame is not yet in flight (rule R141). -/
def newFrameDue (s : State) : Bool := decide ((win s).toNat < s.cfg.maxWindow) && decide ((win s).toNat < s.tp.nFrames)

/-- The first queued frame not yet in flight (rule R141). -/
def nextSlot (s : State) : Nat := fifoIndex s.cfg (s.tp.fifoHead + (win s).toNat)

/-- `POLL` step 3 when it sends: number the frame, send it, open the window by one (rule R141). -/
def sendNew (s : State) : State :=
  let k := nextSlot s
  let t := sendFrame k (setSlot k { slotAt k s with seq := s.tp.snMax } s)
  { t with tp.snMax := t.tp.snMax + 1#8 }

/-- The scan of rule R143 over `n` more slots from distance `j`: only a strictly greater age replaces the best. -/
def oldestFrom (s : State) : Nat → Nat → Nat → Nat
  | 0, _, best => best
  | n + 1, j, best =>
    let k := fifoIndex s.cfg (s.tp.fifoHead + j)
    oldestFrom s n (j + 1) (if slotAge best s < slotAge k s then k else best)

/-- `OLDEST()` (rule R143). -/
def oldest (s : State) : Nat := oldestFrom s ((win s).toNat - 1) 1 s.tp.fifoHead

/-- `POLL` step 4 (rule R142), when step 3 sent nothing. -/
def pollResend (s : State) : State :=
  if 0 < (win s).toNat ∧ s.tp.remoteConnected = true ∧ s.cfg.frameRetxMs.toNat < slotAge (oldest s) s then
    resendSlot (oldest s) s
  else s

/-- `POLL` steps 3 and 4 (rules R141, R142): "if step 3 did not send a frame", whatever the reason. -/
def pollSend (s : State) : State :=
  if newFrameDue s then
    if spaceFor (slotAt (nextSlot s) s).len.toNat s then sendNew s
    else pollResend (drop (.txNoSpace (.frame s.tp.snMax)) s)
  else pollResend s

/-- `POLL` step 5, the periodic ACK (rule R144). -/
def pollAck (s : State) : State :=
  if s.cfg.ackRetxMs.toNat < elapsed s s.tp.lastAckTx ∧ s.tp.remoteActive = true then sendAck s else s

/-- `POLL` steps 2 to 5 (rule R139). -/
def pollTimers (s : State) : State := pollAck (pollSend (linkFlags s))

/-- `POLL [bytes]` (rule R139). -/
def execPoll (bytes : List Byte) (s : State) : Result :=
  andThen (rxList bytes (sampleNow s)) fun t => .next (pollTimers t)

/-- `TRESET inform` (rule R159). -/
def execTreset (inform : Bool) (s : State) : Result :=
  let t := sampleNow s
  .next (tpClear (if inform then sendReset t else t))

/-- The status word of an index (rule R30). -/
def statusWord (idx : Byte) (s : State) : Word :=
  if idx = 0#8 then s.tp.droppedFrames
  else if idx = 1#8 then s.tp.spuriousAcks
  else if idx = 2#8 then s.tp.seqMismatchDrops
  else if idx = 3#8 then s.tp.resetsReceived
  else if idx = 4#8 then (0#8 ++ s.tp.rn ++ s.tp.snMax ++ s.tp.snMin : BitVec 32)
  else if idx = 5#8 then BitVec.ofNat 32 s.tp.nFrames
  else if idx = 6#8 then BitVec.ofNat 32 s.tp.ringUsed
  else if idx = 7#8 then
    (0#24 ++ s.dec.state.code ++ 0#2 ++ BitVec.ofBool s.tp.remoteActive ++ BitVec.ofBool s.tp.remoteConnected : BitVec 32)
  else 0#32

/-- `STATUS idx` (rule R160): the clock is not sampled. -/
def execStatus (idx : Byte) (s : State) : Result := .next (returnValue (statusWord idx s) s)

/-- The fields rule R35 marks U take free values: "What survives `HWRESET`: the configuration constants … and nothing
else" (rule R206). DESIGN CHOICE, safe, log 7. -/
def forget (s : State) : State :=
  let n := s.drawn
  { s with
    crc.tx := Config.freeWord n
    crc.rx := Config.freeWord (n + 1)
    dec.wireCrc := Config.freeWord (n + 2)
    dec.ctrl := Config.freeByte n
    dec.seq := Config.freeByte (n + 1)
    dec.len := Config.freeByte (n + 2)
    dec.cnt := Config.freeByte (n + 3)
    dec.buf := storeCanon unwrittenByte s.cfg.maxPayload (Config.freeCells n)
    tp.ring := storeCanon unwrittenByte s.cfg.ringSize (Config.freeCells (n + 1))
    tp.slots := storeCanon unwrittenSlot s.cfg.fifoSlots
      ((Config.freeSlots n).map fun c => (c.1, { c.2 with off := ringIndex s.cfg c.2.off }))
    drawn := n + 4 }

/-- `HWRESET` (rule R205), with `t0` the clock value at this moment. -/
def execHwreset (s : State) : Result :=
  let t := forget (sampleNow s)
  .next (tpClear
    { t with
      dec.state := .sof
      dec.hdrCnt := .zero
      enc.hdrCnt := .two
      tp.remoteConnected := false
      tp.remoteActive := false
      tp.droppedFrames := 0#32
      tp.spuriousAcks := 0#32
      tp.seqMismatchDrops := 0#32
      tp.resetsReceived := 0#32 })

end Sys2Proof.Machine
end

