-- ==== Sys2Proof/Machine/Sequencer.lean ====
section
/-! DEFINITION. How the next operation reaches the block: taking a request from the port, and the bytes the decoder is
given (DESIGN CHOICE, safe, logs 1, 2, 27). Step.lean only calls these. -/

namespace Sys2Proof.Machine

/-- The transmit space once the host has drained `freed` bytes: under `H1` it rises, up to what 16 bits hold; under `H0`
the input is not used (rule R191, D31). -/
def drainedSpace (freed : Nat) (s : State) : Half :=
  match s.cfg.hostTx with
  | .h0 => s.io.txSpace
  | .h1 => BitVec.ofNat 16 (min 0xFFFF (s.io.txSpace.toNat + freed))

/-- Take request `r` from the port, `rest` remaining: the inputs take the values it comes with and nothing has been
returned yet. -/
def accept (r : Request) (rest : List Request) (s : State) : State :=
  { s with
    io.timeMs := r.time
    io.txSpace := drainedSpace r.freed s
    io.ret := none
    io.port := rest }

/-- The code and operand bytes the decoder is given. A handler's code is the control byte in `rx_ctrl` (rule R71). -/
def fetch (r : Request) (s : State) : OpWord :=
  { space := r.space
    op := if r.space = .handler then s.dec.ctrl else r.op
    args := r.args }

end Sys2Proof.Machine
end

