-- ==== Sys2Proof/Machine/Dispatch.lean ====
section
/-! DEFINITION. The dispatch of an operation to its meaning: one arm per constructor of Instr. -/

namespace Sys2Proof.Machine

def exec (i : Instr) (s : State) : Host.Outcome State Fault Refusal :=
  match i with
  | .hwreset => Sys2Proof.Machine.execHwreset s
  | .feed b => Sys2Proof.Machine.execFeed b s
  | .poll bytes => Sys2Proof.Machine.execPoll bytes s
  | .queue id len payload => Sys2Proof.Machine.execQueue id len payload s
  | .treset inform => Sys2Proof.Machine.execTreset inform s
  | .status idx => Sys2Proof.Machine.execStatus idx s
  | .crcInit acc => Sys2Proof.Machine.execCrcInit acc s
  | .crcStep acc b => Sys2Proof.Machine.execCrcStep acc b s
  | .crcFinal acc => Sys2Proof.Machine.execCrcFinal acc s
  | .encRaw b => Sys2Proof.Machine.execEncRaw b s
  | .encPut b crc => Sys2Proof.Machine.execEncPut b crc s
  | .encEmit control seq src off mask len => Sys2Proof.Machine.execEncEmit control seq src off mask len s
  | .rxbyte b => Sys2Proof.Machine.execRxbyte b s
  | .dispatch => Sys2Proof.Machine.execDispatch s
  | .rxResync => Sys2Proof.Machine.execRxResync s
  | .rxDestuff => Sys2Proof.Machine.execRxDestuff s
  | .rxViolation b => Sys2Proof.Machine.execRxViolation b s
  | .rxSof b => Sys2Proof.Machine.execRxSof b s
  | .rxCtrl b => Sys2Proof.Machine.execRxCtrl b s
  | .rxSeq b => Sys2Proof.Machine.execRxSeq b s
  | .rxLen b => Sys2Proof.Machine.execRxLen b s
  | .rxPay b => Sys2Proof.Machine.execRxPay b s
  | .rxC3 b => Sys2Proof.Machine.execRxC3 b s
  | .rxC2 b => Sys2Proof.Machine.execRxC2 b s
  | .rxC1 b => Sys2Proof.Machine.execRxC1 b s
  | .rxC0 b => Sys2Proof.Machine.execRxC0 b s
  | .rxEof b => Sys2Proof.Machine.execRxEof b s
  | .fifoPush id len payload => Sys2Proof.Machine.execFifoPush id len payload s
  | .fifoPop => Sys2Proof.Machine.execFifoPop s
  | .sendFrame k => Sys2Proof.Machine.execSendFrame k s
  | .sendAck => Sys2Proof.Machine.execSendAck s
  | .sendReset => Sys2Proof.Machine.execSendReset s
  | .tpClear => Sys2Proof.Machine.execTpClear s
  | .hAck => Sys2Proof.Machine.execHAck s
  | .hReset => Sys2Proof.Machine.execHReset s
  | .hApp r id => Sys2Proof.Machine.execHApp r id s
  | .hNontp r id => Sys2Proof.Machine.execHNontp r id s

end Sys2Proof.Machine
end

