-- ==== Sys2Proof/Machine/Step.lean ====
section
/-! DEFINITION. One step: take the next request from the port and run its operation (DESIGN CHOICE, safe, log 1). With no request the block
holds its state and does nothing (60_exceptions.md rule R199; DEDUCED, safe, log 26). -/

namespace Sys2Proof.Machine

/-- One step of the instance. A command code that is no host operation is ignored: no state change, no output, no
return value (rule R80). Bytes that are no operation of their space are refused (DESIGN CHOICE, safe,
log 19). -/
def step (s : State) : Host.Outcome State Fault Refusal :=
  match s.io.port with
  | [] => .next s
  | r :: rest =>
    let t := accept r rest s
    match decode (fetch r t) with
    | .instr i => exec i t
    | .rejected (.notHostOp _) => .next t
    | .rejected why => .refused (.undecodable why)

/-- `s` with the instruction whose bits are `w` presented next: a request at the head of the port, at the present clock
value and with nothing drained; for a handler, whose code is the control byte in `rx_ctrl`, that byte too. -/
def State.withFetchWord (s : State) (nbits w : Nat) : State :=
  let o := tableOpWord nbits w
  { s with
    dec.ctrl := if o.space = .handler then o.op else s.dec.ctrl
    io.port := { time := s.io.timeMs, freed := 0, space := o.space, op := o.op, args := o.args } :: s.io.port }

end Sys2Proof.Machine
end

