-- ==== Sys2Proof/Safety.lean ====
section
/-! DEFINITION. The terms the statements use: the wire form of a frame (30_encoding.md rules R60, R61, R68), what an
emission is, and the invariants of rules R14, R18, R20, R40, R54, R77 that every run from reset keeps. -/

namespace Sys2Proof.Machine

/-! ### The wire form of a frame -/

/-- Stuffing as rules R68, R100 scan it: `c` consecutive 0xAA have just been emitted; a 0x55 follows the second of a
pair and the count starts again from zero. -/
def stuffed : Nat → List Byte → List Byte
  | _, [] => []
  | c, b :: rest =>
    if b = headerByte then
      if c = 1 then b :: stuffByte :: stuffed 0 rest else b :: stuffed (c + 1) rest
    else b :: stuffed 0 rest

/-- How many stuff bytes `stuffed` adds (rule R100). -/
def stuffCount : Nat → List Byte → Nat
  | _, [] => 0
  | c, b :: rest =>
    if b = headerByte then (if c = 1 then stuffCount 0 rest + 1 else stuffCount (c + 1) rest) else stuffCount 0 rest

/-- The logical bytes the CRC covers: control, sequence iff `control[7]`, length, payload (rules R61, R64, R66). -/
def checkedBytes (control seq : Byte) (payload : List Byte) : List Byte :=
  control :: ((if controlT control then [seq] else []) ++ BitVec.ofNat 8 payload.length :: payload)

/-- All the logical bytes: those the CRC covers and the CRC, most significant byte first (rules R47, R61, R66). -/
def logicalBytes (control seq : Byte) (payload : List Byte) : List Byte :=
  checkedBytes control seq payload ++ wordBytes (crc32 (checkedBytes control seq payload))

/-- `Wire(F(control, seq, payload))` (rules R60, R61, R81): sync, the stuffed logical bytes, the end marker. -/
def wire (control seq : Byte) (payload : List Byte) : List Byte :=
  [headerByte, headerByte, headerByte] ++ stuffed 0 (logicalBytes control seq payload) ++ [eofByte]

/-- No three consecutive 0xAA (rule R99). -/
def noTripleHeader (l : List Byte) : Prop :=
  ∀ i, ¬(l[i]? = some headerByte ∧ l[i + 1]? = some headerByte ∧ l[i + 2]? = some headerByte)

/-! ### Emissions -/

/-- The host is handed `bytes`, in order (`TxByte` of each). -/
def hostTakes (bytes : List Byte) (s : State) : State := bytes.foldl (fun t b => txByte b t) s

/-- `t` is `s` after exactly `bytes` were emitted. ENC's own `tx_crc` and `tx_hdr_cnt` "hold leftovers that nothing
reads" (rule R102) and may be anything; all else is as in `s` but for the host's side of the bytes. -/
def Emitted (bytes : List Byte) (s t : State) : Prop :=
  t = { hostTakes bytes s with crc.tx := t.crc.tx, enc.hdrCnt := t.enc.hdrCnt }

/-- The frame slot `k` holds, as it goes onto the wire (rules R74, R145). -/
def slotWire (k : Nat) (s : State) : List Byte :=
  wire (frameControl (slotAt k s).id) (slotAt k s).seq
    ((List.range (slotAt k s).len.toNat).map fun i => s.tp.ring.read (ringIndex s.cfg ((slotAt k s).off + i)))

/-- `ACKF(rn)` (rules R72, R82, R149). -/
def ackWire (s : State) : List Byte := wire ctrlAck s.tp.rn [s.tp.rn]

/-- `RESETF` (rules R73, R82, R150). -/
def resetWire : List Byte := wire ctrlReset 0#8 []

/-! ### Sending, as the rules say it -/

/-- Slot `k` reads `v` and nothing else of the state has changed. -/
def SlotChange (k : Nat) (v : Slot) (s t : State) : Prop :=
  t = { s with tp.slots := t.tp.slots } ∧ slotAt k t = v ∧ ∀ j, j ≠ k → slotAt j t = slotAt j s

/-- `SEND_FRAME(k)` (rule R145): the slot's frame goes out, then the slot's `last_sent_ms` is `now`. -/
def FrameSent (k : Nat) (s t : State) : Prop :=
  ∃ u, Emitted (slotWire k s) s u ∧ SlotChange k { slotAt k s with lastSent := s.now } u t

/-- An ACK goes out, then `last_ack_tx_ms` is `now` (rule R149). -/
def AckSent (s t : State) : Prop := ∃ u, Emitted (ackWire s) s u ∧ t = { u with tp.lastAckTx := s.now }

/-- A send without space: the event and nothing else (rules R146, R175). -/
def Skipped (what : TxWhat) (s t : State) : Prop := t = { s with io.trace := s.io.trace ++ [.txNoSpace what] }

/-- `SEND_ACK` (rule R149). -/
def AckTried (s t : State) : Prop := if 12 ≤ txSpace s then AckSent s t else Skipped .ack s t

/-- One resend of rule R155: sent if its budget fits, else skipped. -/
def FrameTried (k : Nat) (s t : State) : Prop :=
  if (slotAt k s).len.toNat + 11 ≤ txSpace s then FrameSent k s t else Skipped (.frame (slotAt k s).seq) s t

/-! ### Receiving, one byte after the other -/

/-- `RXBYTE` of each byte in order, each answering a next state, leads from `s` to `t` (rules R45, R110). -/
def Fed : List Byte → State → State → Prop
  | [], s, t => t = s
  | b :: bytes, s, t => ∃ u, exec (.rxbyte b) s = .next u ∧ Fed bytes u t

/-- The operation `RXBYTE` runs for `rx_hdr_cnt == 2` (rule R111). -/
def specialOp (b : Byte) : Instr := if b = 0xAA#8 then .rxResync else if b = 0x55#8 then .rxDestuff else .rxViolation b

/-- The row `rx_state` selects (rules R113 to R122). -/
def rowOp (st : RxState) (b : Byte) : Instr :=
  match st with
  | .sof => .rxSof b
  | .ctrl => .rxCtrl b
  | .seq => .rxSeq b
  | .len => .rxLen b
  | .pay => .rxPay b
  | .c3 => .rxC3 b
  | .c2 => .rxC2 b
  | .c1 => .rxC1 b
  | .c0 => .rxC0 b
  | .eof => .rxEof b

/-- The handler a control byte selects (rules R71, R124). -/
def handlerOp (c : Byte) : Instr :=
  if c = 0xFF#8 then .hAck
  else if c = 0xFE#8 then .hReset
  else if c.getLsbD 7 = true then .hApp (c.getLsbD 6) (c.extractLsb' 0 6)
  else .hNontp (c.getLsbD 6) (c.extractLsb' 0 6)

/-- The table of rule R128: every way `rx_state` changes at a byte. -/
def nextRxState (b : Byte) (s : State) : RxState :=
  if s.dec.hdrCnt = .two then
    if b = 0xAA#8 then .ctrl else if b = 0x55#8 then s.dec.state else .sof
  else
    match s.dec.state with
    | .sof => .sof
    | .ctrl => if b.getLsbD 7 = true then .seq else .len
    | .seq => .len
    | .len => if b = 0#8 then .c3 else if b.toNat ≤ s.cfg.maxPayload then .pay else .sof
    | .pay => if s.dec.cnt.toNat + 1 = s.dec.len.toNat then .c3 else .pay
    | .c3 => .c2
    | .c2 => .c1
    | .c1 => .c0
    | .c0 => if (s.dec.wireCrc.extractLsb' 8 24 ++ b : BitVec 32) = ~~~s.crc.rx then .eof else .sof
    | .eof => .sof

/-- The byte `b` ends a frame: it is the end marker, and the pre-check leaves it to the row of `S_EOF` (rules R110, R111,
R122). -/
abbrev FrameEnds (b : Byte) (s : State) : Prop := s.dec.hdrCnt ≠ .two ∧ s.dec.state = .eof ∧ b = 0x55#8

/-- The record a delivery appends (rules R53, R152, R153). -/
def received (id : Ident) (s : State) : Delivery := ⟨id, s.dec.len, (List.range s.dec.len.toNat).map s.dec.buf.read⟩

/-! ### The diagnostic counters -/

/-- The four diagnostic counters (rule R27). -/
structure Counters where
  dropped : Word
  spurious : Word
  mismatch : Word
  resets : Word
deriving DecidableEq, Repr

/-- The counters of a state. -/
def counters (s : State) : Counters :=
  ⟨s.tp.droppedFrames, s.tp.spuriousAcks, s.tp.seqMismatchDrops, s.tp.resetsReceived⟩

/-- The counters after `H_ACK`: one more spurious ACK when it "finds `acked > win`" (rules R27, R155). -/
def countersAfterAck (s : State) : Counters :=
  if (win s).toNat < (s.dec.seq - s.tp.snMin).toNat then { counters s with spurious := s.tp.spuriousAcks + 1#32 }
  else counters s

/-- The counters after `H_RESET`: one more reset received when it "runs" (rules R27, R157). -/
def countersAfterReset (s : State) : Counters := { counters s with resets := s.tp.resetsReceived + 1#32 }

/-- The counters after `H_APP`: one more mismatch when it "finds `rx_seq != rn`" (rules R27, R152). -/
def countersAfterApp (s : State) : Counters :=
  if s.dec.seq = s.tp.rn then counters s else { counters s with mismatch := s.tp.seqMismatchDrops + 1#32 }

/-- The counters after the handler `rx_ctrl` selects (rules R27, R71, R124). -/
def countersAfterHandler (s : State) : Counters :=
  if s.dec.ctrl = 0xFF#8 then countersAfterAck s
  else if s.dec.ctrl = 0xFE#8 then countersAfterReset s
  else if s.dec.ctrl.getLsbD 7 = true then countersAfterApp s
  else counters s

/-! ### Where an operation stops -/

/-- The operation stops with fault `f` when `p` holds, and else answers a next state. -/
def StopsIf (p : Prop) (f : Fault) (o : Result) : Prop := (p → o = .fault f) ∧ (¬p → ∃ t, o = .next t)

/-- The operation stops with the fault named, or with none named it answers a next state. -/
def StopsOn (stop : Option Fault) (o : Result) : Prop :=
  match stop with
  | none => ∃ t, o = .next t
  | some f => o = .fault f

/-- The handler `rx_ctrl` selects would deliver a payload longer than `MAX_PAYLOAD`: `H_NONTP`, or `H_APP` with the
number it expects (rules R54, R124, R152, R153). -/
abbrev LongDelivery (s : State) : Prop :=
  s.cfg.maxPayload < s.dec.len.toNat ∧
    (s.dec.ctrl.getLsbD 7 = true → s.dec.ctrl ≠ 0xFF#8 ∧ s.dec.ctrl ≠ 0xFE#8 ∧ s.dec.seq = s.tp.rn)

/-- The fault, if any, `RXBYTE` of `b` stops on: `RX_PAY` at an index `RXBUF` has not, or the delivery of a frame longer
than `RXBUF` (rule R54 says that neither comes about). DEDUCED, safe, log 14. -/
def rxFault (b : Byte) (s : State) : Option Fault :=
  if s.dec.hdrCnt = .two then none
  else if s.dec.state = .pay ∧ s.cfg.maxPayload ≤ s.dec.cnt.toNat then some (.rxbufIndex s.dec.cnt.toNat)
  else if s.dec.state = .eof ∧ b = 0x55#8 ∧ LongDelivery s then some (.rxbufIndex s.cfg.maxPayload)
  else none

/-- The operation stops at the first of the `n` indices `idx 0, idx 1, …` that a source of `size` places has not, and
completes when it has them all. DEDUCED, safe, log 14. -/
def StopsOutside (size : Nat) (idx : Nat → Nat) (n : Nat) (o : Result) : Prop :=
  ((∀ k, k < n → idx k < size) → ∃ t, o = .next t) ∧
    ∀ k, k < n → size ≤ idx k → (∀ j, j < k → idx j < size) → o = .fault (.sourceIndex (idx k))

/-! ### Invariants -/

/-- The slot at distance `j` from the head (rule R43). -/
def queuedIndex (s : State) (j : Nat) : Nat := fifoIndex s.cfg (s.tp.fifoHead + j)

/-- The record at distance `j` from the head. -/
def queuedSlot (s : State) (j : Nat) : Slot := slotAt (queuedIndex s j) s

/-- `n` resends in window order, from distance `j` of the head on (rule R155). -/
def Resends : Nat → Nat → State → State → Prop
  | 0, _, s, t => t = s
  | n + 1, j, s, t => ∃ u, FrameTried (queuedIndex s j) s u ∧ Resends n (j + 1) u t

/-- `POLL` step 3 when it sends (rule R141): the first queued frame not in flight gets number `sn_max`, goes out, and
`sn_max` goes up by one. -/
def NewFrameSent (s t : State) : Prop :=
  ∃ u v, SlotChange (queuedIndex s (win s).toNat) { queuedSlot s (win s).toNat with seq := s.tp.snMax } s u ∧
    FrameSent (queuedIndex s (win s).toNat) u v ∧ t = { v with tp.snMax := s.tp.snMax + 1#8 }

/-- `POLL` step 5 (rule R144). -/
def PeriodicAck (s t : State) : Prop :=
  if s.cfg.ackRetxMs.toNat < (s.now - s.tp.lastAckTx).toNat ∧ s.tp.remoteActive = true then AckTried s t else t = s

/-- The sum of the payload lengths of the `n` frames from distance `j` on. -/
def lensFrom (s : State) : Nat → Nat → Nat
  | _, 0 => 0
  | j, n + 1 => (queuedSlot s j).len.toNat + lensFrom s (j + 1) n

/-- The decoder's fields while a frame is coming in (rules R54, R114 to R117): nothing counted before the payload, the
next payload byte inside `RXBUF`, and an accepted length from the payload on. -/
structure DecInv (s : State) : Prop where
  cntFresh : s.dec.state = .seq ∨ s.dec.state = .len → s.dec.cnt = 0#8
  payRoom : s.dec.state = .pay → s.dec.cnt.toNat < s.dec.len.toNat
  lenFits : s.dec.state = .pay ∨ s.dec.state = .c3 ∨ s.dec.state = .c2 ∨ s.dec.state = .c1 ∨ s.dec.state = .c0 ∨
    s.dec.state = .eof → s.dec.len.toNat ≤ s.cfg.maxPayload

/-- The FIFO invariant of rule R20. -/
structure FifoInv (s : State) : Prop where
  framesFit : s.tp.nFrames ≤ s.cfg.fifoSlots
  headInside : s.tp.fifoHead < s.cfg.fifoSlots
  tailFollows : s.tp.fifoTail = fifoIndex s.cfg (s.tp.fifoHead + s.tp.nFrames)
  ringTailInside : s.tp.ringTail < s.cfg.ringSize
  usedFits : s.tp.ringUsed ≤ s.cfg.ringSize
  usedIsSum : s.tp.ringUsed = lensFrom s 0 s.tp.nFrames
  offInside : ∀ j, j < s.tp.nFrames → (queuedSlot s j).off < s.cfg.ringSize
  payloadsEndAtTail : ∀ j, j < s.tp.nFrames →
    ringIndex s.cfg ((queuedSlot s j).off + lensFrom s j (s.tp.nFrames - j)) = s.tp.ringTail

/-- The window invariant of rules R18, R147. -/
structure WindowInv (s : State) : Prop where
  windowFits : (win s).toNat ≤ s.cfg.maxWindow
  windowQueued : (win s).toNat ≤ s.tp.nFrames
  seqInOrder : ∀ j, j < (win s).toNat → (queuedSlot s j).seq = s.tp.snMin + BitVec.ofNat 8 j

/-- The memories are in canonical form and hold nothing outside their size (rules R40, R54). -/
structure MemInv (s : State) : Prop where
  bufWf : s.dec.buf.wf = true
  bufInside : storeInside s.cfg.maxPayload s.dec.buf = true
  ringWf : s.tp.ring.wf = true
  ringInside : storeInside s.cfg.ringSize s.tp.ring = true
  slotsWf : s.tp.slots.wf = true
  slotsInside : storeInside s.cfg.fifoSlots s.tp.slots = true

/-- The host presents the reset pin and command codes only: "only the host codes 0x01 to 0x05 are ever presented on a
port" (rule R77); no request is one of the model's micro-operation requests (DESIGN CHOICE, log 2). -/
def HostPort (s : State) : Prop := ∀ r ∈ s.io.port, r.space = .pin ∨ r.space = .host

/-- The invariant of a run. -/
structure Inv (s : State) : Prop where
  dec : DecInv s
  fifo : FifoInv s
  window : WindowInv s
  mem : MemInv s
  port : HostPort s

/-- The head request, if any, is an operation in one of the shapes of rule R78, or a code rule R80 ignores. -/
def RequestsShaped (s : State) : Prop :=
  ∀ r ∈ s.io.port, r.space = .host → ∀ m, decodeHost r.op r.args ≠ .rejected (.operands m)

/-- `n` steps in a row. -/
def runFor : Nat → State → Result
  | 0, s => .next s
  | n + 1, s => andThen (step s) (runFor n)

end Sys2Proof.Machine
end

