-- ==== Sys2Proof/Certificates/Slice0/Obligations.lean ====
section
/-! DEFINITION. The statements for the provers. Each docstring names the rules of spec/ it formalises. Where a clause
says what the model chose, the docstring names the log entry. An update of the whole state, or `Emitted`, is the
frame: all that is not named in it is unchanged. -/

open Sys2Proof Sys2Proof.Machine

/-! ### Reset -/

/-- Rule R35: the values the spec gives for reset, in `State.reset`. The constants, the inputs and the fields marked U
are the model's choice (logs 4, 5, 6, 8, 9) and nothing is said of them, but that the time stamps are the clock. Of
the values stated only `rx_state` comes from the source; the rest is the spec's decision D26 (log 22). -/
def Obligations.ResetState : Prop :=
  State.reset.dec.state = .sof ∧ State.reset.dec.hdrCnt = .zero ∧ State.reset.enc.hdrCnt = .two ∧
  State.reset.tp.snMin = 0#8 ∧ State.reset.tp.snMax = 0#8 ∧ State.reset.tp.rn = 0#8 ∧
  State.reset.tp.fifoHead = 0 ∧ State.reset.tp.fifoTail = 0 ∧ State.reset.tp.nFrames = 0 ∧
  State.reset.tp.ringTail = 0 ∧ State.reset.tp.ringUsed = 0 ∧
  State.reset.tp.lastRxAny = State.reset.io.timeMs ∧ State.reset.tp.lastRxFrame = State.reset.io.timeMs ∧
  State.reset.tp.lastAckTx = State.reset.io.timeMs ∧
  State.reset.tp.remoteConnected = false ∧ State.reset.tp.remoteActive = false ∧
  State.reset.tp.droppedFrames = 0#32 ∧ State.reset.tp.spuriousAcks = 0#32 ∧
  State.reset.tp.seqMismatchDrops = 0#32 ∧ State.reset.tp.resetsReceived = 0#32 ∧
  State.reset.io.txOut = [] ∧ State.reset.io.appOut = []

/-- Rules R35, R205: `HWRESET` from any state. The fields marked U (`tx_crc`, `rx_crc`, `rx_wire_crc`, `rx_ctrl`,
`rx_seq`, `rx_len`, `rx_cnt`, `RXBUF`, `RING`, the slots) may hold anything; the constants, the ports and the streams
are untouched. Of the values stated only `rx_state` comes from the source; the rest is the spec's decision D26 (log
22). -/
def Obligations.HwresetResult : Prop :=
  ∀ s : State, ∃ t, exec .hwreset s = .next t ∧
    t = { s with
      crc := t.crc
      enc := { hdrCnt := .two }
      dec := { t.dec with state := .sof, hdrCnt := .zero }
      tp :=
        { snMin := 0#8, snMax := 0#8, rn := 0#8
          fifoHead := 0, fifoTail := 0, nFrames := 0, ringTail := 0, ringUsed := 0
          slots := t.tp.slots, ring := t.tp.ring
          lastRxAny := s.io.timeMs, lastRxFrame := s.io.timeMs, lastAckTx := s.io.timeMs
          remoteConnected := false, remoteActive := false
          droppedFrames := 0#32, spuriousAcks := 0#32, seqMismatchDrops := 0#32, resetsReceived := 0#32 }
      now := s.io.timeMs
      drawn := t.drawn }

/-! ### CRC -/

/-- Rule R86. -/
def Obligations.CrcInitSetsAllOnes : Prop :=
  ∀ s : State, exec (.crcInit .tx) s = .next { s with crc.tx := 0xFFFFFFFF#32 } ∧
    exec (.crcInit .rx) s = .next { s with crc.rx := 0xFFFFFFFF#32 }

/-- Rule R87: the byte is XORed into the low bits, and eight iterations follow, each testing the low bit before its
shift. -/
def Obligations.CrcStepEightIterations : Prop :=
  ∀ (acc : CrcCtx) (b : Byte) (s : State), ∃ a : Nat → Word,
    a 0 = (match acc with | .tx => s.crc.tx | .rx => s.crc.rx) ^^^ b.setWidth 32 ∧
    (∀ i, i < 8 → a (i + 1) = if (a i).getLsbD 0 = true then (a i >>> 1) ^^^ 0xEDB88320#32 else a i >>> 1) ∧
    exec (.crcStep acc b) s =
      .next (match acc with | .tx => { s with crc.tx := a 8 } | .rx => { s with crc.rx := a 8 })

/-- Rule R88: the complement is returned and the accumulator kept. That the model puts this internal return value in
`io.ret` is its own choice (log 11). -/
def Obligations.CrcFinalReturnsComplement : Prop :=
  ∀ s : State, exec (.crcFinal .tx) s = .next { s with io.ret := some (s.crc.tx ^^^ 0xFFFFFFFF#32) } ∧
    exec (.crcFinal .rx) s = .next { s with io.ret := some (s.crc.rx ^^^ 0xFFFFFFFF#32) }

/-- Rule R92: "`step` is a bijection of `acc` for each fixed `b` and XOR-linear in `(acc, b)`". The spec marks this as
its own derivation. -/
def Obligations.CrcStepLinearBijective : Prop :=
  (∀ (a a' : Word) (b b' : Byte), crcStep (a ^^^ a') (b ^^^ b') = crcStep a b ^^^ crcStep a' b') ∧
  ∀ b : Byte, Function.Bijective fun a : Word => crcStep a b

/-- Rule R92: "two messages of the same length differing in one bit have different `Crc32`". The spec marks this as
its own derivation. -/
def Obligations.CrcDetectsOneBit : Prop :=
  ∀ (before after : List Byte) (b : Byte) (k : Nat), k < 8 →
    crc32 (before ++ b :: after) ≠ crc32 (before ++ (b ^^^ (1#8 <<< k)) :: after)

/-! ### ENC -/

/-- Rules R97, R191: one byte goes to the host and nothing else of the block changes. What the model does with a byte
at space 0 under `H1` (it notes the position in `txLost`) is its own choice (log 10). -/
def Obligations.EncRawOneByte : Prop :=
  ∀ (b : Byte) (s : State),
    (s.cfg.hostTx = .h0 → exec (.encRaw b) s = .next { s with io.txOut := s.io.txOut ++ [b] }) ∧
    (s.cfg.hostTx = .h1 → s.io.txSpace ≠ 0#16 →
      exec (.encRaw b) s = .next { s with io.txOut := s.io.txOut ++ [b], io.txSpace := s.io.txSpace - 1#16 }) ∧
    (s.cfg.hostTx = .h1 → s.io.txSpace = 0#16 →
      exec (.encRaw b) s =
        .next { s with io.txOut := s.io.txOut ++ [b], io.txLost := s.io.txLost ++ [s.io.txOut.length] })

/-- Rule R98: the byte, the stuff byte after a second 0xAA, the countdown, and the checksum when `crc` is 1. -/
def Obligations.EncPutStuffs : Prop :=
  ∀ (b : Byte) (crc : Bool) (s : State),
    exec (.encPut b crc) s =
      .next { hostTakes (if b = 0xAA#8 ∧ s.enc.hdrCnt = .one then [b, 0x55#8] else [b]) s with
        crc.tx := if crc = true then crcStep s.crc.tx b else s.crc.tx
        enc.hdrCnt := if b = 0xAA#8 ∧ s.enc.hdrCnt = .two then .one else .two }

/-- Rule R96: `ENC_EMIT` hands over the wire form of the frame whose payload it reads from its source, and its size is
within the bounds the rule gives. The bounds and the wire form are what rules R61, R68, R69 derive from the rule's
algorithm; the payload is read before the emission (log 17). -/
def Obligations.EncEmitWireForm : Prop :=
  ∀ (control seq : Byte) (src : EncSrc) (off mask : Half) (len : Byte) (s : State), src.wf s.cfg off mask = true →
    ∃ t payload, exec (.encEmit control seq src off mask len) s = .next t ∧ Emitted (wire control seq payload) s t ∧
      payload = ((List.range len.toNat).map fun i =>
        match src with
        | .ring => s.tp.ring.read ((off.toNat + i) &&& mask.toNat)
        | .imm bytes => bytes.getD ((off.toNat + i) &&& mask.toNat) 0#8) ∧
      len.toNat + 10 + (control.getLsbD 7).toNat ≤ (wire control seq payload).length ∧
      (wire control seq payload).length ≤
        len.toNat + 10 + (control.getLsbD 7).toNat + (len.toNat + 6 + (control.getLsbD 7).toNat) / 2

/-- Rule R99: after the three sync bytes the value 0xAA never occurs three times in a row. The spec derives it from
rule R98. -/
def Obligations.EncEmitNoTripleHeader : Prop :=
  ∀ (control seq : Byte) (src : EncSrc) (off mask : Half) (len : Byte) (s : State), src.wf s.cfg off mask = true →
    ∃ t rest, exec (.encEmit control seq src off mask len) s = .next t ∧
      t.io.txOut = s.io.txOut ++ [0xAA#8, 0xAA#8, 0xAA#8] ++ rest ∧ noTripleHeader rest

/-- Rules R69, R100: the size of a frame on the wire, and the bound on its stuff bytes. The spec derives both. -/
def Obligations.WireFormLength : Prop :=
  ∀ (control seq : Byte) (payload : List Byte),
    (wire control seq payload).length =
      payload.length + 10 + (control.getLsbD 7).toNat + stuffCount 0 (logicalBytes control seq payload) ∧
    2 * stuffCount 0 (logicalBytes control seq payload) ≤ payload.length + 6 + (control.getLsbD 7).toNat

/-! ### DEC -/

/-- Rule R111: the special branch of the pre-check, when it is taken and what each case does. That the counter is
cleared in all three cases is the spec's decision D10 (log 22). -/
def Obligations.RxSpecialBranch : Prop :=
  ∀ (b : Byte) (s : State),
    (s.dec.hdrCnt = .two → exec (.rxbyte b) s = exec (specialOp b) { s with tp.lastRxAny := s.now }) ∧
    exec .rxResync s =
      .next { s with
        dec.hdrCnt := .zero
        dec.state := .ctrl
        io.trace := if s.dec.state = .sof then s.io.trace else s.io.trace ++ [.resync] } ∧
    exec .rxDestuff s = .next { s with dec.hdrCnt := .zero } ∧
    exec (.rxViolation b) s =
      .next { s with dec.hdrCnt := .zero, dec.state := .sof, io.trace := s.io.trace ++ [.stuffViolation b] }

/-- Rules R113, R114, R115: the rows before the length. -/
def Obligations.RxHeaderRows : Prop :=
  ∀ (b : Byte) (s : State),
    exec (.rxSof b) s = .next s ∧
    exec (.rxCtrl b) s =
      .next { s with
        dec.ctrl := b
        dec.cnt := 0#8
        crc.rx := crcStep 0xFFFFFFFF#32 b
        dec.seq := if b.getLsbD 7 = true then s.dec.seq else 0#8
        dec.state := if b.getLsbD 7 = true then .seq else .len } ∧
    exec (.rxSeq b) s = .next { s with dec.seq := b, crc.rx := crcStep s.crc.rx b, dec.state := .len }

/-- Rule R116. -/
def Obligations.RxLenRow : Prop :=
  ∀ (b : Byte) (s : State),
    exec (.rxLen b) s =
      .next { s with
        dec.len := b
        crc.rx := crcStep s.crc.rx b
        dec.state := if b = 0#8 then .c3 else if b.toNat ≤ s.cfg.maxPayload then .pay else .sof
        io.trace := if b.toNat ≤ s.cfg.maxPayload then s.io.trace else s.io.trace ++ [.oversize b] }

/-- Rule R117: byte `rx_cnt` of `RXBUF` is the byte received, every other byte is as before. -/
def Obligations.RxPayRow : Prop :=
  ∀ (b : Byte) (s : State), s.dec.buf.wf = true → s.dec.cnt.toNat < s.cfg.maxPayload →
    ∃ t, exec (.rxPay b) s = .next t ∧
      t = { s with
        dec.buf := t.dec.buf
        dec.cnt := s.dec.cnt + 1#8
        crc.rx := crcStep s.crc.rx b
        dec.state := if s.dec.cnt + 1#8 = s.dec.len then .c3 else s.dec.state } ∧
      t.dec.buf.read s.dec.cnt.toNat = b ∧ ∀ a, a ≠ s.dec.cnt.toNat → t.dec.buf.read a = s.dec.buf.read a

/-- Rules R118, R119, R120: the first three checksum bytes, most significant first. -/
def Obligations.RxChecksumRows : Prop :=
  ∀ (b : Byte) (s : State), ∃ w3 w2 w1 : Word,
    (exec (.rxC3 b) s = .next { s with dec.wireCrc := w3, dec.state := .c2 } ∧
      w3.extractLsb' 24 8 = b ∧ w3.extractLsb' 0 24 = 0#24) ∧
    (exec (.rxC2 b) s = .next { s with dec.wireCrc := w2, dec.state := .c1 } ∧
      w2.extractLsb' 16 8 = b ∧ w2.extractLsb' 24 8 = s.dec.wireCrc.extractLsb' 24 8 ∧
      w2.extractLsb' 0 16 = s.dec.wireCrc.extractLsb' 0 16) ∧
    (exec (.rxC1 b) s = .next { s with dec.wireCrc := w1, dec.state := .c0 } ∧
      w1.extractLsb' 8 8 = b ∧ w1.extractLsb' 16 16 = s.dec.wireCrc.extractLsb' 16 16 ∧
      w1.extractLsb' 0 8 = s.dec.wireCrc.extractLsb' 0 8)

/-- Rule R121: the fourth checksum byte, then all 32 bits are compared. -/
def Obligations.RxC0Row : Prop :=
  ∀ (b : Byte) (s : State), ∃ w : Word, w.extractLsb' 0 8 = b ∧
    w.extractLsb' 8 24 = s.dec.wireCrc.extractLsb' 8 24 ∧
    (w = ~~~s.crc.rx → exec (.rxC0 b) s = .next { s with dec.wireCrc := w, dec.state := .eof }) ∧
    (w ≠ ~~~s.crc.rx →
      exec (.rxC0 b) s =
        .next { s with
          dec.wireCrc := w, dec.state := .sof, io.trace := s.io.trace ++ [.crcMismatch w (~~~s.crc.rx)] })

/-- Rule R122: the end marker hands the frame over, any other byte drops it. With an accepted length it completes. -/
def Obligations.RxEofRow : Prop :=
  ∀ (b : Byte) (s : State),
    (b = 0x55#8 → exec (.rxEof b) s = exec .dispatch { s with dec.state := .sof }) ∧
    (b ≠ 0x55#8 → exec (.rxEof b) s =
      .next { s with dec.state := .sof, io.trace := s.io.trace ++ [.badEndMarker b] }) ∧
    (s.dec.len.toNat ≤ s.cfg.maxPayload → ∃ t, exec (.rxEof b) s = .next t)

/-- Rule R124: the handler is the one `rx_ctrl` selects. With an accepted length it completes. -/
def Obligations.DispatchSelectsHandler : Prop :=
  ∀ s : State, exec .dispatch s = exec (handlerOp s.dec.ctrl) s ∧
    (s.dec.len.toNat ≤ s.cfg.maxPayload → ∃ t, exec .dispatch s = .next t)

/-- Rules R110, R112: the arrival time, the counting branch, and the row `rx_state` selects on entry. Noting the time
at the head of `RXBYTE` is the spec's decision D32 (log 22). -/
def Obligations.RxbyteCountsAndSelects : Prop :=
  ∀ (b : Byte) (s : State),
    (s.dec.hdrCnt = .two → exec (.rxbyte b) s = exec (specialOp b) { s with tp.lastRxAny := s.now }) ∧
    (s.dec.hdrCnt ≠ .two → exec (.rxbyte b) s =
      exec (rowOp s.dec.state b)
        { s with
          tp.lastRxAny := s.now
          dec.hdrCnt := if b = 0xAA#8 then (if s.dec.hdrCnt = .zero then .one else .two) else .zero })

/-- Rule R178: "every byte value is acceptable input in every decoder state"; and the decoder's part of the invariant
(rule R54) is kept. -/
def Obligations.RxbyteAlwaysCompletes : Prop :=
  ∀ (b : Byte) (s : State), DecInv s → ∃ t, exec (.rxbyte b) s = .next t ∧ DecInv t

/-- Rule R128: every way `rx_state` changes. The spec derives the table from rules R111 to R122. -/
def Obligations.RxStateTable : Prop :=
  ∀ (b : Byte) (s : State), DecInv s → ∃ t, exec (.rxbyte b) s = .next t ∧ t.dec.state = nextRxState b s

/-- Rule R104: feeding the wire form of a frame, from any decoder state with `rx_hdr_cnt` 0, runs no handler before
the last byte, and the last byte runs `DISPATCH` once, on the frame's own control, sequence, length and payload. The
spec derives it from the encoder's and the decoder's rules. -/
def Obligations.RoundTrip : Prop :=
  ∀ (control seq : Byte) (payload : List Byte) (s : State), DecInv s → s.dec.buf.wf = true →
    s.dec.hdrCnt = .zero → payload.length ≤ s.cfg.maxPayload →
    ∃ u v, Fed (wire control seq payload).dropLast s u ∧ (wire control seq payload).getLast? = some 0x55#8 ∧
      exec (.rxbyte 0x55#8) u = exec .dispatch v ∧
      u = { s with crc.rx := u.crc.rx, dec := u.dec, tp.lastRxAny := s.now, io.trace := u.io.trace } ∧
      v = { s with crc.rx := v.crc.rx, dec := v.dec, tp.lastRxAny := s.now, io.trace := v.io.trace } ∧
      v.dec.state = .sof ∧ v.dec.hdrCnt = .zero ∧ v.dec.ctrl = control ∧
      v.dec.seq = (if control.getLsbD 7 = true then seq else 0#8) ∧ v.dec.len.toNat = payload.length ∧
      (List.range payload.length).map v.dec.buf.read = payload

/-- Rules R125, R129: whatever a byte does, TP and the streams change only at the end marker of a frame whose checksum
matched (but for the arrival time), and a record appended is that frame. -/
def Obligations.DeliveryOnlyAtEndMarker : Prop :=
  ∀ (b : Byte) (s t : State), exec (.rxbyte b) s = .next t →
    (¬(s.dec.state = .eof ∧ s.dec.hdrCnt ≠ .two ∧ b = 0x55#8) →
      t.tp = { s.tp with lastRxAny := s.now } ∧ t.io.txOut = s.io.txOut ∧ t.io.appOut = s.io.appOut ∧
        t.crc.tx = s.crc.tx ∧ t.enc = s.enc) ∧
    (t.io.appOut ≠ s.io.appOut →
      s.dec.state = .eof ∧ s.dec.hdrCnt ≠ .two ∧ b = 0x55#8 ∧
        t.io.appOut = s.io.appOut ++ [received (s.dec.ctrl.extractLsb' 0 6) s] ∧
        s.dec.ctrl ≠ 0xFF#8 ∧ s.dec.ctrl ≠ 0xFE#8 ∧ (s.dec.ctrl.getLsbD 7 = true → s.dec.seq = s.tp.rn))

/-- Rules R127, R104: three 0xAA start a new frame from any decoder state with `rx_hdr_cnt` 0, and touch TP only by the
arrival time. -/
def Obligations.HardResync : Prop :=
  ∀ s : State, DecInv s → s.dec.hdrCnt = .zero →
    ∃ t, Fed [0xAA#8, 0xAA#8, 0xAA#8] s t ∧ t.dec.state = .ctrl ∧ t.dec.hdrCnt = .zero ∧
      t = { s with crc.rx := t.crc.rx, dec := t.dec, tp.lastRxAny := s.now, io.trace := t.io.trace }

/-- Rule R148: `FEED` samples the clock and runs `RXBYTE`; `POLL` of a list is `FEED` of its bytes at the same clock
value, then `POLL` of nothing. -/
def Obligations.FeedThenPoll : Prop :=
  ∀ (b : Byte) (bytes : List Byte) (s : State),
    exec (.feed b) s = exec (.rxbyte b) { s with now := s.io.timeMs } ∧
    ∀ u, exec (.feed b) s = .next u → exec (.poll (b :: bytes)) s = exec (.poll bytes) u

/-- Rule R178: `FEED` and `POLL` run to completion, whatever the bytes. -/
def Obligations.FeedPollComplete : Prop :=
  ∀ (b : Byte) (bytes : List Byte) (s : State), DecInv s →
    (∃ t, exec (.feed b) s = .next t ∧ t.now = s.io.timeMs ∧ DecInv t) ∧
    ∃ t, exec (.poll bytes) s = .next t ∧ t.now = s.io.timeMs ∧ DecInv t

/-! ### The FIFO -/

/-- Rule R137, when it is called ("only when a slot and `len` ring bytes are free"). That the slot's `seq` and
`last_sent_ms` read as before is the model's choice (log 29): rule R137 says that they are not written and hold no value
until the frame is first sent (so too rule R22). -/
def Obligations.FifoPushStores : Prop :=
  ∀ (id : Ident) (len : Byte) (payload : List Byte) (s : State), payload.length = len.toNat →
    s.tp.ring.wf = true → s.tp.slots.wf = true → s.tp.nFrames < s.cfg.fifoSlots →
    s.tp.ringUsed + payload.length ≤ s.cfg.ringSize →
    ∃ t, exec (.fifoPush id len payload) s = .next t ∧
      t = { s with
        tp.ring := t.tp.ring
        tp.slots := t.tp.slots
        tp.ringTail := (s.tp.ringTail + payload.length) &&& s.cfg.ringMask
        tp.ringUsed := s.tp.ringUsed + payload.length
        tp.fifoTail := (s.tp.fifoTail + 1) &&& s.cfg.fifoMask
        tp.nFrames := s.tp.nFrames + 1 } ∧
      slotAt s.tp.fifoTail t = { slotAt s.tp.fifoTail s with id := id, len := len, off := s.tp.ringTail } ∧
      (∀ k, k ≠ s.tp.fifoTail → slotAt k t = slotAt k s) ∧
      (∀ (i : Nat) (h : i < payload.length),
        t.tp.ring.read ((s.tp.ringTail + i) &&& s.cfg.ringMask) = payload[i]) ∧
      ∀ a, (∀ i, i < payload.length → a ≠ (s.tp.ringTail + i) &&& s.cfg.ringMask) →
        t.tp.ring.read a = s.tp.ring.read a

/-- Rule R138, when it is called ("only when `n_frames > 0`"), the head's bytes being among those held. -/
def Obligations.FifoPopReleases : Prop :=
  ∀ s : State, 0 < s.tp.nFrames → (slotAt s.tp.fifoHead s).len.toNat ≤ s.tp.ringUsed →
    exec .fifoPop s =
      .next { s with
        tp.ringUsed := s.tp.ringUsed - (slotAt s.tp.fifoHead s).len.toNat
        tp.fifoHead := (s.tp.fifoHead + 1) &&& s.cfg.fifoMask
        tp.nFrames := s.tp.nFrames - 1 }

/-! ### Sending -/

/-- Rule R145. That a resend refreshes the time is the spec's decision D17 (log 22). -/
def Obligations.SendFrameEmits : Prop :=
  ∀ (k : Byte) (s : State), s.tp.slots.wf = true → k.toNat < s.cfg.fifoSlots →
    ∃ t, exec (.sendFrame k) s = .next t ∧ FrameSent k.toNat s t

/-- Rule R149. The payload byte `rn` is the spec's decision D12 (log 22). -/
def Obligations.SendAckEmits : Prop := ∀ s : State, ∃ t, exec .sendAck s = .next t ∧ AckTried s t

/-- Rule R150. The sequence byte 0 is the spec's decision D13 (log 22). -/
def Obligations.SendResetEmits : Prop :=
  ∀ s : State, ∃ t, exec .sendReset s = .next t ∧
    (11 ≤ txSpace s → Emitted resetWire s t) ∧ (¬11 ≤ txSpace s → Skipped .reset s t)

/-- Rule R158. That the indices go back to 0 is the spec's decision D25 (log 22). -/
def Obligations.TpClearEmpties : Prop :=
  ∀ s : State,
    exec .tpClear s =
      .next { s with
        tp.fifoHead := 0, tp.fifoTail := 0, tp.nFrames := 0, tp.ringTail := 0, tp.ringUsed := 0
        tp.snMin := 0#8, tp.snMax := 0#8, tp.rn := 0#8
        tp.lastRxAny := s.now, tp.lastRxFrame := s.now, tp.lastAckTx := s.now }

/-! ### The handlers -/

/-- Rule R152: the ACK goes out (or is skipped for want of space) before the delivery, with `rn` already advanced. The
payload byte of the ACK is the spec's decision D12 (log 22). -/
def Obligations.HAppAcceptsInOrder : Prop :=
  ∀ (r : Bool) (id : Ident) (s : State),
    (s.dec.seq = s.tp.rn → s.dec.len.toNat ≤ s.cfg.maxPayload →
      ∃ u, AckTried { s with tp.lastRxFrame := s.now, tp.rn := s.tp.rn + 1#8 } u ∧
        exec (.hApp r id) s = .next { u with io.appOut := s.io.appOut ++ [received id s] }) ∧
    (s.dec.seq ≠ s.tp.rn →
      exec (.hApp r id) s =
        .next { s with
          tp.lastRxFrame := s.now
          tp.seqMismatchDrops := s.tp.seqMismatchDrops + 1#32
          io.trace := s.io.trace ++ [.seqMismatch s.dec.seq s.tp.rn] })

/-- Rule R153. That no time stamp is written is the spec's decision D37 (log 22). -/
def Obligations.HNontpDelivers : Prop :=
  ∀ (r : Bool) (id : Ident) (s : State), s.dec.len.toNat ≤ s.cfg.maxPayload →
    exec (.hNontp r id) s = .next { s with io.appOut := s.io.appOut ++ [received id s] }

/-- Rules R154, R155: the three cases of a received ACK, from a state that keeps the FIFO and window rules. The third
case, the absent payload, the cut at the window and the skipped resends are the spec's decisions D19 to D22 (log 22). -/
def Obligations.HAckThreeCases : Prop :=
  ∀ (s : State) (acked nacked : Byte), FifoInv s → WindowInv s → s.tp.slots.wf = true →
    acked = s.dec.seq - s.tp.snMin →
    nacked = (if 1 ≤ s.dec.len.toNat then s.dec.buf.read 0 - s.dec.seq else 0#8) →
    (acked.toNat ≤ (win s).toNat → 0 < s.tp.nFrames →
      ∃ t, exec .hAck s = .next t ∧
        Resends (min nacked.toNat ((win s).toNat - acked.toNat)) 0
          { s with
            tp.snMin := s.dec.seq
            tp.ringUsed := s.tp.ringUsed - lensFrom s 0 acked.toNat
            tp.fifoHead := (s.tp.fifoHead + acked.toNat) &&& s.cfg.fifoMask
            tp.nFrames := s.tp.nFrames - acked.toNat } t) ∧
    ((win s).toNat < acked.toNat →
      exec .hAck s =
        .next { s with
          tp.spuriousAcks := s.tp.spuriousAcks + 1#32, io.trace := s.io.trace ++ [.spuriousAck s.dec.seq] }) ∧
    (acked.toNat ≤ (win s).toNat → s.tp.nFrames = 0 → exec .hAck s = .next s)

/-- Rules R155, R156: with an unbounded host buffer, an accepted ACK puts on the wire exactly the frames asked for
that are still in flight, each once, in window order; a count that wrapped asks for all of them. The cut at the window
is the spec's decision D21 (log 22). -/
def Obligations.HAckResentBytes : Prop :=
  ∀ (s : State) (acked nacked : Nat), FifoInv s → WindowInv s → s.tp.slots.wf = true → s.cfg.hostTx = .h0 →
    acked = (s.dec.seq - s.tp.snMin).toNat →
    nacked = (if 1 ≤ s.dec.len.toNat then (s.dec.buf.read 0 - s.dec.seq).toNat else 0) →
    acked ≤ (win s).toNat → 0 < s.tp.nFrames →
    ∃ t, exec .hAck s = .next t ∧
      t.io.txOut = s.io.txOut ++
        ((List.range (min nacked ((win s).toNat - acked))).map fun j => slotWire (queuedIndex s (acked + j)) s).flatten ∧
      ((win s).toNat - acked ≤ nacked → ∀ j, acked ≤ j → j < (win s).toNat →
        (queuedSlot t (j - acked)).lastSent = s.now ∧ (queuedSlot t (j - acked)).seq = s.tp.snMin + BitVec.ofNat 8 j)

/-- Rule R157. That the indices go back to 0 is the spec's decision D25 (log 22). -/
def Obligations.HResetClears : Prop :=
  ∀ s : State,
    exec .hReset s =
      .next { s with
        tp.fifoHead := 0, tp.fifoTail := 0, tp.nFrames := 0, tp.ringTail := 0, tp.ringUsed := 0
        tp.snMin := 0#8, tp.snMax := 0#8, tp.rn := 0#8
        tp.lastRxAny := s.now, tp.lastRxFrame := s.now, tp.lastAckTx := s.now
        tp.resetsReceived := s.tp.resetsReceived + 1#32
        io.trace := s.io.trace ++ [.peerReset] }

/-- Rule R163: what a received byte can do to the sender's and to the receiver's side of TP. The spec derives it from
the handlers' rules. -/
def Obligations.DirectionsApart : Prop :=
  ∀ (b : Byte) (s t : State), exec (.rxbyte b) s = .next t →
    ((s.dec.ctrl ≠ 0xFF#8 ∧ s.dec.ctrl ≠ 0xFE#8) →
      t.tp.snMin = s.tp.snMin ∧ t.tp.snMax = s.tp.snMax ∧ t.tp.fifoHead = s.tp.fifoHead ∧
      t.tp.fifoTail = s.tp.fifoTail ∧ t.tp.nFrames = s.tp.nFrames ∧ t.tp.ringTail = s.tp.ringTail ∧
      t.tp.ringUsed = s.tp.ringUsed ∧ t.tp.slots = s.tp.slots ∧ t.tp.ring = s.tp.ring) ∧
    ((s.dec.ctrl = 0xFF#8 ∨ s.dec.ctrl.getLsbD 7 = false) → t.tp.rn = s.tp.rn)

/-! ### The host operations -/

/-- Rule R136: rejection counts and returns 0, acceptance is `FIFO_PUSH` of the masked identifier and returns 1. The
test of the length against `MAX_PAYLOAD` and the masking are the spec's decision D18 (log 22). -/
def Obligations.QueueAcceptsOrRejects : Prop :=
  ∀ (id : Byte) (len : Half) (payload : List Byte) (s : State), payload.length = len.toNat →
    ((s.cfg.maxPayload < len.toNat ∨ s.tp.nFrames = s.cfg.fifoSlots ∨
        s.cfg.ringSize - s.tp.ringUsed < len.toNat) →
      exec (.queue id len payload) s =
        .next { s with
          now := s.io.timeMs
          tp.droppedFrames := s.tp.droppedFrames + 1#32
          io.trace := s.io.trace ++ [.queueReject id len]
          io.ret := some 0#32 }) ∧
    (¬(s.cfg.maxPayload < len.toNat ∨ s.tp.nFrames = s.cfg.fifoSlots ∨
        s.cfg.ringSize - s.tp.ringUsed < len.toNat) →
      ∃ u, exec (.fifoPush (id.extractLsb' 0 6) (len.setWidth 8) payload) { s with now := s.io.timeMs } = .next u ∧
        exec (.queue id len payload) s = .next { u with io.ret := some 1#32 })

/-- Rules R20, R136, R137: a `QUEUE`, accepted or not, leaves the wire form of every queued frame as it was; an accepted
one puts its own frame behind them. -/
def Obligations.QueueKeepsQueued : Prop :=
  ∀ (id : Byte) (len : Half) (payload : List Byte) (s : State), FifoInv s → MemInv s → payload.length = len.toNat →
    ∃ t, exec (.queue id len payload) s = .next t ∧
      (∀ j, j < s.tp.nFrames → queuedIndex t j = queuedIndex s j ∧
        slotWire (queuedIndex t j) t = slotWire (queuedIndex s j) s) ∧
      (t.io.ret = some 1#32 →
        t.tp.nFrames = s.tp.nFrames + 1 ∧ (queuedSlot t s.tp.nFrames).id = id.extractLsb' 0 6 ∧
        slotWire (queuedIndex t s.tp.nFrames) t =
          wire (frameControl (id.extractLsb' 0 6)) (queuedSlot t s.tp.nFrames).seq payload)

/-- Rule R159: with `inform` the RESET frame is tried first; then `TP_CLEAR`, always. That no reset is counted is the
spec's decision D24 (log 22). -/
def Obligations.TresetClears : Prop :=
  ∀ s : State,
    exec (.treset false) s = exec .tpClear { s with now := s.io.timeMs } ∧
    (∃ t, exec (.treset false) s = .next t) ∧
    ∃ u, exec .sendReset { s with now := s.io.timeMs } = .next u ∧ exec (.treset true) s = exec .tpClear u ∧
      ∃ t, exec (.treset true) s = .next t

/-- Rules R30, R160: the word of each index; nothing but the returned value changes. The numbering is the spec's
decision D29 (log 22). -/
def Obligations.StatusWords : Prop :=
  ∀ (idx : Byte) (s : State), ∃ v : Word,
    exec (.status idx) s = .next { s with io.ret := some v } ∧
    (idx = 0#8 → v = s.tp.droppedFrames) ∧ (idx = 1#8 → v = s.tp.spuriousAcks) ∧
    (idx = 2#8 → v = s.tp.seqMismatchDrops) ∧ (idx = 3#8 → v = s.tp.resetsReceived) ∧
    (idx = 4#8 → v.toNat = s.tp.snMin.toNat + 2 ^ 8 * s.tp.snMax.toNat + 2 ^ 16 * s.tp.rn.toNat) ∧
    (idx = 5#8 → s.tp.nFrames ≤ s.cfg.fifoSlots → v.toNat = s.tp.nFrames) ∧
    (idx = 6#8 → s.tp.ringUsed ≤ s.cfg.ringSize → v.toNat = s.tp.ringUsed) ∧
    (idx = 7#8 → v.toNat =
      s.tp.remoteConnected.toNat + 2 * s.tp.remoteActive.toNat + 2 ^ 4 * s.dec.state.code.toNat) ∧
    (8 ≤ idx.toNat → v = 0#32)

/-- Rules R26, R140: after any `POLL` the flags are what the timestamps and the clock give, whatever came in. "Within"
as strictly less is the spec's decision D15 (log 22). -/
def Obligations.PollLinkFlags : Prop :=
  ∀ (bytes : List Byte) (s : State), DecInv s →
    ∃ t, exec (.poll bytes) s = .next t ∧ t.now = s.io.timeMs ∧
      t.tp.remoteConnected = decide ((s.io.timeMs - t.tp.lastRxAny).toNat < s.cfg.idleMs.toNat) ∧
      t.tp.remoteActive = decide ((s.io.timeMs - t.tp.lastRxFrame).toNat < s.cfg.idleMs.toNat)

/-- Rules R141, R144: with room in the window, a frame waiting and space for it, `POLL` numbers and sends it, and then
only step 5 follows. `s'` is the state after step 2. The budget `len + 11` is the spec's decision D14 (log 22). -/
def Obligations.PollSendsNewFrame : Prop :=
  ∀ s s' : State, s.tp.slots.wf = true →
    s' = { s with
      now := s.io.timeMs
      tp.remoteConnected := decide ((s.io.timeMs - s.tp.lastRxAny).toNat < s.cfg.idleMs.toNat)
      tp.remoteActive := decide ((s.io.timeMs - s.tp.lastRxFrame).toNat < s.cfg.idleMs.toNat) } →
    (win s).toNat < s.cfg.maxWindow → (win s).toNat < s.tp.nFrames →
    (queuedSlot s (win s).toNat).len.toNat + 11 ≤ txSpace s →
    ∃ u t, NewFrameSent s' u ∧ PeriodicAck u t ∧ exec (.poll []) s = .next t

/-- Rules R142, R143: when step 3 sends nothing, the remote is connected and the oldest frame in flight (the nearest
to the head among equals) is older than the timeout, that one frame is tried again; then only step 5 follows. A frame
that step 3 found no space for leaves an event in the trace, whose info is the model's choice (log 12). "Exceeds" as
strictly greater, step 4 after any step 3 that sent nothing, and the tie-break are the spec's decisions D15, D16, D23
(log 22). -/
def Obligations.PollResendsOldest : Prop :=
  ∀ (s s' : State) (j : Nat), s.tp.slots.wf = true → s.tp.fifoHead < s.cfg.fifoSlots →
    s' = { s with
      now := s.io.timeMs
      tp.remoteConnected := decide ((s.io.timeMs - s.tp.lastRxAny).toNat < s.cfg.idleMs.toNat)
      tp.remoteActive := decide ((s.io.timeMs - s.tp.lastRxFrame).toNat < s.cfg.idleMs.toNat) } →
    ¬((win s).toNat < s.cfg.maxWindow ∧ (win s).toNat < s.tp.nFrames ∧
      (queuedSlot s (win s).toNat).len.toNat + 11 ≤ txSpace s) →
    (s.io.timeMs - s.tp.lastRxAny).toNat < s.cfg.idleMs.toNat →
    j < (win s).toNat →
    (∀ i, i < (win s).toNat →
      (s.io.timeMs - (queuedSlot s i).lastSent).toNat ≤ (s.io.timeMs - (queuedSlot s j).lastSent).toNat) →
    (∀ i, i < j →
      (s.io.timeMs - (queuedSlot s i).lastSent).toNat < (s.io.timeMs - (queuedSlot s j).lastSent).toNat) →
    s.cfg.frameRetxMs.toNat < (s.io.timeMs - (queuedSlot s j).lastSent).toNat →
    ∃ trace u t, FrameTried (queuedIndex s j) { s' with io.trace := trace } u ∧ PeriodicAck u t ∧
      exec (.poll []) s = .next t

/-- Rules R141, R142, R144: when no new frame can be sent and no frame in flight is old enough (or the remote is not
connected), `POLL` of nothing does step 5 only. A frame that step 3 found no space for leaves an event in the trace,
whose info is the model's choice (log 12). "Exceeds" as strictly greater and step 4 after any step 3 that sent nothing
are the spec's decisions D15, D16 (log 22). -/
def Obligations.PollPeriodicAckOnly : Prop :=
  ∀ s s' : State, s.tp.fifoHead < s.cfg.fifoSlots →
    s' = { s with
      now := s.io.timeMs
      tp.remoteConnected := decide ((s.io.timeMs - s.tp.lastRxAny).toNat < s.cfg.idleMs.toNat)
      tp.remoteActive := decide ((s.io.timeMs - s.tp.lastRxFrame).toNat < s.cfg.idleMs.toNat) } →
    ¬((win s).toNat < s.cfg.maxWindow ∧ (win s).toNat < s.tp.nFrames ∧
      (queuedSlot s (win s).toNat).len.toNat + 11 ≤ txSpace s) →
    ((s.io.timeMs - s.tp.lastRxAny).toNat < s.cfg.idleMs.toNat → ∀ i, i < (win s).toNat →
      (s.io.timeMs - (queuedSlot s i).lastSent).toNat ≤ s.cfg.frameRetxMs.toNat) →
    ∃ trace t, PeriodicAck { s' with io.trace := trace } t ∧ exec (.poll []) s = .next t ∧
      (¬((win s).toNat < s.cfg.maxWindow ∧ (win s).toNat < s.tp.nFrames) → trace = s.io.trace)

/-! ### The whole machine -/

/-- Rule R27: every operation, and what it does to the four diagnostic counters. Each goes up by one when its own
handler, or `QUEUE`, meets the condition of the rule's table, whichever operation runs that handler; `HWRESET` clears
them; nothing else changes one. `POLL` changes what the `RXBYTE` of each of its bytes changes, and no more. The width
(so the wrap), the values after `HWRESET` and the length test of `QUEUE` are the spec's decisions D6, D26, D18 (log
22). -/
def Obligations.CountersChangedOnlyBy : Prop :=
  ∀ (i : Instr) (s t : State), exec i s = .next t →
    match i with
    | .hwreset => counters t = ⟨0#32, 0#32, 0#32, 0#32⟩
    | .queue _ len _ => counters t =
        if s.cfg.maxPayload < len.toNat ∨ s.tp.nFrames = s.cfg.fifoSlots ∨
            s.cfg.ringSize - s.tp.ringUsed < len.toNat then
          { counters s with dropped := s.tp.droppedFrames + 1#32 }
        else counters s
    | .hAck => counters t = countersAfterAck s
    | .hReset => counters t = countersAfterReset s
    | .hApp _ _ => counters t = countersAfterApp s
    | .dispatch => counters t = countersAfterHandler s
    | .rxEof b => counters t = if b = 0x55#8 then countersAfterHandler s else counters s
    | .rxbyte b => counters t = if FrameEnds b s then countersAfterHandler s else counters s
    | .feed b => counters t = if FrameEnds b s then countersAfterHandler s else counters s
    | .poll bytes => ∃ u, Fed bytes { s with now := s.io.timeMs } u ∧ counters t = counters u
    | _ => counters t = counters s

/-- Rule R28: no operation writes the constants. -/
def Obligations.ConstantsNeverChange : Prop :=
  (∀ (i : Instr) (s t : State), exec i s = .next t → t.cfg = s.cfg) ∧ ∀ s t : State, step s = .next t → t.cfg = s.cfg

/-- Rules R32, R206: the streams only grow, at every step. -/
def Obligations.StreamsOnlyGrow : Prop :=
  ∀ s t : State, step s = .next t → s.io.txOut <+: t.io.txOut ∧ s.io.appOut <+: t.io.appOut

/-- The invariant holds after reset (rules R18, R20, R35). The contents of the memories are the model's choice (logs 5,
6), and the empty port too (log 1). -/
def Obligations.InvAtReset : Prop := Inv State.reset

/-- Rules R18, R20, R54, R147: every step keeps the window, FIFO, decoder and memory invariants. -/
def Obligations.InvKept : Prop := ∀ s t : State, Inv s → step s = .next t → Inv t

/-- Rules R54, R178: from a state that keeps the invariants, with requests in the shapes of rule R78 on the port, any
number of steps runs without a fault or a refusal. -/
def Obligations.RunsNeverStop : Prop :=
  ∀ (n : Nat) (s : State), Inv s → RequestsShaped s →
    ∃ t, runFor n s = .next t ∧ Inv t ∧ RequestsShaped t

/-- Every operation, and on what it stops: an index that does not exist (rule R54 says none is reached), or a payload
of another length than the operand says; on everything else it completes. `POLL` stops at the first of its bytes that
`RXBYTE` stops on. Last, the step's own refusal: a request whose bytes are no operation of its space (a command code
that does not exist is ignored instead, statement IllegalCommandIgnored). The stops and their names are the model's
(logs 14, 18, 19). -/
def Obligations.StopsByName : Prop :=
  (∀ (i : Instr) (s : State),
    match i with
    | .rxPay _ => StopsIf (s.cfg.maxPayload ≤ s.dec.cnt.toNat) (.rxbufIndex s.dec.cnt.toNat) (exec i s)
    | .hNontp _ _ => StopsIf (s.cfg.maxPayload < s.dec.len.toNat) (.rxbufIndex s.cfg.maxPayload) (exec i s)
    | .hApp _ _ =>
      StopsIf (s.cfg.maxPayload < s.dec.len.toNat ∧ s.dec.seq = s.tp.rn) (.rxbufIndex s.cfg.maxPayload) (exec i s)
    | .dispatch => StopsIf (LongDelivery s) (.rxbufIndex s.cfg.maxPayload) (exec i s)
    | .rxEof b => StopsIf (b = 0x55#8 ∧ LongDelivery s) (.rxbufIndex s.cfg.maxPayload) (exec i s)
    | .rxbyte b => StopsOn (rxFault b s) (exec i s)
    | .feed b => StopsOn (rxFault b s) (exec i s)
    | .poll bytes =>
      ((∃ u, Fed bytes { s with now := s.io.timeMs } u) → ∃ t, exec i s = .next t) ∧
      ∀ before b after u f, bytes = before ++ b :: after → Fed before { s with now := s.io.timeMs } u →
        rxFault b u = some f → exec i s = .fault f
    | .sendFrame k => StopsIf (s.cfg.fifoSlots ≤ k.toNat) (.slotIndex k.toNat) (exec i s)
    | .encEmit _ _ .ring off mask len =>
      StopsOutside s.cfg.ringSize (fun k => (off.toNat + k) &&& mask.toNat) len.toNat (exec i s)
    | .encEmit _ _ (.imm bytes) off mask len =>
      StopsOutside bytes.length (fun k => (off.toNat + k) &&& mask.toNat) len.toNat (exec i s)
    | .fifoPush _ len payload =>
      if payload.length = len.toNat then ∃ t, exec i s = .next t else exec i s = .refused .payloadLength
    | .queue _ len payload =>
      if payload.length = len.toNat then ∃ t, exec i s = .next t else exec i s = .refused .payloadLength
    | _ => ∃ t, exec i s = .next t) ∧
  ∀ (s : State) (r : Request) (rest : List Request) (why : DecodeError), s.io.port = r :: rest →
    decode { space := r.space, op := if r.space = .handler then s.dec.ctrl else r.op, args := r.args } = .rejected why →
    (∀ code, why ≠ .notHostOp code) → step s = .refused (.undecodable why)

/-! ### Encoding and the step -/

/-- Rules R71, R77, R78: decoding an encoded well-formed operation gives it back, for every operand value. The byte
layout of operands is the model's (log 3). -/
def Obligations.DecodeEncode : Prop := ∀ (c : Config) (i : Instr), i.wf c = true → decode (encode i) = .instr i

/-- Words written out from the codes of rule R77 and the control values of rule R71. -/
def Obligations.DecodeWords : Prop :=
  decode ⟨.pin, 0x00#8, []⟩ = .instr .hwreset ∧
  decode ⟨.host, 0x01#8, [0xAA#8]⟩ = .instr (.feed 0xAA#8) ∧
  decode ⟨.host, 0x03#8, [0x05#8, 0x02#8, 0x00#8, 0x0A#8, 0x0B#8]⟩ = .instr (.queue 0x05#8 2#16 [0x0A#8, 0x0B#8]) ∧
  decode ⟨.micro, 0x11#8, [0x00#8, 0x01#8]⟩ = .instr (.crcStep .tx 0x01#8) ∧
  decode ⟨.micro, 0x44#8, [0x07#8]⟩ = .instr (.rxPay 0x07#8) ∧
  decode ⟨.micro, 0x55#8, []⟩ = .instr .tpClear ∧
  decode ⟨.handler, 0xFF#8, []⟩ = .instr .hAck ∧ decode ⟨.handler, 0xFE#8, []⟩ = .instr .hReset ∧
  decode ⟨.handler, 0x85#8, []⟩ = .instr (.hApp false 5#6) ∧ decode ⟨.handler, 0x45#8, []⟩ = .instr (.hNontp true 5#6)

/-- A step runs the operation the head request decodes to, with the clock, the drained space and no returned value yet
(the request and what comes with it are the model's, log 1); with no request nothing happens (rule R199). -/
def Obligations.StepRunsDecoded : Prop :=
  (∀ (s : State) (r : Request) (rest : List Request) (i : Instr), s.io.port = r :: rest →
    decode { space := r.space, op := if r.space = .handler then s.dec.ctrl else r.op, args := r.args } = .instr i →
    step s = exec i
      { s with
        io.timeMs := r.time
        io.txSpace :=
          if s.cfg.hostTx = .h0 then s.io.txSpace else BitVec.ofNat 16 (min 0xFFFF (s.io.txSpace.toNat + r.freed))
        io.ret := none
        io.port := rest }) ∧
  ∀ s : State, s.io.port = [] → step s = .next s

/-- Rule R80: a command code that is no host operation changes no state of the block, emits nothing and returns
nothing. It is the spec's decision D33 (log 22). -/
def Obligations.IllegalCommandIgnored : Prop :=
  ∀ (s : State) (r : Request) (rest : List Request), s.io.port = r :: rest → r.space = .host →
    ¬(1 ≤ r.op.toNat ∧ r.op.toNat ≤ 5) →
    ∃ t, step s = .next t ∧ t.crc = s.crc ∧ t.enc = s.enc ∧ t.dec = s.dec ∧ t.tp = s.tp ∧ t.cfg = s.cfg ∧
      t.now = s.now ∧ t.io.txOut = s.io.txOut ∧ t.io.appOut = s.io.appOut ∧ t.io.ret = none ∧ t.io.port = rest
end

