-- ==== Sys2Proof/Laws/State.lean ====
section
/-! SUPPORT. One lemma per field per named update of the state, so that no proof unfolds a record update
(refs/LEAN_PROOF_STRATEGIES.md section 2.3). A group an update leaves alone has one lemma for the whole group. -/

namespace Sys2Proof.Machine

/-! ### `sampleNow` -/

@[simp] theorem sampleNow_cfg (s : State) : (sampleNow s).cfg = s.cfg := rfl
@[simp] theorem sampleNow_crc (s : State) : (sampleNow s).crc = s.crc := rfl
@[simp] theorem sampleNow_enc (s : State) : (sampleNow s).enc = s.enc := rfl
@[simp] theorem sampleNow_dec (s : State) : (sampleNow s).dec = s.dec := rfl
@[simp] theorem sampleNow_tp (s : State) : (sampleNow s).tp = s.tp := rfl
@[simp] theorem sampleNow_io (s : State) : (sampleNow s).io = s.io := rfl
@[simp] theorem sampleNow_now (s : State) : (sampleNow s).now = s.io.timeMs := rfl
@[simp] theorem sampleNow_drawn (s : State) : (sampleNow s).drawn = s.drawn := rfl

/-! ### `drop` -/

@[simp] theorem drop_cfg (e : Event) (s : State) : (drop e s).cfg = s.cfg := rfl
@[simp] theorem drop_crc (e : Event) (s : State) : (drop e s).crc = s.crc := rfl
@[simp] theorem drop_enc (e : Event) (s : State) : (drop e s).enc = s.enc := rfl
@[simp] theorem drop_dec (e : Event) (s : State) : (drop e s).dec = s.dec := rfl
@[simp] theorem drop_tp (e : Event) (s : State) : (drop e s).tp = s.tp := rfl
@[simp] theorem drop_io_timeMs (e : Event) (s : State) :
    (drop e s).io.timeMs = s.io.timeMs := rfl
@[simp] theorem drop_io_txSpace (e : Event) (s : State) :
    (drop e s).io.txSpace = s.io.txSpace := rfl
@[simp] theorem drop_io_txOut (e : Event) (s : State) :
    (drop e s).io.txOut = s.io.txOut := rfl
@[simp] theorem drop_io_txLost (e : Event) (s : State) :
    (drop e s).io.txLost = s.io.txLost := rfl
@[simp] theorem drop_io_appOut (e : Event) (s : State) :
    (drop e s).io.appOut = s.io.appOut := rfl
@[simp] theorem drop_io_ret (e : Event) (s : State) :
    (drop e s).io.ret = s.io.ret := rfl
@[simp] theorem drop_io_trace (e : Event) (s : State) :
    (drop e s).io.trace = s.io.trace ++ [e] := rfl
@[simp] theorem drop_io_port (e : Event) (s : State) :
    (drop e s).io.port = s.io.port := rfl
@[simp] theorem drop_now (e : Event) (s : State) : (drop e s).now = s.now := rfl
@[simp] theorem drop_drawn (e : Event) (s : State) : (drop e s).drawn = s.drawn := rfl

/-! ### `returnValue` -/

@[simp] theorem returnValue_cfg (v : Word) (s : State) : (returnValue v s).cfg = s.cfg := rfl
@[simp] theorem returnValue_crc (v : Word) (s : State) : (returnValue v s).crc = s.crc := rfl
@[simp] theorem returnValue_enc (v : Word) (s : State) : (returnValue v s).enc = s.enc := rfl
@[simp] theorem returnValue_dec (v : Word) (s : State) : (returnValue v s).dec = s.dec := rfl
@[simp] theorem returnValue_tp (v : Word) (s : State) : (returnValue v s).tp = s.tp := rfl
@[simp] theorem returnValue_io_timeMs (v : Word) (s : State) :
    (returnValue v s).io.timeMs = s.io.timeMs := rfl
@[simp] theorem returnValue_io_txSpace (v : Word) (s : State) :
    (returnValue v s).io.txSpace = s.io.txSpace := rfl
@[simp] theorem returnValue_io_txOut (v : Word) (s : State) :
    (returnValue v s).io.txOut = s.io.txOut := rfl
@[simp] theorem returnValue_io_txLost (v : Word) (s : State) :
    (returnValue v s).io.txLost = s.io.txLost := rfl
@[simp] theorem returnValue_io_appOut (v : Word) (s : State) :
    (returnValue v s).io.appOut = s.io.appOut := rfl
@[simp] theorem returnValue_io_ret (v : Word) (s : State) :
    (returnValue v s).io.ret = some v := rfl
@[simp] theorem returnValue_io_trace (v : Word) (s : State) :
    (returnValue v s).io.trace = s.io.trace := rfl
@[simp] theorem returnValue_io_port (v : Word) (s : State) :
    (returnValue v s).io.port = s.io.port := rfl
@[simp] theorem returnValue_now (v : Word) (s : State) : (returnValue v s).now = s.now := rfl
@[simp] theorem returnValue_drawn (v : Word) (s : State) : (returnValue v s).drawn = s.drawn := rfl

/-! ### `stepTxCrc` -/

@[simp] theorem stepTxCrc_cfg (b : Byte) (s : State) : (stepTxCrc b s).cfg = s.cfg := rfl
@[simp] theorem stepTxCrc_crc_tx (b : Byte) (s : State) :
    (stepTxCrc b s).crc.tx = crcStep s.crc.tx b := rfl
@[simp] theorem stepTxCrc_crc_rx (b : Byte) (s : State) :
    (stepTxCrc b s).crc.rx = s.crc.rx := rfl
@[simp] theorem stepTxCrc_enc (b : Byte) (s : State) : (stepTxCrc b s).enc = s.enc := rfl
@[simp] theorem stepTxCrc_dec (b : Byte) (s : State) : (stepTxCrc b s).dec = s.dec := rfl
@[simp] theorem stepTxCrc_tp (b : Byte) (s : State) : (stepTxCrc b s).tp = s.tp := rfl
@[simp] theorem stepTxCrc_io (b : Byte) (s : State) : (stepTxCrc b s).io = s.io := rfl
@[simp] theorem stepTxCrc_now (b : Byte) (s : State) : (stepTxCrc b s).now = s.now := rfl
@[simp] theorem stepTxCrc_drawn (b : Byte) (s : State) : (stepTxCrc b s).drawn = s.drawn := rfl

/-! ### `stepRxCrc` -/

@[simp] theorem stepRxCrc_cfg (b : Byte) (s : State) : (stepRxCrc b s).cfg = s.cfg := rfl
@[simp] theorem stepRxCrc_crc_tx (b : Byte) (s : State) :
    (stepRxCrc b s).crc.tx = s.crc.tx := rfl
@[simp] theorem stepRxCrc_crc_rx (b : Byte) (s : State) :
    (stepRxCrc b s).crc.rx = crcStep s.crc.rx b := rfl
@[simp] theorem stepRxCrc_enc (b : Byte) (s : State) : (stepRxCrc b s).enc = s.enc := rfl
@[simp] theorem stepRxCrc_dec (b : Byte) (s : State) : (stepRxCrc b s).dec = s.dec := rfl
@[simp] theorem stepRxCrc_tp (b : Byte) (s : State) : (stepRxCrc b s).tp = s.tp := rfl
@[simp] theorem stepRxCrc_io (b : Byte) (s : State) : (stepRxCrc b s).io = s.io := rfl
@[simp] theorem stepRxCrc_now (b : Byte) (s : State) : (stepRxCrc b s).now = s.now := rfl
@[simp] theorem stepRxCrc_drawn (b : Byte) (s : State) : (stepRxCrc b s).drawn = s.drawn := rfl

/-! ### `noteArrival` -/

@[simp] theorem noteArrival_cfg (s : State) : (noteArrival s).cfg = s.cfg := rfl
@[simp] theorem noteArrival_crc (s : State) : (noteArrival s).crc = s.crc := rfl
@[simp] theorem noteArrival_enc (s : State) : (noteArrival s).enc = s.enc := rfl
@[simp] theorem noteArrival_dec (s : State) : (noteArrival s).dec = s.dec := rfl
@[simp] theorem noteArrival_tp_snMin (s : State) :
    (noteArrival s).tp.snMin = s.tp.snMin := rfl
@[simp] theorem noteArrival_tp_snMax (s : State) :
    (noteArrival s).tp.snMax = s.tp.snMax := rfl
@[simp] theorem noteArrival_tp_rn (s : State) :
    (noteArrival s).tp.rn = s.tp.rn := rfl
@[simp] theorem noteArrival_tp_fifoHead (s : State) :
    (noteArrival s).tp.fifoHead = s.tp.fifoHead := rfl
@[simp] theorem noteArrival_tp_fifoTail (s : State) :
    (noteArrival s).tp.fifoTail = s.tp.fifoTail := rfl
@[simp] theorem noteArrival_tp_nFrames (s : State) :
    (noteArrival s).tp.nFrames = s.tp.nFrames := rfl
@[simp] theorem noteArrival_tp_ringTail (s : State) :
    (noteArrival s).tp.ringTail = s.tp.ringTail := rfl
@[simp] theorem noteArrival_tp_ringUsed (s : State) :
    (noteArrival s).tp.ringUsed = s.tp.ringUsed := rfl
@[simp] theorem noteArrival_tp_slots (s : State) :
    (noteArrival s).tp.slots = s.tp.slots := rfl
@[simp] theorem noteArrival_tp_ring (s : State) :
    (noteArrival s).tp.ring = s.tp.ring := rfl
@[simp] theorem noteArrival_tp_lastRxAny (s : State) :
    (noteArrival s).tp.lastRxAny = s.now := rfl
@[simp] theorem noteArrival_tp_lastRxFrame (s : State) :
    (noteArrival s).tp.lastRxFrame = s.tp.lastRxFrame := rfl
@[simp] theorem noteArrival_tp_lastAckTx (s : State) :
    (noteArrival s).tp.lastAckTx = s.tp.lastAckTx := rfl
@[simp] theorem noteArrival_tp_remoteConnected (s : State) :
    (noteArrival s).tp.remoteConnected = s.tp.remoteConnected := rfl
@[simp] theorem noteArrival_tp_remoteActive (s : State) :
    (noteArrival s).tp.remoteActive = s.tp.remoteActive := rfl
@[simp] theorem noteArrival_tp_droppedFrames (s : State) :
    (noteArrival s).tp.droppedFrames = s.tp.droppedFrames := rfl
@[simp] theorem noteArrival_tp_spuriousAcks (s : State) :
    (noteArrival s).tp.spuriousAcks = s.tp.spuriousAcks := rfl
@[simp] theorem noteArrival_tp_seqMismatchDrops (s : State) :
    (noteArrival s).tp.seqMismatchDrops = s.tp.seqMismatchDrops := rfl
@[simp] theorem noteArrival_tp_resetsReceived (s : State) :
    (noteArrival s).tp.resetsReceived = s.tp.resetsReceived := rfl
@[simp] theorem noteArrival_io (s : State) : (noteArrival s).io = s.io := rfl
@[simp] theorem noteArrival_now (s : State) : (noteArrival s).now = s.now := rfl
@[simp] theorem noteArrival_drawn (s : State) : (noteArrival s).drawn = s.drawn := rfl

/-! ### `setHdr` -/

@[simp] theorem setHdr_cfg (h : RxHdr) (s : State) : (setHdr h s).cfg = s.cfg := rfl
@[simp] theorem setHdr_crc (h : RxHdr) (s : State) : (setHdr h s).crc = s.crc := rfl
@[simp] theorem setHdr_enc (h : RxHdr) (s : State) : (setHdr h s).enc = s.enc := rfl
@[simp] theorem setHdr_dec_state (h : RxHdr) (s : State) :
    (setHdr h s).dec.state = s.dec.state := rfl
@[simp] theorem setHdr_dec_hdrCnt (h : RxHdr) (s : State) :
    (setHdr h s).dec.hdrCnt = h := rfl
@[simp] theorem setHdr_dec_ctrl (h : RxHdr) (s : State) :
    (setHdr h s).dec.ctrl = s.dec.ctrl := rfl
@[simp] theorem setHdr_dec_seq (h : RxHdr) (s : State) :
    (setHdr h s).dec.seq = s.dec.seq := rfl
@[simp] theorem setHdr_dec_len (h : RxHdr) (s : State) :
    (setHdr h s).dec.len = s.dec.len := rfl
@[simp] theorem setHdr_dec_cnt (h : RxHdr) (s : State) :
    (setHdr h s).dec.cnt = s.dec.cnt := rfl
@[simp] theorem setHdr_dec_buf (h : RxHdr) (s : State) :
    (setHdr h s).dec.buf = s.dec.buf := rfl
@[simp] theorem setHdr_dec_wireCrc (h : RxHdr) (s : State) :
    (setHdr h s).dec.wireCrc = s.dec.wireCrc := rfl
@[simp] theorem setHdr_tp (h : RxHdr) (s : State) : (setHdr h s).tp = s.tp := rfl
@[simp] theorem setHdr_io (h : RxHdr) (s : State) : (setHdr h s).io = s.io := rfl
@[simp] theorem setHdr_now (h : RxHdr) (s : State) : (setHdr h s).now = s.now := rfl
@[simp] theorem setHdr_drawn (h : RxHdr) (s : State) : (setHdr h s).drawn = s.drawn := rfl

/-! ### `goto` -/

@[simp] theorem goto_cfg (st : RxState) (s : State) : (goto st s).cfg = s.cfg := rfl
@[simp] theorem goto_crc (st : RxState) (s : State) : (goto st s).crc = s.crc := rfl
@[simp] theorem goto_enc (st : RxState) (s : State) : (goto st s).enc = s.enc := rfl
@[simp] theorem goto_dec_state (st : RxState) (s : State) :
    (goto st s).dec.state = st := rfl
@[simp] theorem goto_dec_hdrCnt (st : RxState) (s : State) :
    (goto st s).dec.hdrCnt = s.dec.hdrCnt := rfl
@[simp] theorem goto_dec_ctrl (st : RxState) (s : State) :
    (goto st s).dec.ctrl = s.dec.ctrl := rfl
@[simp] theorem goto_dec_seq (st : RxState) (s : State) :
    (goto st s).dec.seq = s.dec.seq := rfl
@[simp] theorem goto_dec_len (st : RxState) (s : State) :
    (goto st s).dec.len = s.dec.len := rfl
@[simp] theorem goto_dec_cnt (st : RxState) (s : State) :
    (goto st s).dec.cnt = s.dec.cnt := rfl
@[simp] theorem goto_dec_buf (st : RxState) (s : State) :
    (goto st s).dec.buf = s.dec.buf := rfl
@[simp] theorem goto_dec_wireCrc (st : RxState) (s : State) :
    (goto st s).dec.wireCrc = s.dec.wireCrc := rfl
@[simp] theorem goto_tp (st : RxState) (s : State) : (goto st s).tp = s.tp := rfl
@[simp] theorem goto_io (st : RxState) (s : State) : (goto st s).io = s.io := rfl
@[simp] theorem goto_now (st : RxState) (s : State) : (goto st s).now = s.now := rfl
@[simp] theorem goto_drawn (st : RxState) (s : State) : (goto st s).drawn = s.drawn := rfl

/-! ### `setSlot` -/

@[simp] theorem setSlot_cfg (k : Nat) (v : Slot) (s : State) : (setSlot k v s).cfg = s.cfg := rfl
@[simp] theorem setSlot_crc (k : Nat) (v : Slot) (s : State) : (setSlot k v s).crc = s.crc := rfl
@[simp] theorem setSlot_enc (k : Nat) (v : Slot) (s : State) : (setSlot k v s).enc = s.enc := rfl
@[simp] theorem setSlot_dec (k : Nat) (v : Slot) (s : State) : (setSlot k v s).dec = s.dec := rfl
@[simp] theorem setSlot_tp_snMin (k : Nat) (v : Slot) (s : State) :
    (setSlot k v s).tp.snMin = s.tp.snMin := rfl
@[simp] theorem setSlot_tp_snMax (k : Nat) (v : Slot) (s : State) :
    (setSlot k v s).tp.snMax = s.tp.snMax := rfl
@[simp] theorem setSlot_tp_rn (k : Nat) (v : Slot) (s : State) :
    (setSlot k v s).tp.rn = s.tp.rn := rfl
@[simp] theorem setSlot_tp_fifoHead (k : Nat) (v : Slot) (s : State) :
    (setSlot k v s).tp.fifoHead = s.tp.fifoHead := rfl
@[simp] theorem setSlot_tp_fifoTail (k : Nat) (v : Slot) (s : State) :
    (setSlot k v s).tp.fifoTail = s.tp.fifoTail := rfl
@[simp] theorem setSlot_tp_nFrames (k : Nat) (v : Slot) (s : State) :
    (setSlot k v s).tp.nFrames = s.tp.nFrames := rfl
@[simp] theorem setSlot_tp_ringTail (k : Nat) (v : Slot) (s : State) :
    (setSlot k v s).tp.ringTail = s.tp.ringTail := rfl
@[simp] theorem setSlot_tp_ringUsed (k : Nat) (v : Slot) (s : State) :
    (setSlot k v s).tp.ringUsed = s.tp.ringUsed := rfl
@[simp] theorem setSlot_tp_slots (k : Nat) (v : Slot) (s : State) :
    (setSlot k v s).tp.slots = s.tp.slots.write k v := rfl
@[simp] theorem setSlot_tp_ring (k : Nat) (v : Slot) (s : State) :
    (setSlot k v s).tp.ring = s.tp.ring := rfl
@[simp] theorem setSlot_tp_lastRxAny (k : Nat) (v : Slot) (s : State) :
    (setSlot k v s).tp.lastRxAny = s.tp.lastRxAny := rfl
@[simp] theorem setSlot_tp_lastRxFrame (k : Nat) (v : Slot) (s : State) :
    (setSlot k v s).tp.lastRxFrame = s.tp.lastRxFrame := rfl
@[simp] theorem setSlot_tp_lastAckTx (k : Nat) (v : Slot) (s : State) :
    (setSlot k v s).tp.lastAckTx = s.tp.lastAckTx := rfl
@[simp] theorem setSlot_tp_remoteConnected (k : Nat) (v : Slot) (s : State) :
    (setSlot k v s).tp.remoteConnected = s.tp.remoteConnected := rfl
@[simp] theorem setSlot_tp_remoteActive (k : Nat) (v : Slot) (s : State) :
    (setSlot k v s).tp.remoteActive = s.tp.remoteActive := rfl
@[simp] theorem setSlot_tp_droppedFrames (k : Nat) (v : Slot) (s : State) :
    (setSlot k v s).tp.droppedFrames = s.tp.droppedFrames := rfl
@[simp] theorem setSlot_tp_spuriousAcks (k : Nat) (v : Slot) (s : State) :
    (setSlot k v s).tp.spuriousAcks = s.tp.spuriousAcks := rfl
@[simp] theorem setSlot_tp_seqMismatchDrops (k : Nat) (v : Slot) (s : State) :
    (setSlot k v s).tp.seqMismatchDrops = s.tp.seqMismatchDrops := rfl
@[simp] theorem setSlot_tp_resetsReceived (k : Nat) (v : Slot) (s : State) :
    (setSlot k v s).tp.resetsReceived = s.tp.resetsReceived := rfl
@[simp] theorem setSlot_io (k : Nat) (v : Slot) (s : State) : (setSlot k v s).io = s.io := rfl
@[simp] theorem setSlot_now (k : Nat) (v : Slot) (s : State) : (setSlot k v s).now = s.now := rfl
@[simp] theorem setSlot_drawn (k : Nat) (v : Slot) (s : State) : (setSlot k v s).drawn = s.drawn := rfl

/-! ### `linkFlags` -/

@[simp] theorem linkFlags_cfg (s : State) : (linkFlags s).cfg = s.cfg := rfl
@[simp] theorem linkFlags_crc (s : State) : (linkFlags s).crc = s.crc := rfl
@[simp] theorem linkFlags_enc (s : State) : (linkFlags s).enc = s.enc := rfl
@[simp] theorem linkFlags_dec (s : State) : (linkFlags s).dec = s.dec := rfl
@[simp] theorem linkFlags_tp_snMin (s : State) :
    (linkFlags s).tp.snMin = s.tp.snMin := rfl
@[simp] theorem linkFlags_tp_snMax (s : State) :
    (linkFlags s).tp.snMax = s.tp.snMax := rfl
@[simp] theorem linkFlags_tp_rn (s : State) :
    (linkFlags s).tp.rn = s.tp.rn := rfl
@[simp] theorem linkFlags_tp_fifoHead (s : State) :
    (linkFlags s).tp.fifoHead = s.tp.fifoHead := rfl
@[simp] theorem linkFlags_tp_fifoTail (s : State) :
    (linkFlags s).tp.fifoTail = s.tp.fifoTail := rfl
@[simp] theorem linkFlags_tp_nFrames (s : State) :
    (linkFlags s).tp.nFrames = s.tp.nFrames := rfl
@[simp] theorem linkFlags_tp_ringTail (s : State) :
    (linkFlags s).tp.ringTail = s.tp.ringTail := rfl
@[simp] theorem linkFlags_tp_ringUsed (s : State) :
    (linkFlags s).tp.ringUsed = s.tp.ringUsed := rfl
@[simp] theorem linkFlags_tp_slots (s : State) :
    (linkFlags s).tp.slots = s.tp.slots := rfl
@[simp] theorem linkFlags_tp_ring (s : State) :
    (linkFlags s).tp.ring = s.tp.ring := rfl
@[simp] theorem linkFlags_tp_lastRxAny (s : State) :
    (linkFlags s).tp.lastRxAny = s.tp.lastRxAny := rfl
@[simp] theorem linkFlags_tp_lastRxFrame (s : State) :
    (linkFlags s).tp.lastRxFrame = s.tp.lastRxFrame := rfl
@[simp] theorem linkFlags_tp_lastAckTx (s : State) :
    (linkFlags s).tp.lastAckTx = s.tp.lastAckTx := rfl
@[simp] theorem linkFlags_tp_remoteConnected (s : State) :
    (linkFlags s).tp.remoteConnected = decide (elapsed s s.tp.lastRxAny < s.cfg.idleMs.toNat) := rfl
@[simp] theorem linkFlags_tp_remoteActive (s : State) :
    (linkFlags s).tp.remoteActive = decide (elapsed s s.tp.lastRxFrame < s.cfg.idleMs.toNat) := rfl
@[simp] theorem linkFlags_tp_droppedFrames (s : State) :
    (linkFlags s).tp.droppedFrames = s.tp.droppedFrames := rfl
@[simp] theorem linkFlags_tp_spuriousAcks (s : State) :
    (linkFlags s).tp.spuriousAcks = s.tp.spuriousAcks := rfl
@[simp] theorem linkFlags_tp_seqMismatchDrops (s : State) :
    (linkFlags s).tp.seqMismatchDrops = s.tp.seqMismatchDrops := rfl
@[simp] theorem linkFlags_tp_resetsReceived (s : State) :
    (linkFlags s).tp.resetsReceived = s.tp.resetsReceived := rfl
@[simp] theorem linkFlags_io (s : State) : (linkFlags s).io = s.io := rfl
@[simp] theorem linkFlags_now (s : State) : (linkFlags s).now = s.now := rfl
@[simp] theorem linkFlags_drawn (s : State) : (linkFlags s).drawn = s.drawn := rfl

/-! ### `fifoPush` -/

@[simp] theorem fifoPush_cfg (id : Ident) (payload : List Byte) (s : State) : (fifoPush id payload s).cfg = s.cfg := rfl
@[simp] theorem fifoPush_crc (id : Ident) (payload : List Byte) (s : State) : (fifoPush id payload s).crc = s.crc := rfl
@[simp] theorem fifoPush_enc (id : Ident) (payload : List Byte) (s : State) : (fifoPush id payload s).enc = s.enc := rfl
@[simp] theorem fifoPush_dec (id : Ident) (payload : List Byte) (s : State) : (fifoPush id payload s).dec = s.dec := rfl
@[simp] theorem fifoPush_tp_snMin (id : Ident) (payload : List Byte) (s : State) :
    (fifoPush id payload s).tp.snMin = s.tp.snMin := rfl
@[simp] theorem fifoPush_tp_snMax (id : Ident) (payload : List Byte) (s : State) :
    (fifoPush id payload s).tp.snMax = s.tp.snMax := rfl
@[simp] theorem fifoPush_tp_rn (id : Ident) (payload : List Byte) (s : State) :
    (fifoPush id payload s).tp.rn = s.tp.rn := rfl
@[simp] theorem fifoPush_tp_fifoHead (id : Ident) (payload : List Byte) (s : State) :
    (fifoPush id payload s).tp.fifoHead = s.tp.fifoHead := rfl
@[simp] theorem fifoPush_tp_fifoTail (id : Ident) (payload : List Byte) (s : State) :
    (fifoPush id payload s).tp.fifoTail = fifoIndex s.cfg (s.tp.fifoTail + 1) := rfl
@[simp] theorem fifoPush_tp_nFrames (id : Ident) (payload : List Byte) (s : State) :
    (fifoPush id payload s).tp.nFrames = countAdd (s.cfg.fifoBits + 1) s.tp.nFrames 1 := rfl
@[simp] theorem fifoPush_tp_ringTail (id : Ident) (payload : List Byte) (s : State) :
    (fifoPush id payload s).tp.ringTail = ringIndex s.cfg (s.tp.ringTail + payload.length) := rfl
@[simp] theorem fifoPush_tp_ringUsed (id : Ident) (payload : List Byte) (s : State) :
    (fifoPush id payload s).tp.ringUsed = countAdd (s.cfg.ringBits + 1) s.tp.ringUsed payload.length := rfl
@[simp] theorem fifoPush_tp_slots (id : Ident) (payload : List Byte) (s : State) :
    (fifoPush id payload s).tp.slots = s.tp.slots.write s.tp.fifoTail
      { slotAt s.tp.fifoTail s with id := id, len := BitVec.ofNat 8 payload.length, off := s.tp.ringTail } := rfl
@[simp] theorem fifoPush_tp_ring (id : Ident) (payload : List Byte) (s : State) :
    (fifoPush id payload s).tp.ring = ringWrite s.cfg s.tp.ring s.tp.ringTail payload := rfl
@[simp] theorem fifoPush_tp_lastRxAny (id : Ident) (payload : List Byte) (s : State) :
    (fifoPush id payload s).tp.lastRxAny = s.tp.lastRxAny := rfl
@[simp] theorem fifoPush_tp_lastRxFrame (id : Ident) (payload : List Byte) (s : State) :
    (fifoPush id payload s).tp.lastRxFrame = s.tp.lastRxFrame := rfl
@[simp] theorem fifoPush_tp_lastAckTx (id : Ident) (payload : List Byte) (s : State) :
    (fifoPush id payload s).tp.lastAckTx = s.tp.lastAckTx := rfl
@[simp] theorem fifoPush_tp_remoteConnected (id : Ident) (payload : List Byte) (s : State) :
    (fifoPush id payload s).tp.remoteConnected = s.tp.remoteConnected := rfl
@[simp] theorem fifoPush_tp_remoteActive (id : Ident) (payload : List Byte) (s : State) :
    (fifoPush id payload s).tp.remoteActive = s.tp.remoteActive := rfl
@[simp] theorem fifoPush_tp_droppedFrames (id : Ident) (payload : List Byte) (s : State) :
    (fifoPush id payload s).tp.droppedFrames = s.tp.droppedFrames := rfl
@[simp] theorem fifoPush_tp_spuriousAcks (id : Ident) (payload : List Byte) (s : State) :
    (fifoPush id payload s).tp.spuriousAcks = s.tp.spuriousAcks := rfl
@[simp] theorem fifoPush_tp_seqMismatchDrops (id : Ident) (payload : List Byte) (s : State) :
    (fifoPush id payload s).tp.seqMismatchDrops = s.tp.seqMismatchDrops := rfl
@[simp] theorem fifoPush_tp_resetsReceived (id : Ident) (payload : List Byte) (s : State) :
    (fifoPush id payload s).tp.resetsReceived = s.tp.resetsReceived := rfl
@[simp] theorem fifoPush_io (id : Ident) (payload : List Byte) (s : State) : (fifoPush id payload s).io = s.io := rfl
@[simp] theorem fifoPush_now (id : Ident) (payload : List Byte) (s : State) : (fifoPush id payload s).now = s.now := rfl
@[simp] theorem fifoPush_drawn (id : Ident) (payload : List Byte) (s : State) : (fifoPush id payload s).drawn = s.drawn := rfl

/-! ### `fifoPop` -/

@[simp] theorem fifoPop_cfg (s : State) : (fifoPop s).cfg = s.cfg := rfl
@[simp] theorem fifoPop_crc (s : State) : (fifoPop s).crc = s.crc := rfl
@[simp] theorem fifoPop_enc (s : State) : (fifoPop s).enc = s.enc := rfl
@[simp] theorem fifoPop_dec (s : State) : (fifoPop s).dec = s.dec := rfl
@[simp] theorem fifoPop_tp_snMin (s : State) :
    (fifoPop s).tp.snMin = s.tp.snMin := rfl
@[simp] theorem fifoPop_tp_snMax (s : State) :
    (fifoPop s).tp.snMax = s.tp.snMax := rfl
@[simp] theorem fifoPop_tp_rn (s : State) :
    (fifoPop s).tp.rn = s.tp.rn := rfl
@[simp] theorem fifoPop_tp_fifoHead (s : State) :
    (fifoPop s).tp.fifoHead = fifoIndex s.cfg (s.tp.fifoHead + 1) := rfl
@[simp] theorem fifoPop_tp_fifoTail (s : State) :
    (fifoPop s).tp.fifoTail = s.tp.fifoTail := rfl
@[simp] theorem fifoPop_tp_nFrames (s : State) :
    (fifoPop s).tp.nFrames = countSub (s.cfg.fifoBits + 1) s.tp.nFrames 1 := rfl
@[simp] theorem fifoPop_tp_ringTail (s : State) :
    (fifoPop s).tp.ringTail = s.tp.ringTail := rfl
@[simp] theorem fifoPop_tp_ringUsed (s : State) :
    (fifoPop s).tp.ringUsed = countSub (s.cfg.ringBits + 1) s.tp.ringUsed (slotAt s.tp.fifoHead s).len.toNat := rfl
@[simp] theorem fifoPop_tp_slots (s : State) :
    (fifoPop s).tp.slots = s.tp.slots := rfl
@[simp] theorem fifoPop_tp_ring (s : State) :
    (fifoPop s).tp.ring = s.tp.ring := rfl
@[simp] theorem fifoPop_tp_lastRxAny (s : State) :
    (fifoPop s).tp.lastRxAny = s.tp.lastRxAny := rfl
@[simp] theorem fifoPop_tp_lastRxFrame (s : State) :
    (fifoPop s).tp.lastRxFrame = s.tp.lastRxFrame := rfl
@[simp] theorem fifoPop_tp_lastAckTx (s : State) :
    (fifoPop s).tp.lastAckTx = s.tp.lastAckTx := rfl
@[simp] theorem fifoPop_tp_remoteConnected (s : State) :
    (fifoPop s).tp.remoteConnected = s.tp.remoteConnected := rfl
@[simp] theorem fifoPop_tp_remoteActive (s : State) :
    (fifoPop s).tp.remoteActive = s.tp.remoteActive := rfl
@[simp] theorem fifoPop_tp_droppedFrames (s : State) :
    (fifoPop s).tp.droppedFrames = s.tp.droppedFrames := rfl
@[simp] theorem fifoPop_tp_spuriousAcks (s : State) :
    (fifoPop s).tp.spuriousAcks = s.tp.spuriousAcks := rfl
@[simp] theorem fifoPop_tp_seqMismatchDrops (s : State) :
    (fifoPop s).tp.seqMismatchDrops = s.tp.seqMismatchDrops := rfl
@[simp] theorem fifoPop_tp_resetsReceived (s : State) :
    (fifoPop s).tp.resetsReceived = s.tp.resetsReceived := rfl
@[simp] theorem fifoPop_io (s : State) : (fifoPop s).io = s.io := rfl
@[simp] theorem fifoPop_now (s : State) : (fifoPop s).now = s.now := rfl
@[simp] theorem fifoPop_drawn (s : State) : (fifoPop s).drawn = s.drawn := rfl

/-! ### `tpClear` -/

@[simp] theorem tpClear_cfg (s : State) : (tpClear s).cfg = s.cfg := rfl
@[simp] theorem tpClear_crc (s : State) : (tpClear s).crc = s.crc := rfl
@[simp] theorem tpClear_enc (s : State) : (tpClear s).enc = s.enc := rfl
@[simp] theorem tpClear_dec (s : State) : (tpClear s).dec = s.dec := rfl
@[simp] theorem tpClear_tp_snMin (s : State) :
    (tpClear s).tp.snMin = 0#8 := rfl
@[simp] theorem tpClear_tp_snMax (s : State) :
    (tpClear s).tp.snMax = 0#8 := rfl
@[simp] theorem tpClear_tp_rn (s : State) :
    (tpClear s).tp.rn = 0#8 := rfl
@[simp] theorem tpClear_tp_fifoHead (s : State) :
    (tpClear s).tp.fifoHead = 0 := rfl
@[simp] theorem tpClear_tp_fifoTail (s : State) :
    (tpClear s).tp.fifoTail = 0 := rfl
@[simp] theorem tpClear_tp_nFrames (s : State) :
    (tpClear s).tp.nFrames = 0 := rfl
@[simp] theorem tpClear_tp_ringTail (s : State) :
    (tpClear s).tp.ringTail = 0 := rfl
@[simp] theorem tpClear_tp_ringUsed (s : State) :
    (tpClear s).tp.ringUsed = 0 := rfl
@[simp] theorem tpClear_tp_slots (s : State) :
    (tpClear s).tp.slots = s.tp.slots := rfl
@[simp] theorem tpClear_tp_ring (s : State) :
    (tpClear s).tp.ring = s.tp.ring := rfl
@[simp] theorem tpClear_tp_lastRxAny (s : State) :
    (tpClear s).tp.lastRxAny = s.now := rfl
@[simp] theorem tpClear_tp_lastRxFrame (s : State) :
    (tpClear s).tp.lastRxFrame = s.now := rfl
@[simp] theorem tpClear_tp_lastAckTx (s : State) :
    (tpClear s).tp.lastAckTx = s.now := rfl
@[simp] theorem tpClear_tp_remoteConnected (s : State) :
    (tpClear s).tp.remoteConnected = s.tp.remoteConnected := rfl
@[simp] theorem tpClear_tp_remoteActive (s : State) :
    (tpClear s).tp.remoteActive = s.tp.remoteActive := rfl
@[simp] theorem tpClear_tp_droppedFrames (s : State) :
    (tpClear s).tp.droppedFrames = s.tp.droppedFrames := rfl
@[simp] theorem tpClear_tp_spuriousAcks (s : State) :
    (tpClear s).tp.spuriousAcks = s.tp.spuriousAcks := rfl
@[simp] theorem tpClear_tp_seqMismatchDrops (s : State) :
    (tpClear s).tp.seqMismatchDrops = s.tp.seqMismatchDrops := rfl
@[simp] theorem tpClear_tp_resetsReceived (s : State) :
    (tpClear s).tp.resetsReceived = s.tp.resetsReceived := rfl
@[simp] theorem tpClear_io (s : State) : (tpClear s).io = s.io := rfl
@[simp] theorem tpClear_now (s : State) : (tpClear s).now = s.now := rfl
@[simp] theorem tpClear_drawn (s : State) : (tpClear s).drawn = s.drawn := rfl

/-! ### `accept` -/

@[simp] theorem accept_cfg (r : Request) (rest : List Request) (s : State) : (accept r rest s).cfg = s.cfg := rfl
@[simp] theorem accept_crc (r : Request) (rest : List Request) (s : State) : (accept r rest s).crc = s.crc := rfl
@[simp] theorem accept_enc (r : Request) (rest : List Request) (s : State) : (accept r rest s).enc = s.enc := rfl
@[simp] theorem accept_dec (r : Request) (rest : List Request) (s : State) : (accept r rest s).dec = s.dec := rfl
@[simp] theorem accept_tp (r : Request) (rest : List Request) (s : State) : (accept r rest s).tp = s.tp := rfl
@[simp] theorem accept_io_timeMs (r : Request) (rest : List Request) (s : State) :
    (accept r rest s).io.timeMs = r.time := rfl
@[simp] theorem accept_io_txSpace (r : Request) (rest : List Request) (s : State) :
    (accept r rest s).io.txSpace = drainedSpace r.freed s := rfl
@[simp] theorem accept_io_txOut (r : Request) (rest : List Request) (s : State) :
    (accept r rest s).io.txOut = s.io.txOut := rfl
@[simp] theorem accept_io_txLost (r : Request) (rest : List Request) (s : State) :
    (accept r rest s).io.txLost = s.io.txLost := rfl
@[simp] theorem accept_io_appOut (r : Request) (rest : List Request) (s : State) :
    (accept r rest s).io.appOut = s.io.appOut := rfl
@[simp] theorem accept_io_ret (r : Request) (rest : List Request) (s : State) :
    (accept r rest s).io.ret = none := rfl
@[simp] theorem accept_io_trace (r : Request) (rest : List Request) (s : State) :
    (accept r rest s).io.trace = s.io.trace := rfl
@[simp] theorem accept_io_port (r : Request) (rest : List Request) (s : State) :
    (accept r rest s).io.port = rest := rfl
@[simp] theorem accept_now (r : Request) (rest : List Request) (s : State) : (accept r rest s).now = s.now := rfl
@[simp] theorem accept_drawn (r : Request) (rest : List Request) (s : State) : (accept r rest s).drawn = s.drawn := rfl

/-! ### `txByte` -/

@[simp] theorem txByte_cfg (b : Byte) (s : State) : (txByte b s).cfg = s.cfg := by
  unfold txByte; split <;> (try split) <;> rfl
@[simp] theorem txByte_crc (b : Byte) (s : State) : (txByte b s).crc = s.crc := by
  unfold txByte; split <;> (try split) <;> rfl
@[simp] theorem txByte_enc (b : Byte) (s : State) : (txByte b s).enc = s.enc := by
  unfold txByte; split <;> (try split) <;> rfl
@[simp] theorem txByte_dec (b : Byte) (s : State) : (txByte b s).dec = s.dec := by
  unfold txByte; split <;> (try split) <;> rfl
@[simp] theorem txByte_tp (b : Byte) (s : State) : (txByte b s).tp = s.tp := by
  unfold txByte; split <;> (try split) <;> rfl
@[simp] theorem txByte_now (b : Byte) (s : State) : (txByte b s).now = s.now := by
  unfold txByte; split <;> (try split) <;> rfl
@[simp] theorem txByte_drawn (b : Byte) (s : State) : (txByte b s).drawn = s.drawn := by
  unfold txByte; split <;> (try split) <;> rfl
@[simp] theorem txByte_io_timeMs (b : Byte) (s : State) : (txByte b s).io.timeMs = s.io.timeMs := by
  unfold txByte; split <;> (try split) <;> rfl
@[simp] theorem txByte_io_txOut (b : Byte) (s : State) : (txByte b s).io.txOut = s.io.txOut ++ [b] := by
  unfold txByte; split <;> (try split) <;> rfl
@[simp] theorem txByte_io_appOut (b : Byte) (s : State) : (txByte b s).io.appOut = s.io.appOut := by
  unfold txByte; split <;> (try split) <;> rfl
@[simp] theorem txByte_io_ret (b : Byte) (s : State) : (txByte b s).io.ret = s.io.ret := by
  unfold txByte; split <;> (try split) <;> rfl
@[simp] theorem txByte_io_trace (b : Byte) (s : State) : (txByte b s).io.trace = s.io.trace := by
  unfold txByte; split <;> (try split) <;> rfl
@[simp] theorem txByte_io_port (b : Byte) (s : State) : (txByte b s).io.port = s.io.port := by
  unfold txByte; split <;> (try split) <;> rfl

end Sys2Proof.Machine
end

