-- ==== Sys2Proof/Laws/Store.lean ====
section
/-! SUPPORT. The laws of the stores behind `RING`, `RXBUF` and the slot array: a read after a write, the canonical form
and the bounds every operation keeps, and that canonical stores that read alike are equal. -/

namespace Sys2Proof

theorem Config.fifoSlots_pos (c : Config) : 0 < c.fifoSlots := Nat.two_pow_pos _

theorem Config.ringSize_pos (c : Config) : 0 < c.ringSize := Nat.two_pow_pos _

end Sys2Proof

namespace Sys2Proof.Machine

section
variable {α : Type} [DecidableEq α] {d : α}

omit [DecidableEq α] in
/-- An index below every listed one reads as nothing written. -/
theorem storeRead_below {m : List (Nat × α)} {a : Nat} (h : ∀ c ∈ m, a < c.1) : storeRead d m a = d := by
  induction m with
  | nil => rfl
  | cons c m ih =>
    obtain ⟨k, v⟩ := c
    have hk : a < k := h (k, v) (by simp)
    simp only [storeRead, if_neg (Nat.ne_of_lt hk)]
    exact ih fun c hc => h c (by simp [hc])

theorem storeWf_cons {k : Nat} {v : α} {m : List (Nat × α)} :
    storeWf d ((k, v) :: m) = true ↔ v ≠ d ∧ (∀ c ∈ m, k < c.1) ∧ storeWf d m = true := by
  simp [storeWf, List.all_eq_true, and_assoc]

/-- A write leaves every other index alone, in any store. -/
theorem storeRead_write_ne (m : List (Nat × α)) {a b : Nat} (v : α) (h : b ≠ a) :
    storeRead d (storeWrite d m a v) b = storeRead d m b := by
  induction m with
  | nil => simp only [storeWrite]; split <;> simp [storeRead, h]
  | cons c m ih =>
    obtain ⟨k, w⟩ := c
    simp only [storeWrite]
    split
    · split <;> simp [storeRead, h]
    · split
      · next hk => subst hk; split <;> simp [storeRead, h]
      · simp only [storeRead, ih]

/-- A read after a write to the same index gives the value written. -/
theorem storeRead_write_eq {m : List (Nat × α)} (hm : storeWf d m = true) (a : Nat) (v : α) :
    storeRead d (storeWrite d m a v) a = v := by
  induction m with
  | nil => simp only [storeWrite]; split <;> simp_all [storeRead]
  | cons c m ih =>
    obtain ⟨k, w⟩ := c
    obtain ⟨-, hlow, hm'⟩ := storeWf_cons.1 hm
    simp only [storeWrite]
    split
    · next hak =>
      split
      · next hv =>
        rw [hv]
        exact storeRead_below fun c hc => by
          rcases List.mem_cons.1 hc with rfl | hc
          · exact hak
          · exact Nat.lt_trans hak (hlow c hc)
      · simp [storeRead]
    · split
      · next hk =>
        subst hk
        split
        · next hv => rw [hv]; exact storeRead_below hlow
        · simp [storeRead]
      · next h1 h2 => simp only [storeRead, if_neg h2]; exact ih hm'

/-- Every entry of a store after a write is an old one or the one written. -/
theorem mem_storeWrite {m : List (Nat × α)} {a : Nat} {v : α} {c : Nat × α} (h : c ∈ storeWrite d m a v) :
    c ∈ m ∨ c = (a, v) := by
  induction m with
  | nil => simp only [storeWrite] at h; split at h <;> simp_all
  | cons x m ih =>
    obtain ⟨k, w⟩ := x
    simp only [storeWrite] at h
    split at h
    · split at h
      · exact .inl h
      · rcases List.mem_cons.1 h with h | h
        · exact .inr h
        · exact .inl h
    · split at h
      · split at h
        · exact .inl (List.mem_cons_of_mem _ h)
        · rcases List.mem_cons.1 h with h | h
          · exact .inr h
          · exact .inl (List.mem_cons_of_mem _ h)
      · rcases List.mem_cons.1 h with h | h
        · exact .inl (by simp [h])
        · rcases ih h with h | h
          · exact .inl (List.mem_cons_of_mem _ h)
          · exact .inr h

/-- A write keeps the canonical form. -/
theorem storeWf_write {m : List (Nat × α)} (hm : storeWf d m = true) (a : Nat) (v : α) :
    storeWf d (storeWrite d m a v) = true := by
  induction m with
  | nil => simp only [storeWrite]; split <;> simp_all [storeWf]
  | cons c m ih =>
    obtain ⟨k, w⟩ := c
    obtain ⟨hw, hlow, hm'⟩ := storeWf_cons.1 hm
    simp only [storeWrite]
    split
    · next hak =>
      split
      · exact hm
      · next hv =>
        refine storeWf_cons.2 ⟨hv, fun c hc => ?_, hm⟩
        rcases List.mem_cons.1 hc with rfl | hc
        · exact hak
        · exact Nat.lt_trans hak (hlow c hc)
    · split
      · next hk =>
        subst hk
        split
        · exact hm'
        · next hv => exact storeWf_cons.2 ⟨hv, hlow, hm'⟩
      · next h1 h2 =>
        refine storeWf_cons.2 ⟨hw, fun c hc => ?_, ih hm'⟩
        rcases mem_storeWrite hc with hc | rfl
        · exact hlow c hc
        · simp only; omega

/-- A write inside the bound keeps every entry inside it. -/
theorem storeInside_write {m : List (Nat × α)} {n a : Nat} (hm : storeInside n m = true) (ha : a < n) (v : α) :
    storeInside n (storeWrite d m a v) = true := by
  simp only [storeInside, List.all_eq_true, decide_eq_true_eq] at hm ⊢
  intro c hc
  rcases mem_storeWrite hc with hc | rfl
  · exact hm c hc
  · exact ha

theorem storeWf_canon (n : Nat) (m : List (Nat × α)) : storeWf d (storeCanon d n m) = true := by
  induction m with
  | nil => rfl
  | cons c m ih =>
    obtain ⟨k, v⟩ := c
    simp only [storeCanon]
    split
    · exact storeWf_write ih k v
    · exact ih

theorem storeInside_canon (n : Nat) (m : List (Nat × α)) : storeInside n (storeCanon d n m) = true := by
  induction m with
  | nil => rfl
  | cons c m ih =>
    obtain ⟨k, v⟩ := c
    simp only [storeCanon]
    split
    · next hk => exact storeInside_write ih hk v
    · exact ih

/-- A write below every listed index puts the entry in front. -/
theorem storeWrite_front {m : List (Nat × α)} {a : Nat} {v : α} (h : ∀ c ∈ m, a < c.1) (hv : v ≠ d) :
    storeWrite d m a v = (a, v) :: m := by
  cases m with
  | nil => simp [storeWrite, hv]
  | cons c m =>
    obtain ⟨k, w⟩ := c
    have hk : a < k := h (k, w) (by simp)
    simp [storeWrite, hk, hv]

/-- Every canonical store inside the bound is the canonical store of itself: the free contents a reset leaves may be
any. -/
theorem storeCanon_self {m : List (Nat × α)} {n : Nat} (hm : storeWf d m = true) (hn : storeInside n m = true) :
    storeCanon d n m = m := by
  induction m with
  | nil => rfl
  | cons c m ih =>
    obtain ⟨k, v⟩ := c
    obtain ⟨hv, hlow, hm'⟩ := storeWf_cons.1 hm
    simp only [storeInside, List.all_cons, Bool.and_eq_true, decide_eq_true_eq] at hn
    simp only [storeCanon, if_pos hn.1, ih hm' hn.2]
    exact storeWrite_front hlow hv

/-- Canonical stores that read alike are equal data. -/
theorem store_ext {m m' : List (Nat × α)} (hm : storeWf d m = true) (hm' : storeWf d m' = true)
    (h : ∀ a, storeRead d m a = storeRead d m' a) : m = m' := by
  induction m generalizing m' with
  | nil =>
    cases m' with
    | nil => rfl
    | cons c m' =>
      obtain ⟨k, v⟩ := c
      have := h k
      simp only [storeRead] at this
      exact absurd this.symm (storeWf_cons.1 hm').1
  | cons c m ih =>
    obtain ⟨k, v⟩ := c
    obtain ⟨hv, hlow, hwf⟩ := storeWf_cons.1 hm
    cases m' with
    | nil =>
      have := h k
      simp only [storeRead] at this
      exact absurd this hv
    | cons c' m' =>
      obtain ⟨k', v'⟩ := c'
      obtain ⟨hv', hlow', hwf'⟩ := storeWf_cons.1 hm'
      have hkk : k = k' := by
        rcases Nat.lt_trichotomy k k' with hlt | heq | hgt
        · have := h k
          simp only [storeRead, if_true, if_neg (Nat.ne_of_lt hlt)] at this
          exact absurd (this.trans (storeRead_below fun c hc => Nat.lt_trans hlt (hlow' c hc))) hv
        · exact heq
        · have := h k'
          simp only [storeRead, if_true, if_neg (Nat.ne_of_lt hgt)] at this
          exact absurd (this.symm.trans (storeRead_below fun c hc => Nat.lt_trans hgt (hlow c hc))) hv'
      subst hkk
      have hvv : v = v' := by simpa [storeRead] using h k
      subst hvv
      congr 1
      refine ih hwf hwf' fun a => ?_
      by_cases ha : a = k
      · subst ha
        rw [storeRead_below hlow, storeRead_below hlow']
      · simpa [storeRead, ha] using h a

end

/-! ### The byte memories and the slot array -/

theorem Memory.read_write_eq {m : Memory} (hm : m.wf = true) (a : Nat) (v : Byte) : (m.write a v).read a = v :=
  storeRead_write_eq hm a v

theorem Memory.read_write_ne (m : Memory) {a b : Nat} (v : Byte) (h : b ≠ a) : (m.write a v).read b = m.read b :=
  storeRead_write_ne m v h

theorem Memory.wf_write {m : Memory} (hm : m.wf = true) (a : Nat) (v : Byte) : (m.write a v).wf = true :=
  storeWf_write hm a v

theorem Memory.inside_write {m : Memory} {n a : Nat} (hm : storeInside n m = true) (ha : a < n) (v : Byte) :
    storeInside n (m.write a v) = true :=
  storeInside_write hm ha v

theorem Memory.ext_read {m m' : Memory} (hm : m.wf = true) (hm' : m'.wf = true) (h : ∀ a, m.read a = m'.read a) :
    m = m' :=
  store_ext hm hm' h

theorem Slots.read_write_eq {m : Slots} (hm : m.wf = true) (k : Nat) (v : Slot) : (m.write k v).read k = v :=
  storeRead_write_eq hm k v

theorem Slots.read_write_ne (m : Slots) {j k : Nat} (v : Slot) (h : j ≠ k) : (m.write k v).read j = m.read j :=
  storeRead_write_ne m v h

theorem Slots.wf_write {m : Slots} (hm : m.wf = true) (k : Nat) (v : Slot) : (m.write k v).wf = true :=
  storeWf_write hm k v

theorem Slots.inside_write {m : Slots} {n k : Nat} (hm : storeInside n m = true) (hk : k < n) (v : Slot) :
    storeInside n (m.write k v) = true :=
  storeInside_write hm hk v

/-! ### Masked indices -/

/-- `and FIFO_MASK` is reduction modulo the power-of-two capacity. -/
theorem fifoIndex_eq_mod (c : Config) (i : Nat) : fifoIndex c i = i % c.fifoSlots := by
  simp [fifoIndex, Config.fifoMask, Config.fifoSlots, Nat.and_two_pow_sub_one_eq_mod]

/-- `and RING_MASK` is reduction modulo the power-of-two capacity. -/
theorem ringIndex_eq_mod (c : Config) (i : Nat) : ringIndex c i = i % c.ringSize := by
  simp [ringIndex, Config.ringMask, Config.ringSize, Nat.and_two_pow_sub_one_eq_mod]

theorem fifoIndex_lt (c : Config) (i : Nat) : fifoIndex c i < c.fifoSlots := by
  rw [fifoIndex_eq_mod]; exact Nat.mod_lt _ c.fifoSlots_pos

theorem ringIndex_lt (c : Config) (i : Nat) : ringIndex c i < c.ringSize := by
  rw [ringIndex_eq_mod]; exact Nat.mod_lt _ c.ringSize_pos

/-- Two different distances below the capacity are two different slots. -/
theorem fifoIndex_ne (c : Config) {h i j : Nat} (hij : i ≠ j) (hi : i < c.fifoSlots) (hj : j < c.fifoSlots) :
    fifoIndex c (h + i) ≠ fifoIndex c (h + j) := by
  rw [fifoIndex_eq_mod, fifoIndex_eq_mod]
  intro e
  have h1 : (h + i) ≡ (h + j) [MOD c.fifoSlots] := e
  have h2 : i ≡ j [MOD c.fifoSlots] := Nat.ModEq.add_left_cancel' h h1
  exact hij (by simpa [Nat.ModEq, Nat.mod_eq_of_lt hi, Nat.mod_eq_of_lt hj] using h2)

/-- A ring write keeps the canonical form and the bounds. -/
theorem ringWrite_wf (c : Config) {m : Memory} (pos : Nat) (bytes : List Byte) (hm : m.wf = true) :
    (ringWrite c m pos bytes).wf = true := by
  induction bytes generalizing m pos with
  | nil => exact hm
  | cons b bytes ih => exact ih (pos + 1) (Memory.wf_write hm _ _)

theorem ringWrite_inside (c : Config) {m : Memory} (pos : Nat) (bytes : List Byte)
    (hm : storeInside c.ringSize m = true) : storeInside c.ringSize (ringWrite c m pos bytes) = true := by
  induction bytes generalizing m pos with
  | nil => exact hm
  | cons b bytes ih => exact ih (pos + 1) (Memory.inside_write hm (ringIndex_lt c pos) _)

/-- A ring write leaves every index alone that none of its bytes goes to. -/
theorem ringWrite_read_other (c : Config) {m : Memory} (pos : Nat) (bytes : List Byte) {a : Nat}
    (h : ∀ i, i < bytes.length → a ≠ ringIndex c (pos + i)) : (ringWrite c m pos bytes).read a = m.read a := by
  induction bytes generalizing m pos with
  | nil => rfl
  | cons b bytes ih =>
    rw [ringWrite, ih (pos + 1) fun i hi => by
      have := h (i + 1) (by simpa using hi)
      rwa [Nat.add_assoc, Nat.add_comm 1 i]]
    exact Memory.read_write_ne m b (h 0 (by simp))

end Sys2Proof.Machine
end

