-- ==== Sys2Proof/Laws/Encoder.lean ====
section
/-! SUPPORT. What emitting does: the host is handed bytes and nothing else of the state changes but ENC's own two
leftovers (41_encoder.md rules R96, R102), and the bytes of a frame are its wire form. -/

namespace Sys2Proof.Machine

/-! ### Handing over bytes -/

/-- Set ENC's two leftovers. -/
def setEnc (v : Word) (c : TxCountdown) (s : State) : State := { s with crc.tx := v, enc.hdrCnt := c }

@[simp] theorem setEnc_setEnc (v v' : Word) (c c' : TxCountdown) (s : State) :
    setEnc v c (setEnc v' c' s) = setEnc v c s := rfl

@[simp] theorem setEnc_self (s : State) : setEnc s.crc.tx s.enc.hdrCnt s = s := rfl

@[simp] theorem setEnc_crc_tx (v : Word) (c : TxCountdown) (s : State) : (setEnc v c s).crc.tx = v := rfl

@[simp] theorem setEnc_enc_hdrCnt (v : Word) (c : TxCountdown) (s : State) : (setEnc v c s).enc.hdrCnt = c := rfl

theorem txByte_setEnc (b : Byte) (s : State) (v : Word) (c : TxCountdown) :
    txByte b (setEnc v c s) = setEnc v c (txByte b s) := by
  unfold txByte
  have h : (setEnc v c s).cfg = s.cfg := rfl
  rw [h]
  split
  · rfl
  · have h : (setEnc v c s).io = s.io := rfl
    rw [h]
    split <;> rfl

@[simp] theorem hostTakes_nil (s : State) : hostTakes [] s = s := rfl

@[simp] theorem hostTakes_cons (b : Byte) (bs : List Byte) (s : State) :
    hostTakes (b :: bs) s = hostTakes bs (txByte b s) := rfl

theorem hostTakes_append (l l' : List Byte) (s : State) : hostTakes (l ++ l') s = hostTakes l' (hostTakes l s) :=
  List.foldl_append

/-- Handing over bytes neither reads nor writes ENC's leftovers. -/
theorem hostTakes_setEnc (l : List Byte) (s : State) (v : Word) (c : TxCountdown) :
    hostTakes l (setEnc v c s) = setEnc v c (hostTakes l s) := by
  induction l generalizing s with
  | nil => rfl
  | cons b l ih => rw [hostTakes_cons, txByte_setEnc, ih]; rfl

@[simp] theorem hostTakes_cfg (l : List Byte) (s : State) : (hostTakes l s).cfg = s.cfg := by
  induction l generalizing s with
  | nil => rfl
  | cons b l ih => rw [hostTakes_cons, ih, txByte_cfg]

@[simp] theorem hostTakes_crc (l : List Byte) (s : State) : (hostTakes l s).crc = s.crc := by
  induction l generalizing s with
  | nil => rfl
  | cons b l ih => rw [hostTakes_cons, ih, txByte_crc]

@[simp] theorem hostTakes_enc (l : List Byte) (s : State) : (hostTakes l s).enc = s.enc := by
  induction l generalizing s with
  | nil => rfl
  | cons b l ih => rw [hostTakes_cons, ih, txByte_enc]

@[simp] theorem hostTakes_dec (l : List Byte) (s : State) : (hostTakes l s).dec = s.dec := by
  induction l generalizing s with
  | nil => rfl
  | cons b l ih => rw [hostTakes_cons, ih, txByte_dec]

@[simp] theorem hostTakes_tp (l : List Byte) (s : State) : (hostTakes l s).tp = s.tp := by
  induction l generalizing s with
  | nil => rfl
  | cons b l ih => rw [hostTakes_cons, ih, txByte_tp]

@[simp] theorem hostTakes_now (l : List Byte) (s : State) : (hostTakes l s).now = s.now := by
  induction l generalizing s with
  | nil => rfl
  | cons b l ih => rw [hostTakes_cons, ih, txByte_now]

@[simp] theorem hostTakes_drawn (l : List Byte) (s : State) : (hostTakes l s).drawn = s.drawn := by
  induction l generalizing s with
  | nil => rfl
  | cons b l ih => rw [hostTakes_cons, ih, txByte_drawn]

@[simp] theorem hostTakes_txOut (l : List Byte) (s : State) : (hostTakes l s).io.txOut = s.io.txOut ++ l := by
  induction l generalizing s with
  | nil => simp
  | cons b l ih => rw [hostTakes_cons, ih, txByte_io_txOut]; simp

@[simp] theorem hostTakes_timeMs (l : List Byte) (s : State) : (hostTakes l s).io.timeMs = s.io.timeMs := by
  induction l generalizing s with
  | nil => rfl
  | cons b l ih => rw [hostTakes_cons, ih, txByte_io_timeMs]

@[simp] theorem hostTakes_appOut (l : List Byte) (s : State) : (hostTakes l s).io.appOut = s.io.appOut := by
  induction l generalizing s with
  | nil => rfl
  | cons b l ih => rw [hostTakes_cons, ih, txByte_io_appOut]

@[simp] theorem hostTakes_ret (l : List Byte) (s : State) : (hostTakes l s).io.ret = s.io.ret := by
  induction l generalizing s with
  | nil => rfl
  | cons b l ih => rw [hostTakes_cons, ih, txByte_io_ret]

@[simp] theorem hostTakes_trace (l : List Byte) (s : State) : (hostTakes l s).io.trace = s.io.trace := by
  induction l generalizing s with
  | nil => rfl
  | cons b l ih => rw [hostTakes_cons, ih, txByte_io_trace]

@[simp] theorem hostTakes_port (l : List Byte) (s : State) : (hostTakes l s).io.port = s.io.port := by
  induction l generalizing s with
  | nil => rfl
  | cons b l ih => rw [hostTakes_cons, ih, txByte_io_port]

/-- An unbounded host buffer takes every byte (rule R191, `H0`). -/
theorem hostTakes_h0 {s : State} (h : s.cfg.hostTx = .h0) (l : List Byte) :
    hostTakes l s = { s with io.txOut := s.io.txOut ++ l } := by
  induction l generalizing s with
  | nil => simp
  | cons b l ih =>
    rw [hostTakes_cons, ih (by rw [txByte_cfg]; exact h)]
    simp [txByte, h]

/-- A finite host buffer loses one byte of space per byte taken, down to 0 (rule R191, `H1`). -/
theorem hostTakes_h1_space {s : State} (h : s.cfg.hostTx = .h1) (l : List Byte) :
    (hostTakes l s).io.txSpace.toNat = s.io.txSpace.toNat - l.length := by
  induction l generalizing s with
  | nil => simp
  | cons b l ih =>
    rw [hostTakes_cons, ih (by rw [txByte_cfg]; exact h)]
    unfold txByte
    rw [h]
    simp only [List.length_cons]
    split
    · next h0 => rw [h0]; simp
    · next h0 =>
      have : s.io.txSpace.toNat ≠ 0 := fun e => h0 (by
        apply BitVec.eq_of_toNat_eq; simpa using e)
      simp only [BitVec.toNat_sub, BitVec.toNat_ofNat]
      omega

/-! ### Emissions -/

theorem emitted_iff {l : List Byte} {s t : State} : Emitted l s t ↔ ∃ v c, t = setEnc v c (hostTakes l s) := by
  constructor
  · intro h; exact ⟨t.crc.tx, t.enc.hdrCnt, h⟩
  · rintro ⟨v, c, rfl⟩; rfl

theorem Emitted.refl (s : State) : Emitted [] s s := rfl

theorem Emitted.trans {l l' : List Byte} {s t u : State} (h : Emitted l s t) (h' : Emitted l' t u) :
    Emitted (l ++ l') s u := by
  obtain ⟨v, c, rfl⟩ := emitted_iff.1 h
  obtain ⟨v', c', rfl⟩ := emitted_iff.1 h'
  exact emitted_iff.2 ⟨v', c', by rw [hostTakes_append, hostTakes_setEnc, setEnc_setEnc]⟩

/-- Setting ENC's leftovers emits nothing. -/
theorem emitted_setEnc (v : Word) (c : TxCountdown) (s : State) : Emitted [] s (setEnc v c s) := rfl

theorem emitted_hostTakes (l : List Byte) (s : State) : Emitted l s (hostTakes l s) :=
  emitted_iff.2 ⟨(hostTakes l s).crc.tx, (hostTakes l s).enc.hdrCnt, rfl⟩

theorem emitted_txByte (b : Byte) (s : State) : Emitted [b] s (txByte b s) := emitted_hostTakes [b] s

section
variable {l : List Byte} {s t : State} (h : Emitted l s t)
include h

theorem Emitted.cfg : t.cfg = s.cfg := by rw [h]; simp
theorem Emitted.crc_rx : t.crc.rx = s.crc.rx := by rw [h]; simp
theorem Emitted.dec : t.dec = s.dec := by rw [h]; simp
theorem Emitted.tp : t.tp = s.tp := by rw [h]; simp
theorem Emitted.now : t.now = s.now := by rw [h]; simp
theorem Emitted.drawn : t.drawn = s.drawn := by rw [h]; simp
theorem Emitted.txOut : t.io.txOut = s.io.txOut ++ l := by rw [h]; simp
theorem Emitted.timeMs : t.io.timeMs = s.io.timeMs := by rw [h]; simp
theorem Emitted.appOut : t.io.appOut = s.io.appOut := by rw [h]; simp
theorem Emitted.ret : t.io.ret = s.io.ret := by rw [h]; simp
theorem Emitted.trace : t.io.trace = s.io.trace := by rw [h]; simp
theorem Emitted.port : t.io.port = s.io.port := by rw [h]; simp

end

/-! ### The stuffing countdown and the scan of rules R68, R100 -/

/-- The scan's count of 0xAA that a countdown stands for. -/
def TxCountdown.seen : TxCountdown → Nat
  | .one => 1
  | .two => 0

/-- The countdown after a list of logical bytes. -/
def countDowns (l : List Byte) (c : TxCountdown) : TxCountdown := l.foldl (fun c b => countDown b c) c

theorem stuffed_cons (b : Byte) (l : List Byte) (c : TxCountdown) :
    stuffed c.seen (b :: l) =
      (if stuffDue b c then [b, stuffByte] else [b]) ++ stuffed (countDown b c).seen l := by
  cases c <;> by_cases hb : b = headerByte <;> simp [stuffed, stuffDue, countDown, TxCountdown.seen, hb]

theorem stuffed_append (l l' : List Byte) (c : TxCountdown) :
    stuffed c.seen (l ++ l') = stuffed c.seen l ++ stuffed (countDowns l c).seen l' := by
  induction l generalizing c with
  | nil => rfl
  | cons b l ih => rw [List.cons_append, stuffed_cons, stuffed_cons, ih, List.append_assoc]; rfl

/-- `ENC_PUT` (rule R98): the byte and the stuff byte it causes, the countdown, and the checksum when asked. -/
theorem encPut_eq (b : Byte) (crc : Bool) (s : State) :
    encPut b crc s =
      setEnc (if crc then crcStep s.crc.tx b else s.crc.tx) (countDown b s.enc.hdrCnt)
        (hostTakes (stuffed s.enc.hdrCnt.seen [b]) s) := by
  rw [stuffed_cons]
  cases crc <;> by_cases h : stuffDue b s.enc.hdrCnt = true <;>
    simp [encPut, putStuffed, h, stuffed, stepTxCrc, setEnc]

/-- `ENC_PUT` of a list (rules R96, R98). -/
theorem encPuts_eq (l : List Byte) (crc : Bool) (s : State) :
    encPuts l crc s =
      setEnc (if crc then l.foldl crcStep s.crc.tx else s.crc.tx) (countDowns l s.enc.hdrCnt)
        (hostTakes (stuffed s.enc.hdrCnt.seen l) s) := by
  induction l generalizing s with
  | nil => cases crc <;> rfl
  | cons b l ih =>
    have hl : stuffed s.enc.hdrCnt.seen (b :: l) =
        stuffed s.enc.hdrCnt.seen [b] ++ stuffed (countDown b s.enc.hdrCnt).seen l := by
      rw [stuffed_cons, stuffed_cons]; simp [stuffed]
    have : encPuts (b :: l) crc s = encPuts l crc (encPut b crc s) := rfl
    rw [this, ih, encPut_eq, hl, hostTakes_append, hostTakes_setEnc, setEnc_setEnc]
    cases crc <;> rfl

/-- `ENC_PUT` of a list emits its stuffed form. -/
theorem encPuts_emitted (l : List Byte) (crc : Bool) (s : State) :
    Emitted (stuffed s.enc.hdrCnt.seen l) s (encPuts l crc s) :=
  emitted_iff.2 ⟨_, _, encPuts_eq l crc s⟩

/-- The first half of `ENC_EMIT`: what stands in ENC's two fields before the CRC bytes. -/
theorem encPuts_crc_tx (l : List Byte) (s : State) : (encPuts l true s).crc.tx = l.foldl crcStep s.crc.tx := by
  rw [encPuts_eq]; simp

theorem encPuts_hdrCnt (l : List Byte) (crc : Bool) (s : State) :
    (encPuts l crc s).enc.hdrCnt = countDowns l s.enc.hdrCnt := by
  rw [encPuts_eq]; simp

/-- `ENC_EMIT` hands over the wire form of the frame and changes nothing but ENC's leftovers (rules R60, R96). -/
theorem emitFrame_emitted (control seq len : Byte) (payload : List Byte) (s : State)
    (hlen : len = BitVec.ofNat 8 payload.length) :
    Emitted (wire control seq payload) s (emitFrame control seq len payload s) := by
  subst hlen
  have hb : frameBody control seq (BitVec.ofNat 8 payload.length) payload = checkedBytes control seq payload := by
    simp [frameBody, checkedBytes]
  have hw : wire control seq payload =
      ((([headerByte, headerByte, headerByte] ++ []) ++ stuffed TxCountdown.two.seen (checkedBytes control seq payload)) ++
        stuffed (countDowns (checkedBytes control seq payload) .two).seen
          (wordBytes (crc32 (checkedBytes control seq payload)))) ++ [eofByte] := by
    have h := stuffed_append (checkedBytes control seq payload) (wordBytes (crc32 (checkedBytes control seq payload))) .two
    rw [List.append_nil, List.append_assoc [headerByte, headerByte, headerByte], ← h]; rfl
  have h1 := ((emitted_txByte headerByte s).trans (emitted_txByte headerByte _)).trans (emitted_txByte headerByte _)
  have h2 := h1.trans (emitted_setEnc crcInitValue .two _)
  have h3 := h2.trans (encPuts_emitted (checkedBytes control seq payload) true _)
  have h4 := h3.trans (encPuts_emitted (wordBytes (crc32 (checkedBytes control seq payload))) false _)
  rw [encPuts_hdrCnt] at h4
  have h5 := h4.trans (emitted_txByte eofByte _)
  rw [hw]
  unfold emitFrame
  simp only [hb]
  have he : ∀ u : State, { u with enc.hdrCnt := .two, crc.tx := crcInitValue } = setEnc crcInitValue .two u := fun _ => rfl
  simp only [he, encPuts_crc_tx]
  exact h5

/-- `SEND_ACK` and `SEND_RESET` emit the wire forms of rule R82. -/
theorem emitFrame_ack (s : State) : Emitted (ackWire s) s (emitFrame ctrlAck s.tp.rn 1#8 [s.tp.rn] s) :=
  emitFrame_emitted _ _ _ _ _ rfl

theorem emitFrame_reset (s : State) : Emitted resetWire s (emitFrame ctrlReset 0#8 0#8 [] s) :=
  emitFrame_emitted _ _ _ _ _ rfl

end Sys2Proof.Machine
end

