-- ==== Sys2Proof/Laws/Send.lean ====
section
/-! SUPPORT. What sending does (43_transport.md section 4): every send is an emission of one frame's wire form and one
timestamp, or nothing but an event. -/

namespace Sys2Proof.Machine

theorem slotChange_setSlot {s : State} (h : s.tp.slots.wf = true) (k : Nat) (v : Slot) :
    SlotChange k v s (setSlot k v s) :=
  ⟨rfl, Slots.read_write_eq h k v, fun _ hj => Slots.read_write_ne _ v hj⟩

theorem slotWire_eq (k : Nat) (s : State) :
    slotWire k s = wire (frameControl (slotAt k s).id) (slotAt k s).seq
      (srcBytes .ring (slotAt k s).off s.cfg.ringMask (slotAt k s).len.toNat s) := by
  simp [slotWire, srcBytes, srcIndices, ringIndex, srcByte, Function.comp_def]

theorem srcBytes_length (src : EncSrc) (off mask n : Nat) (s : State) : (srcBytes src off mask n s).length = n := by
  simp [srcBytes, srcIndices]

theorem ofNat_toNat_byte (b : Byte) : BitVec.ofNat 8 b.toNat = b := by simp

/-- The emission inside `SEND_FRAME(k)`. -/
theorem emitFrame_slot (k : Nat) (s : State) :
    Emitted (slotWire k s) s (emitFrame (frameControl (slotAt k s).id) (slotAt k s).seq (slotAt k s).len
      (srcBytes .ring (slotAt k s).off s.cfg.ringMask (slotAt k s).len.toNat s) s) := by
  rw [slotWire_eq]
  exact emitFrame_emitted _ _ _ _ _ (by rw [srcBytes_length, ofNat_toNat_byte])

/-- `SEND_FRAME(k)` (rule R145). -/
theorem sendFrame_sent {s : State} (h : s.tp.slots.wf = true) (k : Nat) : FrameSent k s (sendFrame k s) := by
  have he := emitFrame_slot k s
  refine ⟨_, he, ?_⟩
  unfold sendFrame
  have hs : ∀ t, Emitted (slotWire k s) s t → slotAt k t = slotAt k s ∧ t.now = s.now ∧ t.tp.slots.wf = true :=
    fun t ht => ⟨by rw [slotAt, slotAt, ht.tp], ht.now, by rw [ht.tp]; exact h⟩
  obtain ⟨h1, h2, h3⟩ := hs _ he
  simp only [h1, h2]
  exact slotChange_setSlot h3 k _

/-- The budget test is the comparison rules R146, R149, R150 write. -/
theorem spaceFor_iff (n : Nat) (s : State) : spaceFor n s = true ↔ n + 11 ≤ txSpace s := by
  rw [spaceFor, decide_eq_true_eq]; rfl

/-- `SEND_ACK` (rule R149). -/
theorem sendAck_tried (s : State) : AckTried s (sendAck s) := by
  unfold AckTried sendAck
  by_cases h : 12 ≤ txSpace s
  · rw [if_pos h, if_pos ((spaceFor_iff 1 s).2 h)]
    refine ⟨_, emitFrame_ack s, ?_⟩
    simp only [(emitFrame_ack s).now]
  · rw [if_neg h, if_neg (by rw [spaceFor_iff]; exact h)]
    rfl

/-- One resend (rule R155). -/
theorem resendSlot_tried {s : State} (h : s.tp.slots.wf = true) (k : Nat) : FrameTried k s (resendSlot k s) := by
  unfold FrameTried resendSlot
  by_cases hs : (slotAt k s).len.toNat + 11 ≤ txSpace s
  · rw [if_pos hs, if_pos ((spaceFor_iff _ s).2 hs)]; exact sendFrame_sent h k
  · rw [if_neg hs, if_neg (by rw [spaceFor_iff]; exact hs)]; rfl

/-- Emitting leaves the transmit space of an unbounded host buffer at 0xFFFF (rule R191). -/
theorem txSpace_h0 {s : State} (h : s.cfg.hostTx = .h0) : txSpace s = 0xFFFF := by simp [txSpace, h]

/-! ### What every send leaves alone

`SentOnly s t`: nothing but the host's side of emitted bytes, ENC's leftovers, the slots' `last_sent_ms`, `last_ack_tx_ms`
and the event trace has changed. -/

/-- The slot without its time of sending. -/
def untimed (v : Slot) : Slot := { v with lastSent := 0#32 }

/-- The frame a send keeps: every update the sends of rules R145, R149, R150, R155 make, and nothing else. -/
structure SentOnly (s t : State) : Prop where
  cfg : t.cfg = s.cfg
  crcRx : t.crc.rx = s.crc.rx
  dec : t.dec = s.dec
  tp : t.tp = { s.tp with slots := t.tp.slots, lastAckTx := t.tp.lastAckTx }
  slots : s.tp.slots.wf = true → ∀ k, untimed (slotAt k t) = untimed (slotAt k s)
  now : t.now = s.now
  drawn : t.drawn = s.drawn
  timeMs : t.io.timeMs = s.io.timeMs
  txOut : ∃ l, t.io.txOut = s.io.txOut ++ l
  appOut : t.io.appOut = s.io.appOut
  ret : t.io.ret = s.io.ret
  port : t.io.port = s.io.port
  slotsWf : s.tp.slots.wf = true → t.tp.slots.wf = true

theorem SentOnly.refl (s : State) : SentOnly s s :=
  ⟨rfl, rfl, rfl, rfl, fun _ _ => rfl, rfl, rfl, rfl, ⟨[], by simp⟩, rfl, rfl, rfl, id⟩

theorem SentOnly.trans {s t u : State} (h : SentOnly s t) (h' : SentOnly t u) : SentOnly s u where
  cfg := h'.cfg.trans h.cfg
  crcRx := h'.crcRx.trans h.crcRx
  dec := h'.dec.trans h.dec
  tp := by rw [h'.tp, h.tp]
  slots hs k := (h'.slots (h.slotsWf hs) k).trans (h.slots hs k)
  now := h'.now.trans h.now
  drawn := h'.drawn.trans h.drawn
  timeMs := h'.timeMs.trans h.timeMs
  txOut := by
    obtain ⟨l, hl⟩ := h.txOut
    obtain ⟨l', hl'⟩ := h'.txOut
    exact ⟨l ++ l', by rw [hl', hl, List.append_assoc]⟩
  appOut := h'.appOut.trans h.appOut
  ret := h'.ret.trans h.ret
  port := h'.port.trans h.port
  slotsWf hs := h'.slotsWf (h.slotsWf hs)

theorem Emitted.sentOnly {l : List Byte} {s t : State} (h : Emitted l s t) : SentOnly s t where
  cfg := h.cfg
  crcRx := h.crc_rx
  dec := h.dec
  tp := by rw [h.tp]
  slots _ k := by rw [slotAt, slotAt, h.tp]
  now := h.now
  drawn := h.drawn
  timeMs := h.timeMs
  txOut := ⟨l, h.txOut⟩
  appOut := h.appOut
  ret := h.ret
  port := h.port
  slotsWf hs := by rw [h.tp]; exact hs

theorem drop_sentOnly (e : Event) (s : State) : SentOnly s (drop e s) :=
  ⟨rfl, rfl, rfl, rfl, fun _ _ => rfl, rfl, rfl, rfl, ⟨[], by simp⟩, rfl, rfl, rfl, id⟩

/-- Writing any slot writes it to a list in which every read is the new value or an old one. -/
theorem slotAt_setSlot_cases {s : State} (k : Nat) (v : Slot) (j : Nat) (h : s.tp.slots.wf = true) :
    slotAt j (setSlot k v s) = if j = k then v else slotAt j s := by
  by_cases hj : j = k
  · subst hj; rw [if_pos rfl]; exact Slots.read_write_eq h _ _
  · rw [if_neg hj]; exact Slots.read_write_ne _ _ hj

theorem setSlot_time_sentOnly (k : Nat) (now : Word) (s : State) :
    SentOnly s (setSlot k { slotAt k s with lastSent := now } s) where
  cfg := rfl
  crcRx := rfl
  dec := rfl
  tp := rfl
  slots hs j := by
    rw [slotAt_setSlot_cases _ _ _ hs]
    split
    · next h => subst h; rfl
    · rfl
  now := rfl
  drawn := rfl
  timeMs := rfl
  txOut := ⟨[], by simp⟩
  appOut := rfl
  ret := rfl
  port := rfl
  slotsWf hs := Slots.wf_write hs _ _

theorem sendFrame_sentOnly (k : Nat) (s : State) : SentOnly s (sendFrame k s) :=
  (emitFrame_slot k s).sentOnly.trans (setSlot_time_sentOnly k _ _)

theorem sendAck_sentOnly (s : State) : SentOnly s (sendAck s) := by
  unfold sendAck
  split
  · refine (emitFrame_ack s).sentOnly.trans ?_
    exact ⟨rfl, rfl, rfl, rfl, fun _ _ => rfl, rfl, rfl, rfl, ⟨[], by simp⟩, rfl, rfl, rfl, id⟩
  · exact drop_sentOnly _ _

theorem sendReset_sentOnly (s : State) : SentOnly s (sendReset s) := by
  unfold sendReset
  split
  · exact (emitFrame_reset s).sentOnly
  · exact drop_sentOnly _ _

theorem resendSlot_sentOnly (k : Nat) (s : State) : SentOnly s (resendSlot k s) := by
  unfold resendSlot
  split
  · exact sendFrame_sentOnly k s
  · exact drop_sentOnly _ _

theorem resendFrom_sentOnly (n j : Nat) (s : State) : SentOnly s (resendFrom n j s) := by
  induction n generalizing s j with
  | zero => exact SentOnly.refl s
  | succ n ih => exact (resendSlot_sentOnly _ s).trans (ih (j + 1) _)

/-- The resends of `H_ACK` are those of rule R155, in window order. -/
theorem resendFrom_resends {s : State} (h : s.tp.slots.wf = true) (n j : Nat) : Resends n j s (resendFrom n j s) := by
  induction n generalizing s j with
  | zero => rfl
  | succ n ih =>
    have h1 := resendSlot_sentOnly (fifoIndex s.cfg (s.tp.fifoHead + j)) s
    exact ⟨_, resendSlot_tried h _, ih (h1.slotsWf h) (j + 1)⟩

end Sys2Proof.Machine
end

