-- ==== Sys2Proof/Laws/Fifo.lean ====
section
/-! SUPPORT. The FIFO of frame slots and the payload ring (10_state.md rules R18, R20; 43_transport.md rules R137, R138):
what a push, a pop and several pops do to the queue seen from its head, and that they keep the invariants. -/

namespace Sys2Proof.Machine

/-! ### Indices -/

theorem fifoIndex_fifoIndex_add (c : Config) (i j : Nat) : fifoIndex c (fifoIndex c i + j) = fifoIndex c (i + j) := by
  simp only [fifoIndex_eq_mod]; rw [Nat.mod_add_mod]

theorem ringIndex_ringIndex_add (c : Config) (i j : Nat) : ringIndex c (ringIndex c i + j) = ringIndex c (i + j) := by
  simp only [ringIndex_eq_mod]; rw [Nat.mod_add_mod]

theorem fifoIndex_of_lt {c : Config} {i : Nat} (h : i < c.fifoSlots) : fifoIndex c i = i := by
  rw [fifoIndex_eq_mod, Nat.mod_eq_of_lt h]

theorem ringIndex_of_lt {c : Config} {i : Nat} (h : i < c.ringSize) : ringIndex c i = i := by
  rw [ringIndex_eq_mod, Nat.mod_eq_of_lt h]

theorem fifoIndex_wrap (c : Config) (i : Nat) : fifoIndex c (i + c.fifoSlots) = fifoIndex c i := by
  simp [fifoIndex_eq_mod]

theorem ringIndex_wrap (c : Config) (i : Nat) : ringIndex c (i + c.ringSize) = ringIndex c i := by
  simp [ringIndex_eq_mod]

theorem queuedIndex_lt (s : State) (j : Nat) : queuedIndex s j < s.cfg.fifoSlots := fifoIndex_lt _ _

/-- The queued slots are at different indices. -/
theorem queuedIndex_ne (s : State) {i j : Nat} (hij : i ≠ j) (hi : i < s.cfg.fifoSlots) (hj : j < s.cfg.fifoSlots) :
    queuedIndex s i ≠ queuedIndex s j := fifoIndex_ne s.cfg hij hi hj

/-! ### The invariants look at the queue only -/

/-- What the queue invariants read of a state is the same in `t` and `s`. -/
structure SameQueue (s t : State) : Prop where
  cfg : t.cfg = s.cfg
  head : t.tp.fifoHead = s.tp.fifoHead
  tail : t.tp.fifoTail = s.tp.fifoTail
  frames : t.tp.nFrames = s.tp.nFrames
  ringTail : t.tp.ringTail = s.tp.ringTail
  ringUsed : t.tp.ringUsed = s.tp.ringUsed
  len : ∀ j, j < s.tp.nFrames → (queuedSlot t j).len = (queuedSlot s j).len
  off : ∀ j, j < s.tp.nFrames → (queuedSlot t j).off = (queuedSlot s j).off

/-- A sum of lengths depends on the lengths it adds only, whatever the place of the head. -/
theorem lensFrom_congr {s t : State} {j k n : Nat}
    (h : ∀ i, i < n → (queuedSlot t (k + i)).len = (queuedSlot s (j + i)).len) : lensFrom t k n = lensFrom s j n := by
  induction n generalizing j k with
  | zero => rfl
  | succ n ih =>
    have h0 := h 0 (by omega)
    simp only [Nat.add_zero] at h0
    simp only [lensFrom, h0]
    congr 1
    refine ih fun i hi => ?_
    have := h (i + 1) (by omega)
    rwa [Nat.add_comm i 1, ← Nat.add_assoc, ← Nat.add_assoc] at this

theorem lensFrom_add (s : State) (j m n : Nat) : lensFrom s j (m + n) = lensFrom s j m + lensFrom s (j + m) n := by
  induction m generalizing j with
  | zero => simp [lensFrom]
  | succ m ih =>
    rw [Nat.add_right_comm, lensFrom, lensFrom, ih (j + 1), Nat.add_assoc, Nat.add_assoc, Nat.add_comm 1 m,
      ← Nat.add_assoc j]

theorem lensFrom_succ_right (s : State) (j n : Nat) :
    lensFrom s j (n + 1) = lensFrom s j n + (queuedSlot s (j + n)).len.toNat := by
  rw [lensFrom_add]; simp [lensFrom]

theorem FifoInv.of_same {s t : State} (hs : FifoInv s) (h : SameQueue s t) : FifoInv t where
  framesFit := by rw [h.frames, h.cfg]; exact hs.framesFit
  headInside := by rw [h.head, h.cfg]; exact hs.headInside
  tailFollows := by rw [h.tail, h.head, h.frames, h.cfg]; exact hs.tailFollows
  ringTailInside := by rw [h.ringTail, h.cfg]; exact hs.ringTailInside
  usedFits := by rw [h.ringUsed, h.cfg]; exact hs.usedFits
  usedIsSum := by
    rw [h.ringUsed, h.frames, hs.usedIsSum]
    exact (lensFrom_congr fun i hi => by simpa using h.len i hi).symm
  offInside := by
    intro j hj
    rw [h.frames] at hj
    rw [h.off j hj, h.cfg]
    exact hs.offInside j hj
  payloadsEndAtTail := by
    intro j hj
    rw [h.frames] at hj
    rw [h.ringTail, ← hs.payloadsEndAtTail j hj, h.off j hj, h.frames, h.cfg,
      lensFrom_congr (s := s) (t := t) (j := j) (k := j) fun i hi => h.len (j + i) (by omega)]

theorem untimed_len {v w : Slot} (h : untimed v = untimed w) : v.len = w.len := by
  simp only [untimed, Slot.mk.injEq] at h; exact h.2.2.1
theorem untimed_off {v w : Slot} (h : untimed v = untimed w) : v.off = w.off := by
  simp only [untimed, Slot.mk.injEq] at h; exact h.2.2.2.1
theorem untimed_seq {v w : Slot} (h : untimed v = untimed w) : v.seq = w.seq := by
  simp only [untimed, Slot.mk.injEq] at h; exact h.2.1
theorem untimed_id {v w : Slot} (h : untimed v = untimed w) : v.id = w.id := by
  simp only [untimed, Slot.mk.injEq] at h; exact h.1

section
variable {s t : State} (h : SentOnly s t)
include h

theorem SentOnly.fifoHead : t.tp.fifoHead = s.tp.fifoHead := by rw [h.tp]
theorem SentOnly.fifoTail : t.tp.fifoTail = s.tp.fifoTail := by rw [h.tp]
theorem SentOnly.nFrames : t.tp.nFrames = s.tp.nFrames := by rw [h.tp]
theorem SentOnly.ringTail : t.tp.ringTail = s.tp.ringTail := by rw [h.tp]
theorem SentOnly.ringUsed : t.tp.ringUsed = s.tp.ringUsed := by rw [h.tp]
theorem SentOnly.ring : t.tp.ring = s.tp.ring := by rw [h.tp]
theorem SentOnly.snMin : t.tp.snMin = s.tp.snMin := by rw [h.tp]
theorem SentOnly.snMax : t.tp.snMax = s.tp.snMax := by rw [h.tp]
theorem SentOnly.rn : t.tp.rn = s.tp.rn := by rw [h.tp]
theorem SentOnly.lastRxAny : t.tp.lastRxAny = s.tp.lastRxAny := by rw [h.tp]
theorem SentOnly.lastRxFrame : t.tp.lastRxFrame = s.tp.lastRxFrame := by rw [h.tp]
theorem SentOnly.remoteConnected : t.tp.remoteConnected = s.tp.remoteConnected := by rw [h.tp]
theorem SentOnly.remoteActive : t.tp.remoteActive = s.tp.remoteActive := by rw [h.tp]
theorem SentOnly.droppedFrames : t.tp.droppedFrames = s.tp.droppedFrames := by rw [h.tp]
theorem SentOnly.spuriousAcks : t.tp.spuriousAcks = s.tp.spuriousAcks := by rw [h.tp]
theorem SentOnly.seqMismatchDrops : t.tp.seqMismatchDrops = s.tp.seqMismatchDrops := by rw [h.tp]
theorem SentOnly.resetsReceived : t.tp.resetsReceived = s.tp.resetsReceived := by rw [h.tp]

theorem SentOnly.queuedIndex (j : Nat) : queuedIndex t j = queuedIndex s j := by
  rw [Machine.queuedIndex, Machine.queuedIndex, h.cfg, h.fifoHead]

theorem SentOnly.queuedSlot (hs : s.tp.slots.wf = true) (j : Nat) :
    untimed (queuedSlot t j) = untimed (queuedSlot s j) := by
  rw [Machine.queuedSlot, Machine.queuedSlot, h.queuedIndex]; exact h.slots hs _

theorem SentOnly.win : win t = win s := by rw [Machine.win, Machine.win, h.snMax, h.snMin]

theorem SentOnly.sameQueue (hs : s.tp.slots.wf = true) : SameQueue s t :=
  ⟨h.cfg, h.fifoHead, h.fifoTail, h.nFrames, h.ringTail, h.ringUsed, fun j _ => untimed_len (h.queuedSlot hs j),
    fun j _ => untimed_off (h.queuedSlot hs j)⟩

theorem SentOnly.windowInv (hs : s.tp.slots.wf = true) (hw : WindowInv s) : WindowInv t where
  windowFits := by rw [h.win, h.cfg]; exact hw.windowFits
  windowQueued := by rw [h.win, h.nFrames]; exact hw.windowQueued
  seqInOrder := by
    intro j hj
    rw [h.win] at hj
    rw [untimed_seq (h.queuedSlot hs j), h.snMin]
    exact hw.seqInOrder j hj

end

/-! ### Counts inside their width -/

theorem countSub_of_le {w a b : Nat} (h : b ≤ a) : countSub w a b = a - b := if_pos h

theorem countAdd_of_lt {w a b : Nat} (h : a + b < 2 ^ w) : countAdd w a b = a + b := if_pos h

/-! ### Popping -/

/-- One pop from a queue that has a frame (rule R138), with no wrap in any count. -/
theorem fifoPop_eq {s : State} (hf : FifoInv s) (hn : 0 < s.tp.nFrames) :
    fifoPop s = { s with
      tp.ringUsed := s.tp.ringUsed - (queuedSlot s 0).len.toNat
      tp.fifoHead := fifoIndex s.cfg (s.tp.fifoHead + 1)
      tp.nFrames := s.tp.nFrames - 1 } := by
  have h0 : slotAt s.tp.fifoHead s = queuedSlot s 0 := by
    rw [queuedSlot, queuedIndex, Nat.add_zero, fifoIndex_of_lt hf.headInside]
  have hle : (queuedSlot s 0).len.toNat ≤ s.tp.ringUsed := by
    rw [hf.usedIsSum]
    obtain ⟨n, hn'⟩ : ∃ n, s.tp.nFrames = n + 1 := ⟨s.tp.nFrames - 1, by omega⟩
    rw [hn', lensFrom]; omega
  unfold fifoPop
  simp only [h0, countSub_of_le hle, countSub_of_le (show 1 ≤ s.tp.nFrames from hn)]

/-- The queue seen from the head after a pop is the queue from distance 1 before it. -/
theorem queuedSlot_fifoPop (s : State) (j : Nat) : queuedSlot (fifoPop s) j = queuedSlot s (j + 1) := by
  simp only [queuedSlot, queuedIndex, slotAt, fifoPop_cfg, fifoPop_tp_fifoHead, fifoPop_tp_slots,
    fifoIndex_fifoIndex_add]
  rw [Nat.add_assoc, Nat.add_comm 1 j]

theorem FifoInv.fifoPop {s : State} (hf : FifoInv s) (hn : 0 < s.tp.nFrames) : FifoInv (fifoPop s) := by
  have hl : ∀ j n, lensFrom (Machine.fifoPop s) j n = lensFrom s (j + 1) n := fun j n =>
    lensFrom_congr fun i _ => by
      rw [queuedSlot_fifoPop]; congr 2; omega
  have hsum : s.tp.ringUsed = (queuedSlot s 0).len.toNat + lensFrom s 1 (s.tp.nFrames - 1) := by
    rw [hf.usedIsSum]
    obtain ⟨n, hn'⟩ : ∃ n, s.tp.nFrames = n + 1 := ⟨s.tp.nFrames - 1, by omega⟩
    rw [hn', lensFrom]; simp
  have hu : (Machine.fifoPop s).tp.ringUsed = s.tp.ringUsed - (queuedSlot s 0).len.toNat := by rw [fifoPop_eq hf hn]
  have hfr : (Machine.fifoPop s).tp.nFrames = s.tp.nFrames - 1 := by rw [fifoPop_eq hf hn]
  refine ⟨?_, ?_, ?_, ?_, ?_, ?_, ?_, ?_⟩
  · rw [hfr]; have := hf.framesFit; simp only [fifoPop_cfg]; omega
  · simp only [fifoPop_tp_fifoHead, fifoPop_cfg]; exact fifoIndex_lt _ _
  · rw [hfr]; simp only [fifoPop_tp_fifoTail, fifoPop_tp_fifoHead, fifoPop_cfg, fifoIndex_fifoIndex_add]
    rw [hf.tailFollows]; congr 1; omega
  · exact hf.ringTailInside
  · rw [hu]; have := hf.usedFits; simp only [fifoPop_cfg]; omega
  · rw [hu, hfr, hl, Nat.zero_add]; omega
  · intro j hj
    rw [hfr] at hj
    rw [queuedSlot_fifoPop]
    exact hf.offInside (j + 1) (by omega)
  · intro j hj
    rw [hfr] at hj ⊢
    rw [queuedSlot_fifoPop, hl]
    have := hf.payloadsEndAtTail (j + 1) (by omega)
    rw [show s.tp.nFrames - 1 - j = s.tp.nFrames - (j + 1) by omega]
    exact this

/-- Several pops from a queue that holds as many frames (rules R138, R155). -/
theorem fifoPops_eq {s : State} (hf : FifoInv s) {n : Nat} (hn : n ≤ s.tp.nFrames) :
    fifoPops n s = { s with
      tp.ringUsed := s.tp.ringUsed - lensFrom s 0 n
      tp.fifoHead := fifoIndex s.cfg (s.tp.fifoHead + n)
      tp.nFrames := s.tp.nFrames - n } := by
  induction n generalizing s with
  | zero =>
    simp only [fifoPops, lensFrom, Nat.sub_zero, Nat.add_zero, fifoIndex_of_lt hf.headInside]
  | succ n ih =>
    have hpos : 0 < s.tp.nFrames := by omega
    have hfr : (fifoPop s).tp.nFrames = s.tp.nFrames - 1 := by rw [fifoPop_eq hf hpos]
    have hl : lensFrom (fifoPop s) 0 n = lensFrom s 1 n := lensFrom_congr fun i _ => by
      rw [queuedSlot_fifoPop]; congr 2; omega
    rw [fifoPops, ih (hf.fifoPop hpos) (by rw [hfr]; omega), hl, fifoPop_eq hf hpos]
    simp only [fifoIndex_fifoIndex_add, lensFrom, Nat.sub_sub, Nat.add_assoc, Nat.add_comm 1 n]

theorem FifoInv.fifoPops {s : State} (hf : FifoInv s) {n : Nat} (hn : n ≤ s.tp.nFrames) : FifoInv (fifoPops n s) := by
  induction n generalizing s with
  | zero => exact hf
  | succ n ih =>
    have hpos : 0 < s.tp.nFrames := by omega
    exact ih (hf.fifoPop hpos) (by rw [fifoPop_eq hf hpos]; simp only; omega)

theorem queuedSlot_fifoPops {s : State} (n j : Nat) : queuedSlot (fifoPops n s) j = queuedSlot s (j + n) := by
  induction n generalizing s with
  | zero => rfl
  | succ n ih => rw [fifoPops, ih, queuedSlot_fifoPop, Nat.add_assoc]

theorem fifoPops_cfg (n : Nat) (s : State) : (fifoPops n s).cfg = s.cfg := by
  induction n generalizing s with
  | zero => rfl
  | succ n ih => rw [fifoPops, ih, fifoPop_cfg]

/-- What any number of pops leaves alone: everything but three fields of TP. -/
theorem fifoPops_frame (n : Nat) (s : State) :
    fifoPops n s = { s with
      tp.ringUsed := (fifoPops n s).tp.ringUsed
      tp.fifoHead := (fifoPops n s).tp.fifoHead
      tp.nFrames := (fifoPops n s).tp.nFrames } := by
  induction n generalizing s with
  | zero => rfl
  | succ n ih => rw [fifoPops, ih (fifoPop s)]; rfl

/-! ### Pushing -/

theorem queueRejects_iff (len : Nat) (s : State) :
    queueRejects len s = true ↔
      s.cfg.maxPayload < len ∨ s.tp.nFrames = s.cfg.fifoSlots ∨ s.cfg.ringSize - s.tp.ringUsed < len := by
  simp [queueRejects, or_assoc]

theorem countAdd_frames {s : State} (hn : s.tp.nFrames < s.cfg.fifoSlots) :
    countAdd (s.cfg.fifoBits + 1) s.tp.nFrames 1 = s.tp.nFrames + 1 := by
  apply countAdd_of_lt
  have : 2 ^ (s.cfg.fifoBits + 1) = 2 * s.cfg.fifoSlots := by rw [Nat.pow_succ, Nat.mul_comm]; rfl
  have := s.cfg.fifoSlots_pos
  omega

theorem countAdd_used {s : State} {n : Nat} (hn : s.tp.ringUsed + n ≤ s.cfg.ringSize) :
    countAdd (s.cfg.ringBits + 1) s.tp.ringUsed n = s.tp.ringUsed + n := by
  apply countAdd_of_lt
  have : 2 ^ (s.cfg.ringBits + 1) = 2 * s.cfg.ringSize := by rw [Nat.pow_succ, Nat.mul_comm]; rfl
  have := s.cfg.ringSize_pos
  omega

/-- The slot a push writes (rule R137). -/
def pushedSlot (id : Ident) (payload : List Byte) (s : State) : Slot :=
  { slotAt s.tp.fifoTail s with id := id, len := BitVec.ofNat 8 payload.length, off := s.tp.ringTail }

theorem slotAt_fifoPush {s : State} (h : s.tp.slots.wf = true) (id : Ident) (payload : List Byte) (k : Nat) :
    slotAt k (fifoPush id payload s) = if k = s.tp.fifoTail then pushedSlot id payload s else slotAt k s := by
  by_cases hk : k = s.tp.fifoTail
  · subst hk; rw [if_pos rfl]; exact Slots.read_write_eq h _ _
  · rw [if_neg hk]; exact Slots.read_write_ne _ _ hk

/-- A push with a free slot adds its frame behind the queued ones. -/
theorem queuedSlot_fifoPush {s : State} (h : s.tp.slots.wf = true) (hf : FifoInv s)
    (hn : s.tp.nFrames < s.cfg.fifoSlots) (id : Ident) (payload : List Byte) {j : Nat} (hj : j ≤ s.tp.nFrames) :
    queuedSlot (fifoPush id payload s) j = if j = s.tp.nFrames then pushedSlot id payload s else queuedSlot s j := by
  have hq : queuedIndex (fifoPush id payload s) j = queuedIndex s j := rfl
  rw [queuedSlot, hq, slotAt_fifoPush h, hf.tailFollows]
  by_cases hjn : j = s.tp.nFrames
  · subst hjn; rw [if_pos rfl]; exact if_pos rfl
  · rw [if_neg hjn]; exact if_neg (fifoIndex_ne s.cfg hjn (by omega) hn)

theorem FifoInv.fifoPush {s : State} (h : s.tp.slots.wf = true) (hf : FifoInv s) (hn : s.tp.nFrames < s.cfg.fifoSlots)
    (id : Ident) (payload : List Byte) (hr : s.tp.ringUsed + payload.length ≤ s.cfg.ringSize)
    (hp : payload.length < 256) : FifoInv (fifoPush id payload s) := by
  have hq := fun j (hj : j ≤ s.tp.nFrames) => queuedSlot_fifoPush h hf hn id payload hj
  have hlen : (pushedSlot id payload s).len.toNat = payload.length := by
    show (BitVec.ofNat 8 payload.length).toNat = payload.length
    rw [BitVec.toNat_ofNat]; exact Nat.mod_eq_of_lt (by omega)
  have hl : ∀ j n, j + n ≤ s.tp.nFrames → lensFrom (Machine.fifoPush id payload s) j n = lensFrom s j n := fun j n hjn =>
    lensFrom_congr fun i hi => by rw [hq (j + i) (by omega), if_neg (by omega)]
  have hl1 : ∀ j, j ≤ s.tp.nFrames → lensFrom (Machine.fifoPush id payload s) j (s.tp.nFrames + 1 - j) =
      lensFrom s j (s.tp.nFrames - j) + payload.length := fun j hj => by
    rw [show s.tp.nFrames + 1 - j = (s.tp.nFrames - j) + 1 by omega, lensFrom_succ_right, hl j _ (by omega),
      show j + (s.tp.nFrames - j) = s.tp.nFrames by omega, hq _ (Nat.le_refl _), if_pos rfl, hlen]
  have hfr : (Machine.fifoPush id payload s).tp.nFrames = s.tp.nFrames + 1 := countAdd_frames hn
  have hu : (Machine.fifoPush id payload s).tp.ringUsed = s.tp.ringUsed + payload.length := countAdd_used hr
  refine ⟨?_, ?_, ?_, ?_, ?_, ?_, ?_, ?_⟩
  · rw [hfr]; exact hn
  · exact hf.headInside
  · rw [hfr]; simp only [fifoPush_tp_fifoTail, fifoPush_tp_fifoHead, fifoPush_cfg]
    rw [hf.tailFollows, fifoIndex_fifoIndex_add, Nat.add_assoc]
  · exact ringIndex_lt _ _
  · rw [hu]; exact hr
  · rw [hu, hfr, hf.usedIsSum]
    have := hl1 0 (Nat.zero_le _)
    simp only [Nat.sub_zero] at this
    exact this.symm
  · intro j hj
    rw [hfr] at hj
    rw [hq j (by omega)]
    split
    · exact hf.ringTailInside
    · exact hf.offInside j (by omega)
  · intro j hj
    rw [hfr] at hj ⊢
    rw [hl1 j (by omega), hq j (by omega)]
    simp only [fifoPush_cfg, fifoPush_tp_ringTail]
    by_cases hjn : j = s.tp.nFrames
    · subst hjn
      rw [if_pos rfl, Nat.sub_self]
      show ringIndex s.cfg (s.tp.ringTail + (lensFrom s _ 0 + payload.length)) = _
      simp [lensFrom]
    · rw [if_neg hjn, ← Nat.add_assoc, ← ringIndex_ringIndex_add, hf.payloadsEndAtTail j (by omega)]

/-- A push leaves the window alone. -/
theorem WindowInv.fifoPush {s : State} (h : s.tp.slots.wf = true) (hf : FifoInv s) (hw : WindowInv s)
    (hn : s.tp.nFrames < s.cfg.fifoSlots) (id : Ident) (payload : List Byte) : WindowInv (fifoPush id payload s) where
  windowFits := hw.windowFits
  windowQueued := by
    have hfr : (Machine.fifoPush id payload s).tp.nFrames = s.tp.nFrames + 1 := countAdd_frames hn
    rw [hfr]; exact Nat.le_succ_of_le hw.windowQueued
  seqInOrder := by
    intro j hj
    have hj' : j < (win s).toNat := hj
    have := hw.windowQueued
    rw [queuedSlot_fifoPush h hf hn id payload (by omega), if_neg (by omega)]
    exact hw.seqInOrder j hj'

/-! ### The memories -/

/-- Where a payload byte of a queued frame lies, counted back from the ring's tail, and that a push does not write there:
"the write never touches a byte that belongs to a queued frame" (rule R137). -/
theorem ring_fifoPush_queued {s : State} (hf : FifoInv s) (id : Ident) (payload : List Byte)
    (hr : s.tp.ringUsed + payload.length ≤ s.cfg.ringSize) {j i : Nat} (hj : j < s.tp.nFrames)
    (hi : i < (queuedSlot s j).len.toNat) :
    (fifoPush id payload s).tp.ring.read (ringIndex s.cfg ((queuedSlot s j).off + i)) =
      s.tp.ring.read (ringIndex s.cfg ((queuedSlot s j).off + i)) := by
  refine ringWrite_read_other s.cfg _ _ fun p hp e => ?_
  have hL := hf.payloadsEndAtTail j hj
  have hle : lensFrom s j (s.tp.nFrames - j) ≤ s.tp.ringUsed := by
    rw [hf.usedIsSum]
    have := lensFrom_add s 0 j (s.tp.nFrames - j)
    rw [show j + (s.tp.nFrames - j) = s.tp.nFrames by omega, Nat.zero_add] at this
    omega
  have hlt : (queuedSlot s j).len.toNat ≤ lensFrom s j (s.tp.nFrames - j) := by
    obtain ⟨n, hn⟩ : ∃ n, s.tp.nFrames - j = n + 1 := ⟨s.tp.nFrames - j - 1, by omega⟩
    rw [hn, lensFrom]; omega
  generalize lensFrom s j (s.tp.nFrames - j) = L at *
  generalize (queuedSlot s j).len.toNat = n at *
  generalize (queuedSlot s j).off = off at *
  rw [← hL, ringIndex_ringIndex_add] at e
  simp only [ringIndex_eq_mod] at e
  have h1 : (off + i) ≡ (off + (L + p)) [MOD s.cfg.ringSize] := by rw [← Nat.add_assoc]; exact e
  have h2 : i ≡ (L + p) [MOD s.cfg.ringSize] := Nat.ModEq.add_left_cancel' off h1
  have h3 : i = L + p := by
    have a1 : i < s.cfg.ringSize := by omega
    have a2 : L + p < s.cfg.ringSize := by omega
    simpa [Nat.ModEq, Nat.mod_eq_of_lt a1, Nat.mod_eq_of_lt a2] using h2
  omega

/-- The bytes a ring write puts down read back, when they are not more than the ring holds. -/
theorem ringWrite_read (c : Config) {m : Memory} (hm : m.wf = true) (pos : Nat) (bytes : List Byte)
    (hb : bytes.length ≤ c.ringSize) {i : Nat} (hi : i < bytes.length) :
    (ringWrite c m pos bytes).read (ringIndex c (pos + i)) = bytes[i] := by
  induction bytes generalizing m pos i with
  | nil => simp at hi
  | cons b bytes ih =>
    rw [ringWrite]
    cases i with
    | zero =>
      rw [ringWrite_read_other]
      · simpa using Memory.read_write_eq hm (ringIndex c pos) b
      · intro p hp e
        simp only [ringIndex_eq_mod, Nat.add_zero] at e
        have h1 : (pos + 0) ≡ (pos + (1 + p)) [MOD c.ringSize] := by rw [← Nat.add_assoc]; simpa [Nat.ModEq] using e
        have h2 := Nat.ModEq.add_left_cancel' pos h1
        simp only [List.length_cons] at hb
        have a2 : 1 + p < c.ringSize := by omega
        have h3 : 0 = 1 + p := by simpa [Nat.ModEq, Nat.mod_eq_of_lt a2, Nat.mod_eq_of_lt c.ringSize_pos] using h2
        omega
    | succ i =>
      have := ih (Memory.wf_write hm (ringIndex c pos) b) (pos + 1) (by simp only [List.length_cons] at hb; omega)
        (i := i) (by simpa using hi)
      rw [show pos + (i + 1) = pos + 1 + i by omega, this]
      simp

theorem MemInv.fifoPush {s : State} (hm : MemInv s) (hf : FifoInv s) (id : Ident) (payload : List Byte) :
    MemInv (fifoPush id payload s) where
  bufWf := hm.bufWf
  bufInside := hm.bufInside
  ringWf := ringWrite_wf _ _ _ hm.ringWf
  ringInside := ringWrite_inside _ _ _ hm.ringInside
  slotsWf := Slots.wf_write hm.slotsWf _ _
  slotsInside := Slots.inside_write hm.slotsInside (by rw [hf.tailFollows]; exact fifoIndex_lt _ _) _

theorem sendFrame_slots (k : Nat) (s : State) :
    ∃ v, (sendFrame k s).tp.slots = s.tp.slots.write k v := by
  have he := emitFrame_slot k s
  unfold sendFrame
  simp only [setSlot_tp_slots, he.tp]
  exact ⟨_, rfl⟩

/-- A send to a slot that exists keeps the memories inside their size. -/
theorem MemInv.sendFrame {s : State} (hm : MemInv s) {k : Nat} (hk : k < s.cfg.fifoSlots) : MemInv (sendFrame k s) := by
  have h := sendFrame_sentOnly k s
  refine ⟨?_, ?_, ?_, ?_, h.slotsWf hm.slotsWf, ?_⟩
  · rw [h.dec]; exact hm.bufWf
  · rw [h.dec, h.cfg]; exact hm.bufInside
  · rw [h.ring]; exact hm.ringWf
  · rw [h.ring, h.cfg]; exact hm.ringInside
  · obtain ⟨v, hv⟩ := sendFrame_slots k s
    rw [hv, h.cfg]; exact Slots.inside_write hm.slotsInside hk _

theorem MemInv.drop {s : State} (hm : MemInv s) (e : Event) : MemInv (drop e s) :=
  ⟨hm.bufWf, hm.bufInside, hm.ringWf, hm.ringInside, hm.slotsWf, hm.slotsInside⟩

theorem MemInv.emitted {l : List Byte} {s t : State} (hm : MemInv s) (h : Emitted l s t) : MemInv t := by
  refine ⟨?_, ?_, ?_, ?_, ?_, ?_⟩
  · rw [h.dec]; exact hm.bufWf
  · rw [h.dec, h.cfg]; exact hm.bufInside
  · rw [h.tp]; exact hm.ringWf
  · rw [h.tp, h.cfg]; exact hm.ringInside
  · rw [h.tp]; exact hm.slotsWf
  · rw [h.tp, h.cfg]; exact hm.slotsInside

theorem MemInv.sendAck {s : State} (hm : MemInv s) : MemInv (sendAck s) := by
  unfold Machine.sendAck
  split
  · have := hm.emitted (emitFrame_ack s)
    exact ⟨this.bufWf, this.bufInside, this.ringWf, this.ringInside, this.slotsWf, this.slotsInside⟩
  · exact hm.drop _

theorem MemInv.sendReset {s : State} (hm : MemInv s) : MemInv (sendReset s) := by
  unfold Machine.sendReset
  split
  · exact hm.emitted (emitFrame_reset s)
  · exact hm.drop _

theorem MemInv.resendSlot {s : State} (hm : MemInv s) {k : Nat} (hk : k < s.cfg.fifoSlots) : MemInv (resendSlot k s) := by
  unfold Machine.resendSlot
  split
  · exact hm.sendFrame hk
  · exact hm.drop _

theorem MemInv.resendFrom {s : State} (hm : MemInv s) (n j : Nat) : MemInv (resendFrom n j s) := by
  induction n generalizing s j with
  | zero => exact hm
  | succ n ih => exact ih (hm.resendSlot (fifoIndex_lt _ _)) (j + 1)

theorem MemInv.fifoPops {s : State} (hm : MemInv s) (n : Nat) : MemInv (fifoPops n s) := by
  rw [fifoPops_frame]
  exact ⟨hm.bufWf, hm.bufInside, hm.ringWf, hm.ringInside, hm.slotsWf, hm.slotsInside⟩

end Sys2Proof.Machine
end

