-- ==== Sys2Proof/Laws/Receiver.lean ====
section
/-! SUPPORT. What the handlers and the decoder can do: the fields no received byte changes, and that from a sound state
every byte runs to a sound state (20_memory.md rule R54, 42_decoder.md, 60_exceptions.md rule R178). -/

namespace Sys2Proof.Machine

/-! ### Outcomes -/

theorem andThen_next {o : Result} {f : State → Result} {t : State} (h : andThen o f = .next t) :
    ∃ u, o = .next u ∧ f u = .next t := by
  cases o with
  | next u => exact ⟨u, rfl, h⟩
  | fault r => cases h
  | refused r => cases h

/-! ### What nothing inside a host operation changes -/

/-- The constants, the clock, the inputs, the port and the returned value are the same, and the output streams have
only grown (rules R28, R32, R33, R45). -/
structure Keeps (s t : State) : Prop where
  cfg : t.cfg = s.cfg
  now : t.now = s.now
  drawn : t.drawn = s.drawn
  timeMs : t.io.timeMs = s.io.timeMs
  ret : t.io.ret = s.io.ret
  port : t.io.port = s.io.port
  txOut : s.io.txOut <+: t.io.txOut
  appOut : s.io.appOut <+: t.io.appOut

theorem Keeps.refl (s : State) : Keeps s s := ⟨rfl, rfl, rfl, rfl, rfl, rfl, List.prefix_rfl, List.prefix_rfl⟩

theorem Keeps.trans {s t u : State} (h : Keeps s t) (h' : Keeps t u) : Keeps s u :=
  ⟨h'.cfg.trans h.cfg, h'.now.trans h.now, h'.drawn.trans h.drawn, h'.timeMs.trans h.timeMs, h'.ret.trans h.ret,
    h'.port.trans h.port, h.txOut.trans h'.txOut, h.appOut.trans h'.appOut⟩

/-- An update of fields `Keeps` does not name keeps them. -/
theorem Keeps.of_eq {s t : State} (h : t.cfg = s.cfg) (h' : t.now = s.now) (h'' : t.drawn = s.drawn)
    (hio : t.io = s.io) : Keeps s t :=
  ⟨h, h', h'', by rw [hio], by rw [hio], by rw [hio], by rw [hio], by rw [hio]⟩

theorem Emitted.keeps {l : List Byte} {s t : State} (h : Emitted l s t) : Keeps s t :=
  ⟨h.cfg, h.now, h.drawn, h.timeMs, h.ret, h.port, ⟨l, h.txOut.symm⟩, by rw [h.appOut]⟩

theorem drop_keeps (e : Event) (s : State) : Keeps s (drop e s) :=
  ⟨rfl, rfl, rfl, rfl, rfl, rfl, List.prefix_rfl, List.prefix_rfl⟩

theorem goto_keeps (st : RxState) (s : State) : Keeps s (goto st s) :=
  Keeps.of_eq rfl rfl rfl rfl

theorem sendFrame_keeps (k : Nat) (s : State) : Keeps s (sendFrame k s) := by
  have he := emitFrame_slot k s
  unfold sendFrame
  exact he.keeps.trans (Keeps.of_eq rfl rfl rfl rfl)

theorem sendAck_keeps (s : State) : Keeps s (sendAck s) := by
  unfold sendAck
  split
  · exact (emitFrame_ack s).keeps.trans (Keeps.of_eq rfl rfl rfl rfl)
  · exact drop_keeps _ _

theorem sendReset_keeps (s : State) : Keeps s (sendReset s) := by
  unfold sendReset
  split
  · exact (emitFrame_reset s).keeps
  · exact drop_keeps _ _

theorem resendSlot_keeps (k : Nat) (s : State) : Keeps s (resendSlot k s) := by
  unfold resendSlot
  split
  · exact sendFrame_keeps k s
  · exact drop_keeps _ _

theorem resendFrom_keeps (n j : Nat) (s : State) : Keeps s (resendFrom n j s) := by
  induction n generalizing s j with
  | zero => exact Keeps.refl s
  | succ n ih => exact (resendSlot_keeps _ s).trans (ih _ _)

theorem fifoPops_keeps (n : Nat) (s : State) : Keeps s (fifoPops n s) := by
  rw [fifoPops_frame]; exact Keeps.of_eq rfl rfl rfl rfl

theorem tpClear_keeps (s : State) : Keeps s (tpClear s) := Keeps.of_eq rfl rfl rfl rfl

theorem deliver_eq {id : Ident} {s t : State} (h : deliver id s = .next t) :
    s.dec.len.toNat ≤ s.cfg.maxPayload ∧
      t = { s with io.appOut := s.io.appOut ++ [⟨id, s.dec.len, rxBytes s.dec.len.toNat s⟩] } := by
  unfold deliver at h
  split at h
  · next hl => exact ⟨hl, by cases h; rfl⟩
  · cases h

theorem deliver_next {id : Ident} {s : State} (h : s.dec.len.toNat ≤ s.cfg.maxPayload) :
    deliver id s = .next { s with io.appOut := s.io.appOut ++ [⟨id, s.dec.len, rxBytes s.dec.len.toNat s⟩] } :=
  if_pos h

theorem deliver_keeps {id : Ident} {s t : State} (h : deliver id s = .next t) : Keeps s t := by
  obtain ⟨-, rfl⟩ := deliver_eq h
  exact ⟨rfl, rfl, rfl, rfl, rfl, rfl, List.prefix_rfl, List.prefix_append _ _⟩

/-! ### The handlers, case by case -/

/-- Everything `H_ACK` can do (rule R155). -/
theorem execHAck_cases (s : State) :
    ((acked s).toNat ≤ (win s).toNat ∧ 0 < s.tp.nFrames ∧
      execHAck s = .next (resendFrom (min (nacked s).toNat ((win s).toNat - (acked s).toNat)) 0
        (fifoPops (acked s).toNat { s with tp.snMin := s.dec.seq }))) ∨
    ((win s).toNat < (acked s).toNat ∧
      execHAck s =
        .next (drop (.spuriousAck s.dec.seq) { s with tp.spuriousAcks := s.tp.spuriousAcks + 1#32 })) ∨
    ((acked s).toNat ≤ (win s).toNat ∧ s.tp.nFrames = 0 ∧ execHAck s = .next s) := by
  unfold execHAck
  by_cases h1 : (acked s).toNat ≤ (win s).toNat
  · by_cases h2 : 0 < s.tp.nFrames
    · exact .inl ⟨h1, h2, if_pos ⟨h1, h2⟩⟩
    · exact .inr (.inr ⟨h1, by omega, by rw [if_neg (fun h => h2 h.2), if_neg (by omega)]⟩)
  · exact .inr (.inl ⟨by omega, by rw [if_neg (fun h => h1 h.1), if_pos (by omega)]⟩)

theorem execHAck_keeps {s t : State} (h : execHAck s = .next t) : Keeps s t := by
  rcases execHAck_cases s with ⟨-, -, h'⟩ | ⟨-, h'⟩ | ⟨-, -, h'⟩ <;> rw [h] at h' <;> cases h'
  · exact (Keeps.of_eq rfl rfl rfl rfl : Keeps s { s with tp.snMin := s.dec.seq }).trans
      ((fifoPops_keeps _ _).trans (resendFrom_keeps _ _ _))
  · exact ⟨rfl, rfl, rfl, rfl, rfl, rfl, List.prefix_rfl, List.prefix_rfl⟩
  · exact Keeps.refl _

theorem execHReset_keeps {s t : State} (h : execHReset s = .next t) : Keeps s t := by
  cases h; exact ⟨rfl, rfl, rfl, rfl, rfl, rfl, List.prefix_rfl, List.prefix_rfl⟩

/-- Everything `H_APP` can do (rule R152). -/
theorem execHApp_cases (r : Bool) (id : Ident) (s : State) :
    (s.dec.seq = s.tp.rn ∧
      execHApp r id s =
        deliver id (sendAck { s with tp.lastRxFrame := s.now, tp.rn := s.tp.rn + 1#8 })) ∨
    (s.dec.seq ≠ s.tp.rn ∧
      execHApp r id s = .next (drop (.seqMismatch s.dec.seq s.tp.rn)
        { s with tp.lastRxFrame := s.now, tp.seqMismatchDrops := s.tp.seqMismatchDrops + 1#32 })) := by
  by_cases h : s.dec.seq = s.tp.rn
  · exact .inl ⟨h, if_pos h⟩
  · exact .inr ⟨h, if_neg h⟩

theorem execHApp_keeps {r : Bool} {id : Ident} {s t : State} (h : execHApp r id s = .next t) : Keeps s t := by
  rcases execHApp_cases r id s with ⟨-, h'⟩ | ⟨-, h'⟩ <;> rw [h] at h'
  · exact (Keeps.of_eq rfl rfl rfl rfl :
      Keeps s { s with tp.lastRxFrame := s.now, tp.rn := s.tp.rn + 1#8 }).trans
        ((sendAck_keeps _).trans (deliver_keeps h'.symm))
  · cases h'; exact ⟨rfl, rfl, rfl, rfl, rfl, rfl, List.prefix_rfl, List.prefix_rfl⟩

/-- The handler a frame selects (rules R71, R124). -/
theorem execDispatch_cases (s : State) :
    (s.dec.ctrl = 0xFF#8 ∧ execDispatch s = execHAck s) ∨
    (s.dec.ctrl = 0xFE#8 ∧ execDispatch s = execHReset s) ∨
    (s.dec.ctrl ≠ 0xFF#8 ∧ s.dec.ctrl ≠ 0xFE#8 ∧ controlT s.dec.ctrl = true ∧
      execDispatch s = execHApp (controlR s.dec.ctrl) (controlId s.dec.ctrl) s) ∨
    (controlT s.dec.ctrl = false ∧ execDispatch s = execHNontp (controlR s.dec.ctrl) (controlId s.dec.ctrl) s) := by
  unfold execDispatch
  by_cases h1 : s.dec.ctrl = ctrlAck
  · exact .inl ⟨h1, if_pos h1⟩
  · by_cases h2 : s.dec.ctrl = ctrlReset
    · exact .inr (.inl ⟨h2, by rw [if_neg h1, if_pos h2]⟩)
    · by_cases h3 : controlT s.dec.ctrl = true
      · exact .inr (.inr (.inl ⟨h1, h2, h3, by rw [if_neg h1, if_neg h2, if_pos h3]⟩))
      · exact .inr (.inr (.inr ⟨by simpa using h3, by rw [if_neg h1, if_neg h2, if_neg h3]⟩))

theorem execDispatch_keeps {s t : State} (h : execDispatch s = .next t) : Keeps s t := by
  rcases execDispatch_cases s with ⟨-, h'⟩ | ⟨-, h'⟩ | ⟨-, -, -, h'⟩ | ⟨-, h'⟩ <;> rw [h] at h'
  · exact execHAck_keeps h'.symm
  · exact execHReset_keeps h'.symm
  · exact execHApp_keeps h'.symm
  · exact deliver_keeps h'.symm

/-! ### The rows -/

/-- A row that is not the end-marker row changes the decoder's fields and `rx_crc` only, and may note an event. -/
structure DecOnly (s t : State) : Prop where
  frame : t = { s with crc.rx := t.crc.rx, dec := t.dec, io.trace := t.io.trace }

theorem DecOnly.keeps {s t : State} (h : DecOnly s t) : Keeps s t := by
  rw [h.frame]; exact ⟨rfl, rfl, rfl, rfl, rfl, rfl, List.prefix_rfl, List.prefix_rfl⟩

theorem rxSpecial_decOnly {b : Byte} {s t : State} (h : rxSpecial b s = .next t) : DecOnly s t := by
  unfold rxSpecial at h
  split at h
  · unfold execRxResync at h
    simp only at h
    split at h <;> cases h <;> exact ⟨rfl⟩
  · split at h <;> cases h <;> exact ⟨rfl⟩

/-- Every row but the last. -/
theorem rxRow_decOnly {b : Byte} {s t : State} (hs : s.dec.state ≠ .eof) (h : rxRow b s = .next t) : DecOnly s t := by
  unfold rxRow at h
  split at h
  · cases h; exact ⟨rfl⟩
  · unfold execRxCtrl at h
    simp only at h
    split at h <;> cases h <;> exact ⟨rfl⟩
  · cases h; exact ⟨rfl⟩
  · unfold execRxLen at h
    simp only at h
    split at h
    · cases h; exact ⟨rfl⟩
    · split at h <;> cases h <;> exact ⟨rfl⟩
  · unfold execRxPay at h
    simp only at h
    split at h
    · split at h <;> cases h <;> exact ⟨rfl⟩
    · cases h
  · cases h; exact ⟨rfl⟩
  · cases h; exact ⟨rfl⟩
  · cases h; exact ⟨rfl⟩
  · unfold execRxC0 at h
    simp only at h
    split at h <;> cases h <;> exact ⟨rfl⟩
  · next he => exact absurd he hs

/-- `RXBYTE` when the pre-check's special branch takes the byte (rules R110, R111). -/
theorem execRxbyte_special {b : Byte} {s : State} (h : s.dec.hdrCnt = .two) :
    execRxbyte b s = rxSpecial b (noteArrival s) := if_pos h

/-- `RXBYTE` when a row takes the byte (rules R110, R112). -/
theorem execRxbyte_row {b : Byte} {s : State} (h : s.dec.hdrCnt ≠ .two) :
    execRxbyte b s = rxRow b (setHdr (countHeader b s.dec.hdrCnt) (noteArrival s)) := if_neg h

/-- The end-marker row is the row of `S_EOF`. -/
theorem rxRow_eof {b : Byte} {s : State} (h : s.dec.state = .eof) : rxRow b s = execRxEof b s := by
  unfold rxRow; rw [h]

/-- Everything `RXBYTE` can do (rule R110): a byte the pre-check or a row before the last takes, or the end-marker row
with a bad marker, changes only the decoder and the arrival time; or a frame is handed over. -/
theorem execRxbyte_cases {b : Byte} {s t : State} (h : execRxbyte b s = .next t) :
    (t = { s with crc.rx := t.crc.rx, dec := t.dec, tp.lastRxAny := s.now, io.trace := t.io.trace }) ∨
    (s.dec.hdrCnt ≠ .two ∧ s.dec.state = .eof ∧ b = 0x55#8 ∧
      execDispatch { s with tp.lastRxAny := s.now, dec.hdrCnt := .zero, dec.state := .sof } = .next t) := by
  by_cases hc : s.dec.hdrCnt = .two
  · rw [execRxbyte_special hc] at h
    exact .inl (rxSpecial_decOnly h).frame
  · rw [execRxbyte_row hc] at h
    by_cases he : s.dec.state = .eof
    · have hr := rxRow_eof (b := b) (s := setHdr (countHeader b s.dec.hdrCnt) (noteArrival s)) he
      rw [hr] at h
      unfold execRxEof at h
      split at h
      · next hb =>
        refine .inr ⟨hc, he, hb, ?_⟩
        have : countHeader b s.dec.hdrCnt = .zero := by
          subst hb; cases hh : s.dec.hdrCnt <;> rfl
        rw [this] at h
        exact h
      · cases h; exact .inl rfl
    · exact .inl (rxRow_decOnly (by exact he) h).frame

theorem execRxbyte_keeps {b : Byte} {s t : State} (h : execRxbyte b s = .next t) : Keeps s t := by
  rcases execRxbyte_cases h with h' | ⟨-, -, -, h'⟩
  · rw [h']; exact ⟨rfl, rfl, rfl, rfl, rfl, rfl, List.prefix_rfl, List.prefix_rfl⟩
  · exact (Keeps.of_eq rfl rfl rfl rfl :
      Keeps s { s with tp.lastRxAny := s.now, dec.hdrCnt := .zero, dec.state := .sof }).trans (execDispatch_keeps h')

theorem rxList_keeps {bytes : List Byte} {s t : State} (h : rxList bytes s = .next t) : Keeps s t := by
  induction bytes generalizing s with
  | nil => cases h; exact Keeps.refl _
  | cons b bytes ih =>
    obtain ⟨u, hu, hut⟩ := andThen_next h
    exact (execRxbyte_keeps hu).trans (ih hut)

/-! ### The operations the statements name -/

theorem exec_specialOp (b : Byte) (s : State) : exec (specialOp b) s = rxSpecial b s := by
  unfold specialOp rxSpecial headerByte stuffByte
  split
  · rfl
  · split <;> rfl

theorem exec_rowOp (b : Byte) (s : State) : exec (rowOp s.dec.state b) s = rxRow b s := by
  unfold rxRow
  cases s.dec.state <;> rfl

theorem exec_handlerOp (s : State) : exec (handlerOp s.dec.ctrl) s = execDispatch s := by
  unfold handlerOp execDispatch ctrlAck ctrlReset controlT
  split
  · rfl
  · split
    · rfl
    · split <;> rfl

/-- No handler touches the decoder: "the decoder is already back in `S_SOF`" (rule R186). -/
theorem execDispatch_dec {s t : State} (h : execDispatch s = .next t) : t.dec = s.dec := by
  rcases execDispatch_cases s with ⟨-, h'⟩ | ⟨-, h'⟩ | ⟨-, -, -, h'⟩ | ⟨-, h'⟩ <;> rw [h] at h'
  · rcases execHAck_cases s with ⟨-, -, h''⟩ | ⟨-, h''⟩ | ⟨-, -, h''⟩ <;> rw [h''] at h' <;> cases h'
    · rw [(resendFrom_sentOnly _ _ _).dec, fifoPops_frame]
    · rfl
    · rfl
  · cases h'; rfl
  · rcases execHApp_cases (controlR s.dec.ctrl) (controlId s.dec.ctrl) s with ⟨-, h''⟩ | ⟨-, h''⟩ <;> rw [h''] at h'
    · obtain ⟨-, rfl⟩ := deliver_eq h'.symm
      exact (sendAck_sentOnly _).dec
    · cases h'; rfl
  · obtain ⟨-, rfl⟩ := deliver_eq h'.symm
    rfl

/-- With a length the decoder accepts, a handler always runs to its end. -/
theorem execDispatch_next {s : State} (h : s.dec.len.toNat ≤ s.cfg.maxPayload) : ∃ t, execDispatch s = .next t := by
  rcases execDispatch_cases s with ⟨-, h'⟩ | ⟨-, h'⟩ | ⟨-, -, -, h'⟩ | ⟨-, h'⟩ <;> rw [h']
  · rcases execHAck_cases s with ⟨-, -, h'⟩ | ⟨-, h'⟩ | ⟨-, -, h'⟩ <;> exact ⟨_, h'⟩
  · exact ⟨_, rfl⟩
  · rcases execHApp_cases (controlR s.dec.ctrl) (controlId s.dec.ctrl) s with ⟨-, h'⟩ | ⟨-, h'⟩ <;> rw [h']
    · have h2 := sendAck_sentOnly { s with tp.lastRxFrame := s.now, tp.rn := s.tp.rn + 1#8 }
      exact ⟨_, deliver_next (by rw [h2.dec, h2.cfg]; exact h)⟩
    · exact ⟨_, rfl⟩
  · exact ⟨_, deliver_next h⟩

/-! ### Sound states -/

/-- The invariant of a run without what it says of the host's requests. -/
structure Sound (s : State) : Prop where
  dec : DecInv s
  fifo : FifoInv s
  window : WindowInv s
  mem : MemInv s

theorem inv_iff {s : State} : Inv s ↔ Sound s ∧ HostPort s :=
  ⟨fun h => ⟨⟨h.dec, h.fifo, h.window, h.mem⟩, h.port⟩, fun h => ⟨h.1.dec, h.1.fifo, h.1.window, h.1.mem, h.2⟩⟩

/-- A state that differs in nothing the invariants read. -/
theorem Sound.congr {s t : State} (h : Sound s) (hc : t.cfg = s.cfg) (hd : t.dec = s.dec)
    (hmin : t.tp.snMin = s.tp.snMin) (hmax : t.tp.snMax = s.tp.snMax) (hhead : t.tp.fifoHead = s.tp.fifoHead)
    (htail : t.tp.fifoTail = s.tp.fifoTail) (hn : t.tp.nFrames = s.tp.nFrames) (hrt : t.tp.ringTail = s.tp.ringTail)
    (hru : t.tp.ringUsed = s.tp.ringUsed) (hs : t.tp.slots = s.tp.slots) (hr : t.tp.ring = s.tp.ring) : Sound t := by
  have hq : ∀ j, queuedSlot t j = queuedSlot s j := fun j => by
    simp only [queuedSlot, queuedIndex, slotAt, hc, hhead, hs]
  have hw : win t = win s := by simp only [win, hmin, hmax]
  refine ⟨⟨?_, ?_, ?_⟩, h.fifo.of_same ⟨hc, hhead, htail, hn, hrt, hru, fun j _ => by rw [hq], fun j _ => by rw [hq]⟩,
    ⟨?_, ?_, ?_⟩, ⟨?_, ?_, ?_, ?_, ?_, ?_⟩⟩
  · rw [hd]; exact h.dec.cntFresh
  · rw [hd]; exact h.dec.payRoom
  · rw [hd, hc]; exact h.dec.lenFits
  · rw [hw, hc]; exact h.window.windowFits
  · rw [hw, hn]; exact h.window.windowQueued
  · intro j hj; rw [hq, hmin]; exact h.window.seqInOrder j (by rwa [hw] at hj)
  · rw [hd]; exact h.mem.bufWf
  · rw [hd, hc]; exact h.mem.bufInside
  · rw [hr]; exact h.mem.ringWf
  · rw [hr, hc]; exact h.mem.ringInside
  · rw [hs]; exact h.mem.slotsWf
  · rw [hs, hc]; exact h.mem.slotsInside

/-- A send from a sound state, given that it keeps the memories inside their size. -/
theorem Sound.sent {s t : State} (h : Sound s) (hs : SentOnly s t) (hm : MemInv t) : Sound t where
  dec := by
    have := h.dec
    exact ⟨by rw [hs.dec]; exact this.cntFresh, by rw [hs.dec]; exact this.payRoom,
      by rw [hs.dec, hs.cfg]; exact this.lenFits⟩
  fifo := h.fifo.of_same (hs.sameQueue h.mem.slotsWf)
  window := hs.windowInv h.mem.slotsWf h.window
  mem := hm

theorem Sound.drop {s : State} (h : Sound s) (e : Event) : Sound (drop e s) :=
  h.congr rfl rfl rfl rfl rfl rfl rfl rfl rfl rfl rfl

theorem Sound.sendAck {s : State} (h : Sound s) : Sound (sendAck s) :=
  h.sent (sendAck_sentOnly s) h.mem.sendAck

theorem Sound.sendReset {s : State} (h : Sound s) : Sound (sendReset s) :=
  h.sent (sendReset_sentOnly s) h.mem.sendReset

theorem Sound.resendSlot {s : State} (h : Sound s) {k : Nat} (hk : k < s.cfg.fifoSlots) : Sound (resendSlot k s) :=
  h.sent (resendSlot_sentOnly k s) (h.mem.resendSlot hk)

theorem Sound.resendFrom {s : State} (h : Sound s) (n j : Nat) : Sound (resendFrom n j s) :=
  h.sent (resendFrom_sentOnly n j s) (h.mem.resendFrom n j)

/-- An empty queue and an empty window meet the queue invariants. -/
theorem FifoInv.empty {s : State} (hh : s.tp.fifoHead = 0) (ht : s.tp.fifoTail = 0) (hn : s.tp.nFrames = 0)
    (hrt : s.tp.ringTail = 0) (hru : s.tp.ringUsed = 0) : FifoInv s := by
  refine ⟨?_, ?_, ?_, ?_, ?_, ?_, ?_, ?_⟩
  · rw [hn]; exact Nat.zero_le _
  · rw [hh]; exact s.cfg.fifoSlots_pos
  · rw [hh, hn, ht, fifoIndex_of_lt s.cfg.fifoSlots_pos]
  · rw [hrt]; exact s.cfg.ringSize_pos
  · rw [hru]; exact Nat.zero_le _
  · rw [hn, hru]; rfl
  · intro j hj; rw [hn] at hj; exact absurd hj (Nat.not_lt_zero _)
  · intro j hj; rw [hn] at hj; exact absurd hj (Nat.not_lt_zero _)

theorem WindowInv.empty {s : State} (h : s.tp.snMin = s.tp.snMax) : WindowInv s := by
  have hw : (Machine.win s).toNat = 0 := by simp [Machine.win, h]
  exact ⟨by rw [hw]; exact Nat.zero_le _, by rw [hw]; exact Nat.zero_le _,
    fun j hj => by rw [hw] at hj; exact absurd hj (Nat.not_lt_zero _)⟩

theorem Sound.tpClear {s : State} (h : Sound s) : Sound (tpClear s) where
  dec := ⟨h.dec.cntFresh, h.dec.payRoom, h.dec.lenFits⟩
  fifo := FifoInv.empty rfl rfl rfl rfl rfl
  window := WindowInv.empty rfl
  mem := ⟨h.mem.bufWf, h.mem.bufInside, h.mem.ringWf, h.mem.ringInside, h.mem.slotsWf, h.mem.slotsInside⟩

/-- Releasing the acknowledged frames (rules R154, R155): `sn_min` advances and as many frames leave the head. -/
theorem Sound.acked {s : State} (h : Sound s) (ha : (acked s).toNat ≤ (win s).toNat) :
    Sound (fifoPops (acked s).toNat { s with tp.snMin := s.dec.seq }) := by
  have hle : (Machine.acked s).toNat ≤ s.tp.nFrames := Nat.le_trans ha h.window.windowQueued
  have hf : FifoInv { s with tp.snMin := s.dec.seq } :=
    h.fifo.of_same ⟨rfl, rfl, rfl, rfl, rfl, rfl, fun _ _ => rfl, fun _ _ => rfl⟩
  have hm : MemInv { s with tp.snMin := s.dec.seq } :=
    ⟨h.mem.bufWf, h.mem.bufInside, h.mem.ringWf, h.mem.ringInside, h.mem.slotsWf, h.mem.slotsInside⟩
  have hwin : (Machine.win (fifoPops (Machine.acked s).toNat { s with tp.snMin := s.dec.seq })).toNat =
      (Machine.win s).toNat - (Machine.acked s).toNat := by
    have : Machine.win (fifoPops (Machine.acked s).toNat { s with tp.snMin := s.dec.seq }) =
        s.tp.snMax - s.dec.seq := by rw [fifoPops_frame]; rfl
    rw [this]
    simp only [Machine.acked, Machine.win, BitVec.toNat_sub] at ha ⊢
    omega
  have hn : (fifoPops (Machine.acked s).toNat { s with tp.snMin := s.dec.seq }).tp.nFrames =
      s.tp.nFrames - (Machine.acked s).toNat := by
    rw [fifoPops_eq hf hle]
  refine ⟨?_, hf.fifoPops hle, ⟨?_, ?_, ?_⟩, hm.fifoPops _⟩
  · rw [fifoPops_frame]; exact ⟨h.dec.cntFresh, h.dec.payRoom, h.dec.lenFits⟩
  · rw [hwin, fifoPops_cfg]; exact Nat.le_trans (Nat.sub_le _ _) h.window.windowFits
  · rw [hwin, hn]; have := h.window.windowQueued; omega
  · intro j hj
    rw [hwin] at hj
    rw [queuedSlot_fifoPops]
    have h1 := h.window.seqInOrder (j + (Machine.acked s).toNat) (by omega)
    have h2 : queuedSlot { s with tp.snMin := s.dec.seq } (j + (Machine.acked s).toNat) =
        queuedSlot s (j + (Machine.acked s).toNat) := rfl
    have h3 : (fifoPops (Machine.acked s).toNat { s with tp.snMin := s.dec.seq }).tp.snMin = s.dec.seq := by
      rw [fifoPops_frame]
    rw [h2, h1, h3]
    apply BitVec.eq_of_toNat_eq
    simp only [Machine.acked, BitVec.toNat_add, BitVec.toNat_sub, BitVec.toNat_ofNat]
    omega

theorem execHAck_sound {s : State} (h : Sound s) : ∃ t, execHAck s = .next t ∧ Sound t := by
  rcases execHAck_cases s with ⟨h1, -, h'⟩ | ⟨-, h'⟩ | ⟨-, -, h'⟩
  · exact ⟨_, h', (h.acked h1).resendFrom _ _⟩
  · exact ⟨_, h', (h.congr rfl rfl rfl rfl rfl rfl rfl rfl rfl rfl rfl :
      Sound { s with tp.spuriousAcks := s.tp.spuriousAcks + 1#32 }).drop _⟩
  · exact ⟨_, h', h⟩

theorem execHReset_sound {s : State} (h : Sound s) : ∃ t, execHReset s = .next t ∧ Sound t :=
  ⟨_, rfl, ((h.congr rfl rfl rfl rfl rfl rfl rfl rfl rfl rfl rfl :
    Sound { s with tp.resetsReceived := s.tp.resetsReceived + 1#32 }).tpClear).drop _⟩

theorem deliver_sound {id : Ident} {s : State} (h : Sound s) (hl : s.dec.len.toNat ≤ s.cfg.maxPayload) :
    ∃ t, deliver id s = .next t ∧ Sound t :=
  ⟨_, deliver_next hl, h.congr rfl rfl rfl rfl rfl rfl rfl rfl rfl rfl rfl⟩

theorem execHApp_sound {r : Bool} {id : Ident} {s : State} (h : Sound s) (hl : s.dec.len.toNat ≤ s.cfg.maxPayload) :
    ∃ t, execHApp r id s = .next t ∧ Sound t := by
  rcases execHApp_cases r id s with ⟨-, h'⟩ | ⟨-, h'⟩
  · have h1 : Sound { s with tp.lastRxFrame := s.now, tp.rn := s.tp.rn + 1#8 } :=
      h.congr rfl rfl rfl rfl rfl rfl rfl rfl rfl rfl rfl
    have h2 := sendAck_sentOnly { s with tp.lastRxFrame := s.now, tp.rn := s.tp.rn + 1#8 }
    obtain ⟨t, ht, hs⟩ := deliver_sound (id := id) h1.sendAck (by rw [h2.dec, h2.cfg]; exact hl)
    exact ⟨t, h'.trans ht, hs⟩
  · exact ⟨_, h', (h.congr rfl rfl rfl rfl rfl rfl rfl rfl rfl rfl rfl :
      Sound { s with tp.lastRxFrame := s.now, tp.seqMismatchDrops := s.tp.seqMismatchDrops + 1#32 }).drop _⟩

theorem execDispatch_sound {s : State} (h : Sound s) (hl : s.dec.len.toNat ≤ s.cfg.maxPayload) :
    ∃ t, execDispatch s = .next t ∧ Sound t := by
  rcases execDispatch_cases s with ⟨-, h'⟩ | ⟨-, h'⟩ | ⟨-, -, -, h'⟩ | ⟨-, h'⟩ <;> rw [h']
  · exact execHAck_sound h
  · exact execHReset_sound h
  · exact execHApp_sound h hl
  · exact deliver_sound h hl

/-- A change of the decoder's fields alone leaves a sound state sound if the decoder's own invariant and memory hold. -/
theorem Sound.decOnly {s t : State} (h : Sound s) (ht : DecOnly s t) (hd : DecInv t) (hb : t.dec.buf.wf = true)
    (hi : storeInside s.cfg.maxPayload t.dec.buf = true) : Sound t := by
  refine ⟨hd, ?_, ?_, ?_⟩
  · rw [ht.frame]; exact h.fifo.of_same ⟨rfl, rfl, rfl, rfl, rfl, rfl, fun _ _ => rfl, fun _ _ => rfl⟩
  · rw [ht.frame]; exact ⟨h.window.windowFits, h.window.windowQueued, h.window.seqInOrder⟩
  · have := h.mem
    rw [ht.frame]
    exact ⟨hb, hi, this.ringWf, this.ringInside, this.slotsWf, this.slotsInside⟩

theorem DecInv.of_early {t : State} (h : t.dec.state = .sof ∨ t.dec.state = .ctrl) : DecInv t := by
  rcases h with h | h <;> constructor <;> simp [h]

/-- Every row but the last, from a sound state. -/
theorem rxRow_sound {b : Byte} {s : State} (h : Sound s) (hs : s.dec.state ≠ .eof) :
    ∃ t, rxRow b s = .next t ∧ Sound t := by
  have hd := h.dec
  have hm := h.mem
  unfold rxRow
  cases hst : s.dec.state <;> simp only
  case sof => exact ⟨s, rfl, h⟩
  case ctrl =>
    unfold execRxCtrl
    simp only
    split
    · exact ⟨_, rfl, h.decOnly ⟨rfl⟩ ⟨fun _ => rfl, nofun, by simp⟩ hm.bufWf hm.bufInside⟩
    · exact ⟨_, rfl, h.decOnly ⟨rfl⟩ ⟨fun _ => rfl, nofun, by simp⟩ hm.bufWf hm.bufInside⟩
  case seq =>
    exact ⟨_, rfl, h.decOnly ⟨rfl⟩ ⟨fun _ => hd.cntFresh (.inl hst), nofun, by simp [goto]⟩ hm.bufWf hm.bufInside⟩
  case len =>
    unfold execRxLen
    simp only
    split
    · next hb =>
      refine ⟨_, rfl, h.decOnly ⟨rfl⟩ ⟨by simp, by simp, fun _ => ?_⟩ hm.bufWf hm.bufInside⟩
      show b.toNat ≤ _
      rw [hb]; exact Nat.zero_le _
    · next hb =>
      split
      · next hb' =>
        refine ⟨_, rfl, h.decOnly ⟨rfl⟩ ⟨by simp, fun _ => ?_, fun _ => hb'⟩ hm.bufWf hm.bufInside⟩
        show s.dec.cnt.toNat < b.toNat
        rw [hd.cntFresh (.inr hst)]
        have : b.toNat ≠ 0 := fun e => hb (BitVec.eq_of_toNat_eq (by simpa using e))
        simp only [BitVec.toNat_ofNat]; omega
      · exact ⟨_, rfl, h.decOnly ⟨rfl⟩ (DecInv.of_early (.inl rfl)) hm.bufWf hm.bufInside⟩
  case pay =>
    have hroom := hd.payRoom hst
    have hfits := hd.lenFits (.inl hst)
    unfold execRxPay
    rw [if_pos (by omega)]
    simp only
    have hcnt : (s.dec.cnt + 1#8).toNat = s.dec.cnt.toNat + 1 := by
      have := s.dec.len.isLt
      simp only [BitVec.toNat_add, BitVec.toNat_ofNat]; omega
    have hwf := Memory.wf_write hm.bufWf s.dec.cnt.toNat b
    have hin : storeInside s.cfg.maxPayload (s.dec.buf.write s.dec.cnt.toNat b) = true :=
      Memory.inside_write hm.bufInside (by omega) b
    split
    · exact ⟨_, rfl, h.decOnly ⟨rfl⟩ ⟨by simp, by simp, fun _ => hfits⟩ hwf hin⟩
    · next hne =>
      refine ⟨_, rfl, h.decOnly ⟨rfl⟩ ⟨?_, fun _ => ?_, fun _ => hfits⟩ hwf hin⟩
      · intro he
        have : s.dec.state = .seq ∨ s.dec.state = .len := he
        rw [hst] at this; simp at this
      · show (s.dec.cnt + 1#8).toNat < s.dec.len.toNat
        have hne' : (s.dec.cnt + 1#8).toNat ≠ s.dec.len.toNat := fun e => hne (BitVec.eq_of_toNat_eq e)
        omega
  case c3 => exact ⟨_, rfl, h.decOnly ⟨rfl⟩ ⟨by simp [goto], by simp [goto], fun _ => hd.lenFits (by simp [hst])⟩ hm.bufWf hm.bufInside⟩
  case c2 => exact ⟨_, rfl, h.decOnly ⟨rfl⟩ ⟨by simp [goto], by simp [goto], fun _ => hd.lenFits (by simp [hst])⟩ hm.bufWf hm.bufInside⟩
  case c1 => exact ⟨_, rfl, h.decOnly ⟨rfl⟩ ⟨by simp [goto], by simp [goto], fun _ => hd.lenFits (by simp [hst])⟩ hm.bufWf hm.bufInside⟩
  case c0 =>
    unfold execRxC0
    simp only
    split
    · exact ⟨_, rfl, h.decOnly ⟨rfl⟩ ⟨by simp, by simp, fun _ => hd.lenFits (by simp [hst])⟩ hm.bufWf hm.bufInside⟩
    · exact ⟨_, rfl, h.decOnly ⟨rfl⟩ (DecInv.of_early (.inl rfl)) hm.bufWf hm.bufInside⟩
  case eof => exact absurd hst hs

theorem rxSpecial_sound {b : Byte} {s : State} (h : Sound s) : ∃ t, rxSpecial b s = .next t ∧ Sound t := by
  have hm := h.mem
  unfold rxSpecial
  split
  · unfold execRxResync
    simp only
    split
    · exact ⟨_, rfl, h.decOnly ⟨rfl⟩ (DecInv.of_early (.inr rfl)) hm.bufWf hm.bufInside⟩
    · exact ⟨_, rfl, h.decOnly ⟨rfl⟩ (DecInv.of_early (.inr rfl)) hm.bufWf hm.bufInside⟩
  · split
    · exact ⟨_, rfl, h.decOnly ⟨rfl⟩ ⟨h.dec.cntFresh, h.dec.payRoom, h.dec.lenFits⟩ hm.bufWf hm.bufInside⟩
    · exact ⟨_, rfl, h.decOnly ⟨rfl⟩ (DecInv.of_early (.inl rfl)) hm.bufWf hm.bufInside⟩

/-- "every byte value is acceptable input in every decoder state" (rule R178). -/
theorem execRxbyte_sound (b : Byte) {s : State} (h : Sound s) : ∃ t, execRxbyte b s = .next t ∧ Sound t := by
  have h1 : Sound (noteArrival s) := h.congr rfl rfl rfl rfl rfl rfl rfl rfl rfl rfl rfl
  by_cases hc : s.dec.hdrCnt = .two
  · rw [execRxbyte_special hc]; exact rxSpecial_sound h1
  · rw [execRxbyte_row hc]
    have h2 : Sound (setHdr (countHeader b s.dec.hdrCnt) (noteArrival s)) :=
      h1.decOnly ⟨rfl⟩ ⟨h.dec.cntFresh, h.dec.payRoom, h.dec.lenFits⟩ h.mem.bufWf h.mem.bufInside
    by_cases he : s.dec.state = .eof
    · rw [rxRow_eof (show (setHdr (countHeader b s.dec.hdrCnt) (noteArrival s)).dec.state = .eof from he)]
      unfold execRxEof
      have h3 : Sound (goto .sof (setHdr (countHeader b s.dec.hdrCnt) (noteArrival s))) :=
        h2.decOnly ⟨rfl⟩ (DecInv.of_early (.inl rfl)) h.mem.bufWf h.mem.bufInside
      split
      · exact execDispatch_sound h3 (h.dec.lenFits (by simp [he]))
      · exact ⟨_, rfl, h3.drop _⟩
    · exact rxRow_sound h2 (by exact he)

theorem rxList_sound (bytes : List Byte) {s : State} (h : Sound s) : ∃ t, rxList bytes s = .next t ∧ Sound t := by
  induction bytes generalizing s with
  | nil => exact ⟨s, rfl, h⟩
  | cons b bytes ih =>
    obtain ⟨u, hu, hsu⟩ := execRxbyte_sound b h
    obtain ⟨t, ht, hst⟩ := ih hsu
    exact ⟨t, by rw [rxList, hu]; exact ht, hst⟩

end Sys2Proof.Machine
end

