-- ==== Sys2Proof/Laws/HostOps.lean ====
section
/-! SUPPORT. The host operations (43_transport.md): what `POLL`'s steps do, the scan for the oldest frame, and that each
operation takes a sound state to a sound state. -/

namespace Sys2Proof.Machine

theorem sampleNow_sampleNow (s : State) : sampleNow (sampleNow s) = sampleNow s := rfl

/-- `RXBYTE` of a list is `RXBYTE` of its first part and then of the rest. -/
theorem rxList_append (l l' : List Byte) (s : State) : rxList (l ++ l') s = andThen (rxList l s) (rxList l') := by
  induction l generalizing s with
  | nil => rfl
  | cons b l ih =>
    rw [List.cons_append, rxList, rxList]
    cases h : execRxbyte b s with
    | next u => exact ih u
    | fault r => rfl
    | refused r => rfl

/-! ### The scan of rule R143 -/

/-- The age of the frame at distance `j`. -/
theorem slotAge_queued (s : State) (j : Nat) : slotAge (queuedIndex s j) s = (s.now - (queuedSlot s j).lastSent).toNat :=
  rfl

/-- The scan keeps the nearest to the head of the oldest. -/
theorem oldestFrom_spec (s : State) (n : Nat) : ∀ j b, b < j →
    (∀ i, i < j → slotAge (queuedIndex s i) s ≤ slotAge (queuedIndex s b) s) →
    (∀ i, i < b → slotAge (queuedIndex s i) s < slotAge (queuedIndex s b) s) →
    ∃ d, d < j + n ∧ oldestFrom s n j (queuedIndex s b) = queuedIndex s d ∧
      (∀ i, i < j + n → slotAge (queuedIndex s i) s ≤ slotAge (queuedIndex s d) s) ∧
      (∀ i, i < d → slotAge (queuedIndex s i) s < slotAge (queuedIndex s d) s) := by
  induction n with
  | zero => intro j b hb h1 h2; exact ⟨b, by omega, rfl, h1, h2⟩
  | succ n ih =>
    intro j b hb h1 h2
    have hk : fifoIndex s.cfg (s.tp.fifoHead + j) = queuedIndex s j := rfl
    rw [oldestFrom, hk]
    by_cases hlt : slotAge (queuedIndex s b) s < slotAge (queuedIndex s j) s
    · rw [if_pos hlt]
      obtain ⟨d, hd, he, h3, h4⟩ := ih (j + 1) j (by omega)
        (fun i hi => by
          by_cases hij : i = j
          · rw [hij]
          · exact Nat.le_of_lt (Nat.lt_of_le_of_lt (h1 i (by omega)) hlt))
        (fun i hi => Nat.lt_of_le_of_lt (h1 i hi) hlt)
      exact ⟨d, by omega, he, fun i hi => h3 i (by omega), h4⟩
    · rw [if_neg hlt]
      obtain ⟨d, hd, he, h3, h4⟩ := ih (j + 1) b (by omega)
        (fun i hi => by
          by_cases hij : i = j
          · rw [hij]; omega
          · exact h1 i (by omega))
        h2
      exact ⟨d, by omega, he, fun i hi => h3 i (by omega), h4⟩

/-- `OLDEST()` (rule R143): the frame in flight with the greatest age, the nearest to the head among equals. -/
theorem oldest_spec {s : State} (hf : s.tp.fifoHead < s.cfg.fifoSlots) (hw : 0 < (win s).toNat) :
    ∃ d, d < (win s).toNat ∧ oldest s = queuedIndex s d ∧
      (∀ i, i < (win s).toNat → slotAge (queuedIndex s i) s ≤ slotAge (queuedIndex s d) s) ∧
      (∀ i, i < d → slotAge (queuedIndex s i) s < slotAge (queuedIndex s d) s) := by
  have h0 : s.tp.fifoHead = queuedIndex s 0 := by rw [queuedIndex, Nat.add_zero, fifoIndex_of_lt hf]
  have := oldestFrom_spec s ((win s).toNat - 1) 1 0 (by omega) (fun i hi => by rw [show i = 0 by omega])
    (fun i hi => absurd hi (Nat.not_lt_zero _))
  rw [show 1 + ((win s).toNat - 1) = (win s).toNat by omega] at this
  rwa [oldest, h0]

/-- Only one distance meets what `OLDEST()` says of its answer. -/
theorem oldest_unique {s : State} {n d e : Nat} (hd : d < n) (he : e < n)
    (hd1 : ∀ i, i < n → slotAge (queuedIndex s i) s ≤ slotAge (queuedIndex s d) s)
    (hd2 : ∀ i, i < d → slotAge (queuedIndex s i) s < slotAge (queuedIndex s d) s)
    (he1 : ∀ i, i < n → slotAge (queuedIndex s i) s ≤ slotAge (queuedIndex s e) s)
    (he2 : ∀ i, i < e → slotAge (queuedIndex s i) s < slotAge (queuedIndex s e) s) : d = e := by
  rcases Nat.lt_trichotomy d e with h | h | h
  · have := he2 d h; have := hd1 e he; omega
  · exact h
  · have := hd2 e h; have := he1 d hd; omega

/-! ### `POLL` -/

theorem newFrameDue_iff (s : State) :
    newFrameDue s = true ↔ (win s).toNat < s.cfg.maxWindow ∧ (win s).toNat < s.tp.nFrames := by simp [newFrameDue]

theorem nextSlot_eq (s : State) : nextSlot s = queuedIndex s (win s).toNat := rfl

/-- `POLL` step 3 when it sends (rule R141). -/
theorem sendNew_sent {s : State} (h : s.tp.slots.wf = true) : NewFrameSent s (sendNew s) := by
  have hwf : (setSlot (nextSlot s) { slotAt (nextSlot s) s with seq := s.tp.snMax } s).tp.slots.wf = true :=
    Slots.wf_write h _ _
  have h1 := slotChange_setSlot h (nextSlot s) { slotAt (nextSlot s) s with seq := s.tp.snMax }
  have h2 := sendFrame_sent hwf (nextSlot s)
  have h3 := sendFrame_sentOnly (nextSlot s) (setSlot (nextSlot s) { slotAt (nextSlot s) s with seq := s.tp.snMax } s)
  refine ⟨_, _, h1, h2, ?_⟩
  unfold sendNew
  simp only [h3.snMax, setSlot_tp_snMax]

/-- `POLL` step 5 (rule R144). -/
theorem pollAck_periodic (s : State) : PeriodicAck s (pollAck s) := by
  unfold PeriodicAck pollAck
  by_cases h : s.cfg.ackRetxMs.toNat < (s.now - s.tp.lastAckTx).toNat ∧ s.tp.remoteActive = true
  · have h' : s.cfg.ackRetxMs.toNat < elapsed s s.tp.lastAckTx ∧ s.tp.remoteActive = true := h
    rw [if_pos h, if_pos h']; exact sendAck_tried s
  · have h' : ¬(s.cfg.ackRetxMs.toNat < elapsed s s.tp.lastAckTx ∧ s.tp.remoteActive = true) := h
    rw [if_neg h, if_neg h']

theorem linkFlags_keeps (s : State) : Keeps s (linkFlags s) := Keeps.of_eq rfl rfl rfl rfl

theorem sendNew_keeps (s : State) : Keeps s (sendNew s) := by
  unfold sendNew
  exact (Keeps.of_eq rfl rfl rfl rfl : Keeps s (setSlot (nextSlot s) { slotAt (nextSlot s) s with seq := s.tp.snMax } s)).trans
    ((sendFrame_keeps _ _).trans (Keeps.of_eq rfl rfl rfl rfl))

theorem pollResend_keeps (s : State) : Keeps s (pollResend s) := by
  unfold pollResend
  split
  · exact resendSlot_keeps _ _
  · exact Keeps.refl s

theorem pollSend_keeps (s : State) : Keeps s (pollSend s) := by
  unfold pollSend
  split
  · split
    · exact sendNew_keeps s
    · exact (drop_keeps _ s).trans (pollResend_keeps _)
  · exact pollResend_keeps s

theorem pollAck_keeps (s : State) : Keeps s (pollAck s) := by
  unfold pollAck
  split
  · exact sendAck_keeps s
  · exact Keeps.refl s

theorem pollTimers_keeps (s : State) : Keeps s (pollTimers s) :=
  (linkFlags_keeps s).trans ((pollSend_keeps _).trans (pollAck_keeps _))

theorem execPoll_next {bytes : List Byte} {s t : State} (h : execPoll bytes s = .next t) :
    ∃ u, rxList bytes (sampleNow s) = .next u ∧ t = pollTimers u := by
  obtain ⟨u, hu, ht⟩ := andThen_next h
  cases ht
  exact ⟨u, hu, rfl⟩

/-! ### What the steps of `POLL` leave alone -/

theorem pollResend_sentOnly (s : State) : SentOnly s (pollResend s) := by
  unfold pollResend
  split
  · exact resendSlot_sentOnly _ _
  · exact SentOnly.refl s

theorem pollAck_sentOnly (s : State) : SentOnly s (pollAck s) := by
  unfold pollAck
  split
  · exact sendAck_sentOnly s
  · exact SentOnly.refl s

/-- Steps 3 and 4 write a slot and `sn_max` and nothing else of TP. -/
theorem pollSend_tp (s : State) :
    (pollSend s).tp = { s.tp with
      slots := (pollSend s).tp.slots, snMax := (pollSend s).tp.snMax, lastAckTx := (pollSend s).tp.lastAckTx } := by
  unfold pollSend
  split
  · split
    · unfold sendNew
      simp only
      rw [(sendFrame_sentOnly _ _).tp]; rfl
    · rw [(pollResend_sentOnly _).tp]; rfl
  · rw [(pollResend_sentOnly _).tp]

theorem pollSend_dec (s : State) : (pollSend s).dec = s.dec := by
  unfold pollSend
  split
  · split
    · unfold sendNew
      simp only
      rw [(sendFrame_sentOnly _ _).dec]; rfl
    · rw [(pollResend_sentOnly _).dec]; rfl
  · rw [(pollResend_sentOnly _).dec]

theorem pollTimers_dec (s : State) : (pollTimers s).dec = s.dec := by
  unfold pollTimers
  rw [(pollAck_sentOnly _).dec, pollSend_dec]; rfl

/-! ### Soundness -/

theorem Sound.sampleNow {s : State} (h : Sound s) : Sound (sampleNow s) :=
  h.congr rfl rfl rfl rfl rfl rfl rfl rfl rfl rfl rfl

theorem Sound.linkFlags {s : State} (h : Sound s) : Sound (linkFlags s) :=
  h.congr rfl rfl rfl rfl rfl rfl rfl rfl rfl rfl rfl

theorem Sound.returnValue {s : State} (h : Sound s) (v : Word) : Sound (returnValue v s) :=
  h.congr rfl rfl rfl rfl rfl rfl rfl rfl rfl rfl rfl

/-- Numbering and sending the next frame opens the window by one (rules R18, R141). -/
theorem Sound.sendNew {s : State} (h : Sound s) (hd : newFrameDue s = true) : Sound (sendNew s) := by
  obtain ⟨hw, hn⟩ := (newFrameDue_iff s).1 hd
  have hk : nextSlot s < s.cfg.fifoSlots := fifoIndex_lt _ _
  have hfit := h.fifo.framesFit
  -- the state with the frame numbered
  have hq : ∀ j, j < s.cfg.fifoSlots →
      queuedSlot (setSlot (nextSlot s) { slotAt (nextSlot s) s with seq := s.tp.snMax } s) j =
        if j = (win s).toNat then { queuedSlot s j with seq := s.tp.snMax } else queuedSlot s j := by
    intro j hj
    have : queuedSlot (setSlot (nextSlot s) { slotAt (nextSlot s) s with seq := s.tp.snMax } s) j =
        slotAt (queuedIndex s j) (setSlot (nextSlot s) { slotAt (nextSlot s) s with seq := s.tp.snMax } s) := rfl
    rw [this, slotAt_setSlot_cases _ _ _ h.mem.slotsWf]
    by_cases hjw : j = (win s).toNat
    · subst hjw; rw [if_pos rfl]; exact if_pos rfl
    · rw [if_neg hjw]; exact if_neg (by rw [nextSlot_eq]; exact queuedIndex_ne s hjw hj (by omega))
  have hf1 : FifoInv (setSlot (nextSlot s) { slotAt (nextSlot s) s with seq := s.tp.snMax } s) :=
    h.fifo.of_same ⟨rfl, rfl, rfl, rfl, rfl, rfl,
      fun j hj => by rw [hq j (by omega)]; split <;> rfl, fun j hj => by rw [hq j (by omega)]; split <;> rfl⟩
  have hm1 : MemInv (setSlot (nextSlot s) { slotAt (nextSlot s) s with seq := s.tp.snMax } s) :=
    ⟨h.mem.bufWf, h.mem.bufInside, h.mem.ringWf, h.mem.ringInside, Slots.wf_write h.mem.slotsWf _ _,
      Slots.inside_write h.mem.slotsInside hk _⟩
  have hs := sendFrame_sentOnly (nextSlot s) (setSlot (nextSlot s) { slotAt (nextSlot s) s with seq := s.tp.snMax } s)
  have hm2 := hm1.sendFrame (k := nextSlot s) hk
  have hf2 := hf1.of_same (hs.sameQueue hm1.slotsWf)
  unfold Machine.sendNew
  simp only
  generalize hu : sendFrame (nextSlot s) (setSlot (nextSlot s) { slotAt (nextSlot s) s with seq := s.tp.snMax } s) = u at *
  have hmax : u.tp.snMax = s.tp.snMax := hs.snMax
  have hmin : u.tp.snMin = s.tp.snMin := hs.snMin
  have hwin : (win { u with tp.snMax := u.tp.snMax + 1#8 }).toNat = (win s).toNat + 1 := by
    have hle := s.cfg.maxWindow_le
    simp only [win, hmax, hmin] at hw hn ⊢
    simp only [BitVec.toNat_sub, BitVec.toNat_add, BitVec.toNat_ofNat] at hw ⊢
    omega
  refine ⟨?_, hf2.of_same ⟨rfl, rfl, rfl, rfl, rfl, rfl, fun _ _ => rfl, fun _ _ => rfl⟩, ⟨?_, ?_, ?_⟩,
    ⟨hm2.bufWf, hm2.bufInside, hm2.ringWf, hm2.ringInside, hm2.slotsWf, hm2.slotsInside⟩⟩
  · have hdec := hs.dec
    have hcfg := hs.cfg
    simp only [setSlot_dec, setSlot_cfg] at hdec hcfg
    refine ⟨?_, ?_, ?_⟩ <;> simp only [hdec, hcfg]
    · exact h.dec.cntFresh
    · exact h.dec.payRoom
    · exact h.dec.lenFits
  · rw [hwin]; have := hs.cfg; simp only [setSlot_cfg] at this; simp only [this]; omega
  · rw [hwin]; have := hs.nFrames; simp only [setSlot_tp_nFrames] at this; simp only [this]; omega
  · intro j hj
    rw [hwin] at hj
    have h1 : queuedSlot { u with tp.snMax := u.tp.snMax + 1#8 } j = queuedSlot u j := rfl
    rw [h1, untimed_seq (hs.queuedSlot hm1.slotsWf j), hq j (by omega)]
    simp only [hmin]
    by_cases hjw : j = (win s).toNat
    · subst hjw
      rw [if_pos rfl]
      apply BitVec.eq_of_toNat_eq
      simp only [win, BitVec.toNat_add, BitVec.toNat_sub, BitVec.toNat_ofNat]
      have := s.tp.snMax.isLt
      have := s.tp.snMin.isLt
      omega
    · rw [if_neg hjw]
      exact h.window.seqInOrder j (by omega)

theorem Sound.pollResend {s : State} (h : Sound s) : Sound (pollResend s) := by
  unfold Machine.pollResend
  split
  · next hc =>
    obtain ⟨d, -, he, -⟩ := oldest_spec h.fifo.headInside hc.1
    rw [he]
    exact h.resendSlot (queuedIndex_lt _ _)
  · exact h

theorem Sound.pollSend {s : State} (h : Sound s) : Sound (pollSend s) := by
  unfold Machine.pollSend
  split
  · next hd =>
    split
    · exact h.sendNew hd
    · exact (h.drop _).pollResend
  · exact h.pollResend

theorem Sound.pollAck {s : State} (h : Sound s) : Sound (pollAck s) := by
  unfold Machine.pollAck
  split
  · exact h.sendAck
  · exact h

theorem Sound.pollTimers {s : State} (h : Sound s) : Sound (pollTimers s) := h.linkFlags.pollSend.pollAck

theorem execFeed_sound (b : Byte) {s : State} (h : Sound s) : ∃ t, execFeed b s = .next t ∧ Sound t :=
  execRxbyte_sound b h.sampleNow

theorem execPoll_sound (bytes : List Byte) {s : State} (h : Sound s) : ∃ t, execPoll bytes s = .next t ∧ Sound t := by
  obtain ⟨u, hu, hs⟩ := rxList_sound bytes h.sampleNow
  exact ⟨_, by rw [execPoll, hu]; rfl, hs.pollTimers⟩

theorem execQueue_sound {id : Byte} {len : Half} {payload : List Byte} {s : State} (h : Sound s)
    (hl : payload.length = len.toNat) : ∃ t, execQueue id len payload s = .next t ∧ Sound t := by
  have h1 := h.sampleNow
  unfold execQueue
  rw [if_pos hl]
  simp only
  by_cases hr : queueRejects len.toNat (sampleNow s) = true
  · rw [if_pos hr]
    exact ⟨_, rfl, ((h1.congr rfl rfl rfl rfl rfl rfl rfl rfl rfl rfl rfl :
      Sound { sampleNow s with tp.droppedFrames := (sampleNow s).tp.droppedFrames + 1#32 }).drop _).returnValue _⟩
  · rw [if_neg hr]
    rw [queueRejects_iff] at hr
    simp only [not_or, Nat.not_lt] at hr
    obtain ⟨hr1, hr2, hr3⟩ := hr
    have hn : (sampleNow s).tp.nFrames < (sampleNow s).cfg.fifoSlots :=
      Nat.lt_of_le_of_ne h1.fifo.framesFit hr2
    have hu := h1.fifo.usedFits
    have := (sampleNow s).cfg.maxPayload_le
    refine ⟨_, rfl, Sound.returnValue ⟨?_, h1.fifo.fifoPush h1.mem.slotsWf hn _ _ (by omega) (by omega),
      h1.window.fifoPush h1.mem.slotsWf h1.fifo hn _ _, h1.mem.fifoPush h1.fifo _ _⟩ _⟩
    exact ⟨h1.dec.cntFresh, h1.dec.payRoom, h1.dec.lenFits⟩

theorem execTreset_sound (inform : Bool) {s : State} (h : Sound s) : ∃ t, execTreset inform s = .next t ∧ Sound t := by
  refine ⟨_, rfl, ?_⟩
  split
  · exact h.sampleNow.sendReset.tpClear
  · exact h.sampleNow.tpClear

theorem execStatus_sound (idx : Byte) {s : State} (h : Sound s) : ∃ t, execStatus idx s = .next t ∧ Sound t :=
  ⟨_, rfl, h.returnValue _⟩

/-- A reset gives a sound state from any state (rule R205): the free contents it leaves in the memories are canonical and
inside their size. -/
theorem execHwreset_sound (s : State) : ∃ t, execHwreset s = .next t ∧ Sound t := by
  refine ⟨_, rfl, DecInv.of_early (.inl rfl), FifoInv.empty rfl rfl rfl rfl rfl, WindowInv.empty rfl, ?_⟩
  exact ⟨storeWf_canon _ _, storeInside_canon _ _, storeWf_canon _ _, storeInside_canon _ _, storeWf_canon _ _,
    storeInside_canon _ _⟩

/-- Taking a request changes nothing the invariants read. -/
theorem Sound.accept {s : State} (h : Sound s) (r : Request) (rest : List Request) : Sound (accept r rest s) :=
  h.congr rfl rfl rfl rfl rfl rfl rfl rfl rfl rfl rfl

/-- What the command port decodes to (rules R77, R80). -/
theorem decodeHost_cases (op : Byte) (args : List Byte) :
    (∃ b, decodeHost op args = .instr (.feed b)) ∨ decodeHost op args = .instr (.poll args) ∨
    (∃ id len payload, payload.length = len.toNat ∧ decodeHost op args = .instr (.queue id len payload)) ∨
    (∃ inform, decodeHost op args = .instr (.treset inform)) ∨ (∃ idx, decodeHost op args = .instr (.status idx)) ∨
    decodeHost op args = .rejected (.notHostOp op) ∨ ∃ m, decodeHost op args = .rejected (.operands m) := by
  unfold decodeHost
  split
  · unfold decode1; split
    · exact .inl ⟨_, rfl⟩
    · exact .inr (.inr (.inr (.inr (.inr (.inr ⟨_, rfl⟩)))))
  · split
    · exact .inr (.inl rfl)
    · split
      · unfold decodeQueue; split
        · split
          · next h => exact .inr (.inr (.inl ⟨_, _, _, h, rfl⟩))
          · exact .inr (.inr (.inr (.inr (.inr (.inr ⟨_, rfl⟩)))))
        · exact .inr (.inr (.inr (.inr (.inr (.inr ⟨_, rfl⟩)))))
      · split
        · unfold decodeTreset; split
          · split
            · exact .inr (.inr (.inr (.inl ⟨_, rfl⟩)))
            · exact .inr (.inr (.inr (.inr (.inr (.inr ⟨_, rfl⟩)))))
          · exact .inr (.inr (.inr (.inr (.inr (.inr ⟨_, rfl⟩)))))
        · split
          · unfold decode1; split
            · exact .inr (.inr (.inr (.inr (.inl ⟨_, rfl⟩))))
            · exact .inr (.inr (.inr (.inr (.inr (.inr ⟨_, rfl⟩)))))
          · exact .inr (.inr (.inr (.inr (.inr (.inl rfl)))))

/-- Every operation the host can present, in one of the shapes of rule R78, takes a sound state to a sound state. -/
theorem exec_host_sound {op : Byte} {args : List Byte} {i : Instr} {s : State} (hd : decodeHost op args = .instr i)
    (h : Sound s) : ∃ t, exec i s = .next t ∧ Sound t := by
  rcases decodeHost_cases op args with ⟨b, h'⟩ | h' | ⟨id, len, payload, hl, h'⟩ | ⟨inform, h'⟩ | ⟨idx, h'⟩ | h' | ⟨m, h'⟩ <;>
    rw [hd] at h' <;> cases h'
  · exact execFeed_sound b h
  · exact execPoll_sound args h
  · exact execQueue_sound h hl
  · exact execTreset_sound inform h
  · exact execStatus_sound idx h

end Sys2Proof.Machine
end

