-- ==== Sys2Proof/Laws/Counters.lean ====
section
/-! SUPPORT. The diagnostic counters (rule R27): what the operations that are no handler leave of them; and `POLL`'s list
of bytes as `RXBYTE` of each. -/

namespace Sys2Proof.Machine

@[simp] theorem counters_drop (e : Event) (s : State) : counters (drop e s) = counters s := rfl
@[simp] theorem counters_setSlot (k : Nat) (v : Slot) (s : State) : counters (setSlot k v s) = counters s := rfl
@[simp] theorem counters_fifoPush (id : Ident) (payload : List Byte) (s : State) :
    counters (fifoPush id payload s) = counters s := rfl
@[simp] theorem counters_tpClear (s : State) : counters (tpClear s) = counters s := rfl
@[simp] theorem counters_linkFlags (s : State) : counters (linkFlags s) = counters s := rfl

/-- A send leaves the counters alone. -/
theorem SentOnly.counters {s t : State} (h : SentOnly s t) : counters t = Machine.counters s := by
  simp only [Machine.counters, h.droppedFrames, h.spuriousAcks, h.seqMismatchDrops, h.resetsReceived]

@[simp] theorem counters_fifoPops (n : Nat) (s : State) : counters (fifoPops n s) = counters s := by
  rw [fifoPops_frame]; rfl

theorem deliver_counters {id : Ident} {s t : State} (h : deliver id s = .next t) : counters t = counters s := by
  rw [(deliver_eq h).2]; rfl

/-- Steps 2 to 5 of `POLL` leave the counters alone. -/
@[simp] theorem counters_pollTimers (s : State) : counters (pollTimers s) = counters s := by
  rw [pollTimers, (pollAck_sentOnly _).counters, counters, pollSend_tp]; rfl

/-- What a handler does to the counters hangs on the frame's control and sequence bytes, the sequence numbers of TP and
the counters. -/
theorem countersAfterHandler_congr {s t : State} (hc : t.dec.ctrl = s.dec.ctrl) (hs : t.dec.seq = s.dec.seq)
    (h1 : t.tp.snMin = s.tp.snMin) (h2 : t.tp.snMax = s.tp.snMax) (h3 : t.tp.rn = s.tp.rn)
    (h4 : t.tp.droppedFrames = s.tp.droppedFrames) (h5 : t.tp.spuriousAcks = s.tp.spuriousAcks)
    (h6 : t.tp.seqMismatchDrops = s.tp.seqMismatchDrops) (h7 : t.tp.resetsReceived = s.tp.resetsReceived) :
    countersAfterHandler t = countersAfterHandler s := by
  simp only [countersAfterHandler, countersAfterAck, countersAfterReset, countersAfterApp, counters, win, *]
  congr

/-- A list of bytes is taken exactly when `RXBYTE` takes each of them. -/
theorem rxList_iff_fed {bytes : List Byte} {s t : State} : rxList bytes s = .next t ↔ Fed bytes s t := by
  induction bytes generalizing s with
  | nil => exact ⟨fun h => by cases h; rfl, fun h => by rw [show t = s from h]; rfl⟩
  | cons b bytes ih =>
    constructor
    · intro h
      obtain ⟨u, hu, ht⟩ := andThen_next h
      exact ⟨u, hu, ih.1 ht⟩
    · rintro ⟨u, hu, ht⟩
      show andThen (execRxbyte b s) (rxList bytes) = _
      rw [show execRxbyte b s = .next u from hu]
      exact ih.2 ht

end Sys2Proof.Machine
end

