-- ==== Sys2Proof/Laws/Destuff.lean ====
section
/-! SUPPORT. Destuffing undoes stuffing (41_encoder.md rules R99, R104; 42_decoder.md rules R111, R112): feeding the
stuffed form of a run of logical bytes does what the rows of the state table do with the logical bytes themselves. -/

namespace Sys2Proof.Machine

/-- The outcome with its next state changed. -/
def mapNext (f : State → State) : Result → Result
  | .next s => .next (f s)
  | .fault r => .fault r
  | .refused r => .refused r

/-- A row is the operation `rowOp` names. -/
theorem rxRow_of_state {b : Byte} {s : State} (st : RxState) (h : s.dec.state = st) :
    rxRow b s = exec (rowOp st b) s := by rw [← h, exec_rowOp]

/-- No row before the end marker reads or writes `rx_hdr_cnt`. -/
theorem rxRow_setHdr (b : Byte) (h : RxHdr) (s : State) (hs : s.dec.state ≠ .eof) :
    rxRow b (setHdr h s) = mapNext (setHdr h) (rxRow b s) := by
  unfold rxRow
  have : (setHdr h s).dec.state = s.dec.state := rfl
  rw [this]
  cases hst : s.dec.state <;> simp only
  case ctrl => unfold execRxCtrl; simp only; split <;> rfl
  case len =>
    unfold execRxLen
    simp only
    split
    · rfl
    · change (if b.toNat ≤ s.cfg.maxPayload then _ else _) = _
      split <;> rfl
  case pay =>
    unfold execRxPay
    change (if s.dec.cnt.toNat < s.cfg.maxPayload then _ else _) = _
    split
    · simp only
      change (if s.dec.cnt + 1#8 = s.dec.len then _ else _) =
        mapNext _ (if s.dec.cnt + 1#8 = s.dec.len then _ else _)
      split <;> rfl
    · rfl
  case c0 =>
    unfold execRxC0
    simp only
    change (if wireByte0 s.dec.wireCrc b = crcFinal s.crc.rx then _ else _) =
      mapNext _ (if wireByte0 s.dec.wireCrc b = crcFinal s.crc.rx then _ else _)
    split <;> rfl
  case eof => exact absurd hst hs
  all_goals rfl

theorem Fed.append {l l' : List Byte} {s t u : State} (h : Fed l s t) (h' : Fed l' t u) : Fed (l ++ l') s u := by
  induction l generalizing s with
  | nil => cases h; exact h'
  | cons b l ih => obtain ⟨v, h1, h2⟩ := h; exact ⟨v, h1, ih h2⟩

/-- `rx_hdr_cnt` while the encoder's countdown is `c`: as many header bytes seen as have been counted down. -/
def TxCountdown.rxHdr : TxCountdown → RxHdr
  | .one => .one
  | .two => .zero

/-- The rows alone, on logical bytes, none of them the end marker's row. -/
def Rows : List Byte → State → State → Prop
  | [], s, t => t = s
  | b :: l, s, t => s.dec.state ≠ .eof ∧ ∃ u, rxRow b s = .next u ∧ Rows l u t

theorem Rows.append {l l' : List Byte} {s t u : State} (h : Rows l s t) (h' : Rows l' t u) : Rows (l ++ l') s u := by
  induction l generalizing s with
  | nil => cases h; exact h'
  | cons b l ih => obtain ⟨h0, v, h1, h2⟩ := h; exact ⟨h0, v, h1, ih h2⟩

/-- A row before the end marker leaves the arrival time noted. -/
theorem rxRow_noteArrival {b : Byte} {s u : State} (hs : s.dec.state ≠ .eof) (ht : noteArrival s = s)
    (h : rxRow b s = .next u) : noteArrival u = u := by
  rw [(rxRow_decOnly hs h).frame]
  unfold noteArrival at *
  have h1 : s.tp.lastRxAny = s.now := by rw [← ht]
  have h2 : s.tp = { s.tp with lastRxAny := s.now } := by rw [← h1]
  simp only
  rw [← h2]

/-- What the rows do with logical bytes, `RXBYTE` does with their stuffed form. -/
theorem Rows.fed_stuffed {l : List Byte} {s t : State} (c : TxCountdown) (ht : noteArrival s = s) (h : Rows l s t) :
    Fed (stuffed c.seen l) (setHdr c.rxHdr s) (setHdr (countDowns l c).rxHdr t) := by
  induction l generalizing c s with
  | nil => cases h; rfl
  | cons b l ih =>
    obtain ⟨h0, u, h1, h2⟩ := h
    have hu := rxRow_noteArrival h0 ht h1
    rw [stuffed_cons]
    refine Fed.append ?_ (ih (countDown b c) hu h2)
    have hx : exec (.rxbyte b) (setHdr c.rxHdr s) = .next (setHdr (countHeader b c.rxHdr) u) := by
      have e0 : noteArrival (setHdr c.rxHdr s) = setHdr c.rxHdr s := by
        have : noteArrival (setHdr c.rxHdr s) = setHdr c.rxHdr (noteArrival s) := rfl
        rw [ht] at this
        exact this
      have e1 : (setHdr c.rxHdr s).dec.hdrCnt = c.rxHdr := rfl
      show execRxbyte b (setHdr c.rxHdr s) = _
      rw [execRxbyte_row (by rw [e1]; cases c <;> decide), e0, e1]
      have e2 : setHdr (countHeader b c.rxHdr) (setHdr c.rxHdr s) = setHdr (countHeader b c.rxHdr) s := rfl
      rw [e2, rxRow_setHdr b _ s h0, h1]
      rfl
    by_cases hb : b = headerByte
    · subst hb
      cases c
      · have hz : exec (.rxbyte stuffByte) (setHdr .two u) = .next (setHdr .zero u) := by
          show execRxbyte stuffByte (setHdr .two u) = Host.Outcome.next (setHdr .zero u)
          have : noteArrival (setHdr .two u) = setHdr .two (noteArrival u) := rfl
          rw [execRxbyte_special rfl, this, hu]
          rfl
        exact ⟨_, hx, _, hz, rfl⟩
      · exact ⟨_, hx, rfl⟩
    · have e : stuffDue b c = false := by cases c <;> simp [stuffDue, hb]
      have e2 : countHeader b c.rxHdr = .zero := by cases c <;> simp [countHeader, TxCountdown.rxHdr, hb]
      have e3 : countDown b c = .two := by cases c <;> simp [countDown, hb]
      rw [e, e3]
      rw [e2] at hx
      exact ⟨_, hx, rfl⟩

/-- The four checksum bytes of a frame put the checksum back together (rules R47, R118 to R121). -/
theorem wireBytes_word (c : Word) :
    wireByte0 (wireByte1 (wireByte2 (wireByte3 (c.extractLsb' 24 8)) (c.extractLsb' 16 8)) (c.extractLsb' 8 8))
      (c.extractLsb' 0 8) = c := by
  apply BitVec.eq_of_getLsbD_eq
  intro i hi
  simp only [wireByte0, wireByte1, wireByte2, wireByte3, BitVec.getLsbD_append, BitVec.getLsbD_extractLsb']
  interval_cases i <;>
    simp only [Nat.reduceLT, Nat.reduceAdd, Nat.reduceSub, decide_true, decide_false, Bool.true_and, if_true, if_false]

end Sys2Proof.Machine
end

