-- ==== Sys2Proof/Laws/PerInstr.lean ====
section
/-! SUPPORT. One fact per instruction: its encoding stands in the space and matches the row the opcode table gives it
(30_encoding.md rule R77). -/

namespace Sys2Proof.Laws

/-- The row of the opcode table: space, match and mask. The pin has no code, so it matches under an empty mask. -/
def TableCode.row : Instr → OpSpace × Byte × Byte
  | .hwreset => (.pin, 0x00#8, 0x00#8)
  | .feed _ => (.host, 0x01#8, 0xFF#8)
  | .poll _ => (.host, 0x02#8, 0xFF#8)
  | .queue _ _ _ => (.host, 0x03#8, 0xFF#8)
  | .treset _ => (.host, 0x04#8, 0xFF#8)
  | .status _ => (.host, 0x05#8, 0xFF#8)
  | .crcInit _ => (.micro, 0x10#8, 0xFF#8)
  | .crcStep _ _ => (.micro, 0x11#8, 0xFF#8)
  | .crcFinal _ => (.micro, 0x12#8, 0xFF#8)
  | .encRaw _ => (.micro, 0x20#8, 0xFF#8)
  | .encPut _ _ => (.micro, 0x21#8, 0xFF#8)
  | .encEmit _ _ _ _ _ _ => (.micro, 0x22#8, 0xFF#8)
  | .rxbyte _ => (.micro, 0x30#8, 0xFF#8)
  | .dispatch => (.micro, 0x31#8, 0xFF#8)
  | .rxResync => (.micro, 0x32#8, 0xFF#8)
  | .rxDestuff => (.micro, 0x33#8, 0xFF#8)
  | .rxViolation _ => (.micro, 0x34#8, 0xFF#8)
  | .rxSof _ => (.micro, 0x40#8, 0xFF#8)
  | .rxCtrl _ => (.micro, 0x41#8, 0xFF#8)
  | .rxSeq _ => (.micro, 0x42#8, 0xFF#8)
  | .rxLen _ => (.micro, 0x43#8, 0xFF#8)
  | .rxPay _ => (.micro, 0x44#8, 0xFF#8)
  | .rxC3 _ => (.micro, 0x45#8, 0xFF#8)
  | .rxC2 _ => (.micro, 0x46#8, 0xFF#8)
  | .rxC1 _ => (.micro, 0x47#8, 0xFF#8)
  | .rxC0 _ => (.micro, 0x48#8, 0xFF#8)
  | .rxEof _ => (.micro, 0x49#8, 0xFF#8)
  | .fifoPush _ _ _ => (.micro, 0x50#8, 0xFF#8)
  | .fifoPop => (.micro, 0x51#8, 0xFF#8)
  | .sendFrame _ => (.micro, 0x52#8, 0xFF#8)
  | .sendAck => (.micro, 0x53#8, 0xFF#8)
  | .sendReset => (.micro, 0x54#8, 0xFF#8)
  | .tpClear => (.micro, 0x55#8, 0xFF#8)
  | .hAck => (.handler, 0xFF#8, 0xFF#8)
  | .hReset => (.handler, 0xFE#8, 0xFF#8)
  | .hApp _ _ => (.handler, 0x80#8, 0x80#8)
  | .hNontp _ _ => (.handler, 0x00#8, 0x80#8)

/-- The encoding is in the row's space and its code matches the row under the row's mask; and for a well-formed
instruction it is none of the codes the row excludes. -/
def TableCode.Statement (i : Instr) : Prop :=
  (encode i).space = (TableCode.row i).1 ∧ (encode i).op &&& (TableCode.row i).2.2 = (TableCode.row i).2.1 ∧
    ∀ c : Config, i.wf c = true → (TableCode.row i).2.2 = 0x80#8 → (encode i).op ≠ 0xFF#8 ∧ (encode i).op ≠ 0xFE#8

end Sys2Proof.Laws

open Sys2Proof Sys2Proof.Laws

/-- A row whose mask is the whole code. -/
theorem Sys2Proof.Laws.TableCode.of_code {i : Instr} {space : OpSpace} {code : Byte}
    (hr : TableCode.row i = (space, code, 0xFF#8)) (he : ((encode i).space, (encode i).op) = (space, code)) :
    TableCode.Statement i := by
  obtain ⟨rfl, rfl⟩ := Prod.mk.injEq .. ▸ he
  refine ⟨by rw [hr], ?_, fun _ _ h => ?_⟩
  · rw [hr]
    show (encode i).op &&& BitVec.allOnes 8 = (encode i).op
    exact BitVec.and_allOnes
  · rw [hr] at h
    exact absurd (show (0xFF#8 : Byte) = 0x80#8 from h) (by decide)

/-- A control byte without the transport flag is neither of the two codes row `H_APP` excludes. -/
theorem Sys2Proof.Laws.TableCode.control_nontp (r : Bool) (id : Ident) :
    controlByte false r id ≠ 0xFF#8 ∧ controlByte false r id ≠ 0xFE#8 := by
  cases r <;> revert id <;> decide

theorem Sys2Proof.Laws.TableCode.hwreset : TableCode.Statement .hwreset :=
  ⟨rfl, rfl, fun _ _ h => absurd h (by decide)⟩

theorem Sys2Proof.Laws.TableCode.feed (b : Byte) : TableCode.Statement (.feed b) :=
  TableCode.of_code rfl rfl

theorem Sys2Proof.Laws.TableCode.poll (bytes : List Byte) : TableCode.Statement (.poll bytes) :=
  TableCode.of_code rfl rfl

theorem Sys2Proof.Laws.TableCode.queue (id : Byte) (len : Half) (payload : List Byte) :
    TableCode.Statement (.queue id len payload) :=
  TableCode.of_code rfl rfl

theorem Sys2Proof.Laws.TableCode.treset (inform : Bool) : TableCode.Statement (.treset inform) :=
  TableCode.of_code rfl rfl

theorem Sys2Proof.Laws.TableCode.status (idx : Byte) : TableCode.Statement (.status idx) :=
  TableCode.of_code rfl rfl

theorem Sys2Proof.Laws.TableCode.crcInit (acc : CrcCtx) : TableCode.Statement (.crcInit acc) :=
  TableCode.of_code rfl rfl

theorem Sys2Proof.Laws.TableCode.crcStep (acc : CrcCtx) (b : Byte) : TableCode.Statement (.crcStep acc b) :=
  TableCode.of_code rfl rfl

theorem Sys2Proof.Laws.TableCode.crcFinal (acc : CrcCtx) : TableCode.Statement (.crcFinal acc) :=
  TableCode.of_code rfl rfl

theorem Sys2Proof.Laws.TableCode.encRaw (b : Byte) : TableCode.Statement (.encRaw b) :=
  TableCode.of_code rfl rfl

theorem Sys2Proof.Laws.TableCode.encPut (b : Byte) (crc : Bool) : TableCode.Statement (.encPut b crc) :=
  TableCode.of_code rfl rfl

theorem Sys2Proof.Laws.TableCode.encEmit (control seq : Byte) (src : EncSrc) (off mask : Half) (len : Byte) :
    TableCode.Statement (.encEmit control seq src off mask len) := by
  cases src <;> exact TableCode.of_code rfl rfl

theorem Sys2Proof.Laws.TableCode.rxbyte (b : Byte) : TableCode.Statement (.rxbyte b) :=
  TableCode.of_code rfl rfl

theorem Sys2Proof.Laws.TableCode.dispatch : TableCode.Statement .dispatch :=
  TableCode.of_code rfl rfl

theorem Sys2Proof.Laws.TableCode.rxResync : TableCode.Statement .rxResync :=
  TableCode.of_code rfl rfl

theorem Sys2Proof.Laws.TableCode.rxDestuff : TableCode.Statement .rxDestuff :=
  TableCode.of_code rfl rfl

theorem Sys2Proof.Laws.TableCode.rxViolation (b : Byte) : TableCode.Statement (.rxViolation b) :=
  TableCode.of_code rfl rfl

theorem Sys2Proof.Laws.TableCode.rxSof (b : Byte) : TableCode.Statement (.rxSof b) :=
  TableCode.of_code rfl rfl

theorem Sys2Proof.Laws.TableCode.rxCtrl (b : Byte) : TableCode.Statement (.rxCtrl b) :=
  TableCode.of_code rfl rfl

theorem Sys2Proof.Laws.TableCode.rxSeq (b : Byte) : TableCode.Statement (.rxSeq b) :=
  TableCode.of_code rfl rfl

theorem Sys2Proof.Laws.TableCode.rxLen (b : Byte) : TableCode.Statement (.rxLen b) :=
  TableCode.of_code rfl rfl

theorem Sys2Proof.Laws.TableCode.rxPay (b : Byte) : TableCode.Statement (.rxPay b) :=
  TableCode.of_code rfl rfl

theorem Sys2Proof.Laws.TableCode.rxC3 (b : Byte) : TableCode.Statement (.rxC3 b) :=
  TableCode.of_code rfl rfl

theorem Sys2Proof.Laws.TableCode.rxC2 (b : Byte) : TableCode.Statement (.rxC2 b) :=
  TableCode.of_code rfl rfl

theorem Sys2Proof.Laws.TableCode.rxC1 (b : Byte) : TableCode.Statement (.rxC1 b) :=
  TableCode.of_code rfl rfl

theorem Sys2Proof.Laws.TableCode.rxC0 (b : Byte) : TableCode.Statement (.rxC0 b) :=
  TableCode.of_code rfl rfl

theorem Sys2Proof.Laws.TableCode.rxEof (b : Byte) : TableCode.Statement (.rxEof b) :=
  TableCode.of_code rfl rfl

theorem Sys2Proof.Laws.TableCode.fifoPush (id : Ident) (len : Byte) (payload : List Byte) :
    TableCode.Statement (.fifoPush id len payload) :=
  TableCode.of_code rfl rfl

theorem Sys2Proof.Laws.TableCode.fifoPop : TableCode.Statement .fifoPop :=
  TableCode.of_code rfl rfl

theorem Sys2Proof.Laws.TableCode.sendFrame (k : Byte) : TableCode.Statement (.sendFrame k) :=
  TableCode.of_code rfl rfl

theorem Sys2Proof.Laws.TableCode.sendAck : TableCode.Statement .sendAck :=
  TableCode.of_code rfl rfl

theorem Sys2Proof.Laws.TableCode.sendReset : TableCode.Statement .sendReset :=
  TableCode.of_code rfl rfl

theorem Sys2Proof.Laws.TableCode.tpClear : TableCode.Statement .tpClear :=
  TableCode.of_code rfl rfl

theorem Sys2Proof.Laws.TableCode.hAck : TableCode.Statement .hAck :=
  TableCode.of_code rfl rfl

theorem Sys2Proof.Laws.TableCode.hReset : TableCode.Statement .hReset :=
  TableCode.of_code rfl rfl

theorem Sys2Proof.Laws.TableCode.hApp (r : Bool) (id : Ident) : TableCode.Statement (.hApp r id) := by
  refine ⟨rfl, ?_, fun c h _ => ?_⟩
  · cases r <;> revert id <;> decide
  · simp only [Instr.wf] at h
    revert h
    cases r <;> revert id <;> decide

theorem Sys2Proof.Laws.TableCode.hNontp (r : Bool) (id : Ident) : TableCode.Statement (.hNontp r id) := by
  refine ⟨rfl, ?_, fun _ _ _ => TableCode.control_nontp r id⟩
  cases r <;> revert id <;> decide
end

