-- ==== Sys2Proof/Tests/Slice0.lean ====
section
/-! SUPPORT. The tests of the model. Expected values are those of the spec: the codes of 30_encoding.md rule R77, the
vectors of 95_test_vectors.md (named E1, T20, … as there), or a calculation from the rule named in the test's comment.
The last part shows, for each statement of Obligations.lean that has hypotheses, a state and operands that meet them. -/

namespace Sys2Proof.Tests

open Sys2Proof Sys2Proof.Machine

/-! ### Helpers -/

/-- Bytes from numbers. -/
def bs (l : List Nat) : List Byte := l.map (BitVec.ofNat 8)

/-- The reference configuration with another `MAX_PAYLOAD`. -/
def smallPayload (n : Nat) (h : 1 ≤ n := by decide) (h' : n ≤ 255 := by decide) : Config :=
  { Config.reference with maxPayload := n, maxPayload_pos := h, maxPayload_le := h' }

/-- A field of the state an operation answers. -/
def got {α : Type} (i : Instr) (s : State) (f : State → α) : Option α :=
  match exec i s with
  | .next t => some (f t)
  | _ => none

/-- State W of 95_test_vectors.md section 5.4: four frames in flight, numbers 0A to 0D. -/
def stateW : State :=
  { State.reset with
    tp.snMin := 0x0A#8, tp.snMax := 0x0E#8, tp.fifoTail := 4, tp.nFrames := 4, tp.ringTail := 4, tp.ringUsed := 4
    tp.slots := [(0, ⟨1#6, 0x0A#8, 1#8, 0, 1#32⟩), (1, ⟨1#6, 0x0B#8, 1#8, 1, 2#32⟩),
      (2, ⟨1#6, 0x0C#8, 1#8, 2, 3#32⟩), (3, ⟨1#6, 0x0D#8, 1#8, 3, 4#32⟩)]
    tp.ring := [(0, 0x10#8), (1, 0x11#8), (2, 0x12#8), (3, 0x13#8)] }

/-- State W at time `t`, its decoder holding the ACK `{seq, p0}` to be dispatched. -/
def stateWAck (t : Word) (seq p0 : Byte) : State :=
  { stateW with
    now := t, io.timeMs := t
    dec.ctrl := 0xFF#8, dec.seq := seq, dec.len := 1#8, dec.buf := [(0, p0)] }

/-- `s` with a host buffer of `n` free bytes (`HostTx = H1`). -/
def withSpace (n : Half) (s : State) : State := { s with cfg.hostTx := .h1, io.txSpace := n }

/-- Reset with one frame `(5, [01 02 03])` queued and not sent, as after `QUEUE` (T6). -/
def oneQueued : State :=
  { State.reset with
    tp.fifoTail := 1, tp.nFrames := 1, tp.ringTail := 3, tp.ringUsed := 3
    tp.slots := [(0, ⟨5#6, 0#8, 3#8, 0, 0#32⟩)]
    tp.ring := [(0, 1#8), (1, 2#8), (2, 3#8)] }

/-- The decoder before the byte that completes `NF(1, [01 02 03])` (E24): in `S_EOF`, the frame in its fields. -/
def beforeEnd (control seq : Byte) : State :=
  { State.reset with
    dec.state := .eof, dec.ctrl := control, dec.seq := seq, dec.len := 3#8
    dec.buf := [(0, 1#8), (1, 2#8), (2, 3#8)] }

/-! ### Construction (rules R6, R209) -/

theorem test_construct_reference :
    Config.construct 255 4 10 16 25#32 50#32 1000#32 .h0 = some Config.reference := by decide
theorem test_construct_refuses_payload_0 : Config.construct 0 4 10 16 0#32 0#32 0#32 .h0 = none := by decide
theorem test_construct_refuses_payload_256 : Config.construct 256 4 10 16 0#32 0#32 0#32 .h0 = none := by decide
theorem test_construct_refuses_fifo_9 : Config.construct 1 9 10 16 0#32 0#32 0#32 .h0 = none := by decide
theorem test_construct_refuses_ring_17 : Config.construct 1 4 17 16 0#32 0#32 0#32 .h0 = none := by decide
theorem test_construct_refuses_window_0 : Config.construct 1 4 10 0 0#32 0#32 0#32 .h0 = none := by decide
theorem test_construct_refuses_window_256 : Config.construct 1 4 10 256 0#32 0#32 0#32 .h0 = none := by decide

/-! ### WellFormed: an ill-formed term for each check -/

theorem test_wf_queue_length : (Instr.queue 0#8 2#16 [0#8]).wf Config.reference = false := by decide
theorem test_wf_fifoPush_length : (Instr.fifoPush 0#6 2#8 [0#8]).wf Config.reference = false := by decide
theorem test_wf_fifoPush_maxPayload :
    (Instr.fifoPush 0#6 3#8 [0#8, 0#8, 0#8]).wf (smallPayload 2) = false := by decide
theorem test_wf_encEmit_ring_mask : (Instr.encEmit 0#8 0#8 .ring 0#16 0xFF#16 1#8).wf Config.reference = false := by
  decide
theorem test_wf_encEmit_ring_off : (Instr.encEmit 0#8 0#8 .ring 1024#16 1023#16 1#8).wf Config.reference = false := by
  decide
theorem test_wf_encEmit_imm_size :
    (Instr.encEmit 0#8 0#8 (.imm [0#8, 0#8]) 0#16 0#16 1#8).wf Config.reference = false := by decide
theorem test_wf_encEmit_imm_mask :
    (Instr.encEmit 0#8 0#8 (.imm [0#8]) 0#16 1#16 1#8).wf Config.reference = false := by decide
theorem test_wf_rxViolation_header : (Instr.rxViolation 0xAA#8).wf Config.reference = false := by decide
theorem test_wf_rxViolation_stuff : (Instr.rxViolation 0x55#8).wf Config.reference = false := by decide
theorem test_wf_sendFrame_slot : (Instr.sendFrame 16#8).wf Config.reference = false := by decide
theorem test_wf_hApp_ack : (Instr.hApp true 63#6).wf Config.reference = false := by decide
theorem test_wf_hApp_reset : (Instr.hApp true 62#6).wf Config.reference = false := by decide

/-! ### Decoding: one word for each instruction, its code bit by bit from rule R77 -/

theorem test_decode_hwreset : decode ⟨.pin, 0x00#8, []⟩ = .instr (.hwreset) := by decide
theorem test_decode_feed : decode ⟨.host, 0b00000001#8, [0x7E#8]⟩ = .instr (.feed 0x7E#8) := by decide
theorem test_decode_poll :
    decode ⟨.host, 0b00000010#8, [0x01#8, 0x02#8]⟩ =
      .instr (.poll [0x01#8, 0x02#8]) := by decide
theorem test_decode_queue :
    decode ⟨.host, 0b00000011#8, [0x45#8, 0x01#8, 0x00#8, 0x09#8]⟩ =
      .instr (.queue 0x45#8 1#16 [0x09#8]) := by decide
theorem test_decode_treset : decode ⟨.host, 0b00000100#8, [0x01#8]⟩ = .instr (.treset true) := by decide
theorem test_decode_status : decode ⟨.host, 0b00000101#8, [0xFF#8]⟩ = .instr (.status 0xFF#8) := by decide
theorem test_decode_crcInit : decode ⟨.micro, 0b00010000#8, [0x01#8]⟩ = .instr (.crcInit .rx) := by decide
theorem test_decode_crcStep :
    decode ⟨.micro, 0b00010001#8, [0x00#8, 0x85#8]⟩ =
      .instr (.crcStep .tx 0x85#8) := by decide
theorem test_decode_crcFinal : decode ⟨.micro, 0b00010010#8, [0x00#8]⟩ = .instr (.crcFinal .tx) := by decide
theorem test_decode_encRaw : decode ⟨.micro, 0b00100000#8, [0xAA#8]⟩ = .instr (.encRaw 0xAA#8) := by decide
theorem test_decode_encPut :
    decode ⟨.micro, 0b00100001#8, [0x0F#8, 0x01#8]⟩ =
      .instr (.encPut 0x0F#8 true) := by decide
theorem test_decode_encEmit_ring :
    decode ⟨.micro, 0b00100010#8, [0x81#8, 0x05#8, 0x00#8, 0x02#8, 0x01#8, 0xFF#8, 0x03#8, 0x04#8]⟩ =
      .instr (.encEmit 0x81#8 0x05#8 .ring 0x0102#16 0x03FF#16 0x04#8) := by decide
theorem test_decode_encEmit_imm :
    decode ⟨.micro, 0b00100010#8, [0xFF#8, 0x07#8, 0x01#8, 0x00#8, 0x00#8, 0x00#8, 0x00#8, 0x01#8, 0x07#8]⟩ =
      .instr (.encEmit 0xFF#8 0x07#8 (.imm [0x07#8]) 0#16 0#16 0x01#8) := by decide
theorem test_decode_rxbyte : decode ⟨.micro, 0b00110000#8, [0xAA#8]⟩ = .instr (.rxbyte 0xAA#8) := by decide
theorem test_decode_dispatch : decode ⟨.micro, 0b00110001#8, []⟩ = .instr (.dispatch) := by decide
theorem test_decode_rxResync : decode ⟨.micro, 0b00110010#8, []⟩ = .instr (.rxResync) := by decide
theorem test_decode_rxDestuff : decode ⟨.micro, 0b00110011#8, []⟩ = .instr (.rxDestuff) := by decide
theorem test_decode_rxViolation : decode ⟨.micro, 0b00110100#8, [0x54#8]⟩ = .instr (.rxViolation 0x54#8) := by decide
theorem test_decode_rxSof : decode ⟨.micro, 0b01000000#8, [0x11#8]⟩ = .instr (.rxSof 0x11#8) := by decide
theorem test_decode_rxCtrl : decode ⟨.micro, 0b01000001#8, [0x12#8]⟩ = .instr (.rxCtrl 0x12#8) := by decide
theorem test_decode_rxSeq : decode ⟨.micro, 0b01000010#8, [0x13#8]⟩ = .instr (.rxSeq 0x13#8) := by decide
theorem test_decode_rxLen : decode ⟨.micro, 0b01000011#8, [0x14#8]⟩ = .instr (.rxLen 0x14#8) := by decide
theorem test_decode_rxPay : decode ⟨.micro, 0b01000100#8, [0x15#8]⟩ = .instr (.rxPay 0x15#8) := by decide
theorem test_decode_rxC3 : decode ⟨.micro, 0b01000101#8, [0x16#8]⟩ = .instr (.rxC3 0x16#8) := by decide
theorem test_decode_rxC2 : decode ⟨.micro, 0b01000110#8, [0x17#8]⟩ = .instr (.rxC2 0x17#8) := by decide
theorem test_decode_rxC1 : decode ⟨.micro, 0b01000111#8, [0x18#8]⟩ = .instr (.rxC1 0x18#8) := by decide
theorem test_decode_rxC0 : decode ⟨.micro, 0b01001000#8, [0x19#8]⟩ = .instr (.rxC0 0x19#8) := by decide
theorem test_decode_rxEof : decode ⟨.micro, 0b01001001#8, [0x55#8]⟩ = .instr (.rxEof 0x55#8) := by decide
theorem test_decode_fifoPush :
    decode ⟨.micro, 0b01010000#8, [0x3F#8, 0x02#8, 0xA0#8, 0xA1#8]⟩ =
      .instr (.fifoPush 0x3F#6 0x02#8 [0xA0#8, 0xA1#8]) := by decide
theorem test_decode_fifoPop : decode ⟨.micro, 0b01010001#8, []⟩ = .instr (.fifoPop) := by decide
theorem test_decode_sendFrame : decode ⟨.micro, 0b01010010#8, [0x0F#8]⟩ = .instr (.sendFrame 0x0F#8) := by decide
theorem test_decode_sendAck : decode ⟨.micro, 0b01010011#8, []⟩ = .instr (.sendAck) := by decide
theorem test_decode_sendReset : decode ⟨.micro, 0b01010100#8, []⟩ = .instr (.sendReset) := by decide
theorem test_decode_tpClear : decode ⟨.micro, 0b01010101#8, []⟩ = .instr (.tpClear) := by decide
theorem test_decode_hAck : decode ⟨.handler, 0b11111111#8, []⟩ = .instr (.hAck) := by decide
theorem test_decode_hReset : decode ⟨.handler, 0b11111110#8, []⟩ = .instr (.hReset) := by decide
theorem test_decode_hApp : decode ⟨.handler, 0b11000101#8, []⟩ = .instr (.hApp true 0b000101#6) := by decide
theorem test_decode_hNontp : decode ⟨.handler, 0b01111111#8, []⟩ = .instr (.hNontp true 0b111111#6) := by decide

/-- Codes outside rule R77's table, and operands in no shape of rule R78, are rejected by name. -/
theorem test_decode_rejects_host_0 : decode ⟨.host, 0x00#8, []⟩ = .rejected (.notHostOp 0x00#8) := by decide
theorem test_decode_rejects_host_6 : decode ⟨.host, 0x06#8, []⟩ = .rejected (.notHostOp 0x06#8) := by decide
theorem test_decode_rejects_micro : decode ⟨.micro, 0x13#8, []⟩ = .rejected (.noMicroOp 0x13#8) := by decide
theorem test_decode_rejects_treset : decode ⟨.host, 0x04#8, [2#8]⟩ = .rejected (.operands "TRESET") := by decide
theorem test_decode_rejects_queue :
    decode ⟨.host, 0x03#8, [0#8, 2#8, 0#8, 9#8]⟩ = .rejected (.operands "QUEUE") := by decide

/-- A word of the opcode table, and the step that runs it. -/
theorem test_table_word : decodeTableWord 8 0x55 = some .tpClear := by decide
theorem test_table_word_handler : decodeTableWord 8 0x80 = some (.hApp false 0#6) := by decide
theorem test_fetch_word :
    step (State.reset.withFetchWord 8 0x05) = exec (.status 0#8) { State.reset with io.port := [] } := rfl

/-! ### Reset -/

/-- Rule R206: `HWRESET` keeps no counter and no window (the clock here is 990, T30). -/
theorem test_hwreset :
    got .hwreset { stateW with io.timeMs := 990#32, tp.droppedFrames := 7#32 }
      (fun t => (t.tp.snMax, t.tp.nFrames, t.tp.droppedFrames, t.tp.lastRxAny, t.dec.state)) =
      some (0#8, 0, 0#32, 990#32, .sof) := by decide +kernel

/-! ### CRC (section 2 of the vectors) -/

theorem test_crcInit : got (.crcInit .rx) State.reset (fun t => (t.crc.rx, t.crc.tx)) = some (0xFFFFFFFF#32, 0#32) := by
  decide
/-- 2.1: `step(FFFFFFFF, 85) = B02F67DD`. -/
theorem test_crcStep :
    got (.crcStep .tx 0x85#8) { State.reset with crc.tx := 0xFFFFFFFF#32 } (fun t => t.crc.tx) = some 0xB02F67DD#32 := by
  decide +kernel
/-- 2.1: `step(00000000, 80) = EDB88320`. -/
theorem test_crcStep_last_bit : got (.crcStep .rx 0x80#8) State.reset (fun t => t.crc.rx) = some 0xEDB88320#32 := by
  decide +kernel
/-- 2.2: after `85 00 03 01 02 03`. -/
theorem test_crcFinal :
    got (.crcFinal .tx) { State.reset with crc.tx := 0xB8082DD6#32 } (fun t => (t.io.ret, t.crc.tx)) =
      some (some 0x47F7D229#32, 0xB8082DD6#32) := by decide +kernel
/-- 2.3: the check value of "123456789". -/
theorem test_crc32_check : crc32 (bs [0x31, 0x32, 0x33, 0x34, 0x35, 0x36, 0x37, 0x38, 0x39]) = 0xCBF43926#32 := by
  decide +kernel

/-! ### ENC (section 3) -/

theorem test_encRaw_full : got (.encRaw 9#8) (withSpace 0#16 State.reset) (fun t => (t.io.txOut, t.io.txSpace)) =
    some ([9#8], 0#16) := by decide +kernel
/-- E4's second `AA`: the stuff byte follows and the countdown starts again. -/
theorem test_encPut_stuff :
    got (.encPut 0xAA#8 false) { State.reset with enc.hdrCnt := .one } (fun t => (t.io.txOut, t.enc.hdrCnt)) =
      some ([0xAA#8, 0x55#8], .two) := by decide +kernel
/-- The stuff byte is no logical byte: the checksum is stepped once, `step(0, AA)` by rule R87. -/
theorem test_encPut_crc :
    got (.encPut 0xAA#8 true) { State.reset with enc.hdrCnt := .one } (fun t => t.crc.tx) =
      some (crcStep 0#32 0xAA#8) := by decide +kernel
/-- E9: `F(AA, AA, [AA AA])`. -/
theorem test_encEmit_ring :
    got (.encEmit 0xAA#8 0xAA#8 .ring 1023#16 1023#16 2#8)
      { State.reset with tp.ring := [(0, 0xAA#8), (1023, 0xAA#8)] } (fun t => t.io.txOut) =
      some (bs [0xAA, 0xAA, 0xAA, 0xAA, 0xAA, 0x55, 0x02, 0xAA, 0xAA, 0x55, 0xBF, 0x0C, 0x43, 0xB0, 0x55]) := by
  decide +kernel
/-- E3: `NF(1, [AA])`. -/
theorem test_encEmit_imm :
    got (.encEmit 0x01#8 0x33#8 (.imm [0xAA#8]) 0#16 0#16 1#8) State.reset (fun t => t.io.txOut) =
      some (bs [0xAA, 0xAA, 0xAA, 0x01, 0x01, 0xAA, 0xD1, 0x9B, 0xC8, 0x92, 0x55]) := by decide +kernel

/-! ### DEC (section 4) -/

/-- 4.2: the second payload byte `AA` of E4. -/
theorem test_rxbyte_row :
    got (.rxbyte 0xAA#8)
      { State.reset with
        dec.state := .pay, dec.hdrCnt := .one, dec.len := 2#8, dec.cnt := 1#8, crc.rx := 0x054964AE#32, now := 7#32 }
      (fun t => (t.dec.state, t.dec.hdrCnt, t.crc.rx, t.dec.cnt, t.tp.lastRxAny)) =
      some (.c3, .two, 0x07688D7D#32, 2#8, 7#32) := by decide +kernel
/-- 4.2: the stuff byte that follows it is discarded. -/
theorem test_rxbyte_destuff :
    got (.rxbyte 0x55#8) { State.reset with dec.state := .c3, dec.hdrCnt := .two }
      (fun t => (t.dec.state, t.dec.hdrCnt, t.crc.rx)) = some (.c3, .zero, 0#32) := by decide +kernel
/-- X11. -/
theorem test_rxResync :
    got .rxResync { State.reset with dec.state := .eof, dec.hdrCnt := .two }
      (fun t => (t.dec.state, t.dec.hdrCnt, t.io.trace)) = some (.ctrl, .zero, [.resync]) := by decide +kernel
/-- The third sync byte of a frame is no event (4.2). -/
theorem test_rxResync_from_sof : got .rxResync State.reset (fun t => (t.dec.state, t.io.trace)) = some (.ctrl, []) := by
  decide +kernel
theorem test_rxDestuff :
    got .rxDestuff { State.reset with dec.state := .len, dec.hdrCnt := .two } (fun t => (t.dec.state, t.dec.hdrCnt)) =
      some (.len, .zero) := by decide +kernel
/-- X9. -/
theorem test_rxViolation :
    got (.rxViolation 0x00#8) { State.reset with dec.state := .pay, dec.hdrCnt := .two }
      (fun t => (t.dec.state, t.dec.hdrCnt, t.io.trace)) = some (.sof, .zero, [.stuffViolation 0x00#8]) := by
  decide +kernel
theorem test_rxSof : got (.rxSof 0x13#8) State.reset (fun t => (t.dec.state, t.crc.rx)) = some (.sof, 0#32) := by
  decide +kernel
/-- 4.2: `01` as control, no sequence follows. -/
theorem test_rxCtrl_nontp :
    got (.rxCtrl 0x01#8) { State.reset with dec.seq := 9#8, dec.cnt := 4#8 }
      (fun t => (t.dec.state, t.dec.seq, t.dec.cnt, t.crc.rx)) = some (.len, 0#8, 0#8, 0x5AFA20E4#32) := by
  decide +kernel
/-- 4.4: `AA` as control. -/
theorem test_rxCtrl_transport :
    got (.rxCtrl 0xAA#8) { State.reset with dec.seq := 9#8 } (fun t => (t.dec.state, t.dec.seq, t.crc.rx)) =
      some (.seq, 9#8, 0x1BFE5A84#32) := by decide +kernel
/-- 4.4: `AA` as sequence. -/
theorem test_rxSeq :
    got (.rxSeq 0xAA#8) { State.reset with crc.rx := 0x1BFE5A84#32 } (fun t => (t.dec.state, t.dec.seq, t.crc.rx)) =
      some (.len, 0xAA#8, 0xDCCDF395#32) := by decide +kernel
/-- X7: `Oversize(21)` when `MAX_PAYLOAD = 32`. -/
theorem test_rxLen_oversize :
    got (.rxLen 0x21#8) { State.reset with cfg := smallPayload 32 }
      (fun t => (t.dec.state, t.io.trace)) = some (.sof, [.oversize 0x21#8]) := by decide +kernel
/-- X8: 32 is accepted when `MAX_PAYLOAD = 32`. -/
theorem test_rxLen_largest :
    got (.rxLen 0x20#8) { State.reset with cfg := smallPayload 32 }
      (fun t => (t.dec.state, t.dec.len, t.io.trace)) = some (.pay, 0x20#8, []) := by decide +kernel
/-- 4.3: `84`, the last of three payload bytes. -/
theorem test_rxPay :
    got (.rxPay 0x84#8) { State.reset with dec.state := .pay, dec.cnt := 2#8, dec.len := 3#8, crc.rx := 0x0E1FD74C#32 }
      (fun t => (t.dec.state, t.dec.cnt, t.dec.buf.read 2, t.crc.rx)) = some (.c3, 3#8, 0x84#8, 0x95B15555#32) := by
  decide +kernel
/-- 4.2: the wire checksum `F8 97 72 82` byte by byte. -/
theorem test_rxC3 : got (.rxC3 0xF8#8) { State.reset with dec.wireCrc := 0xFFFFFFFF#32 } (fun t => t.dec.wireCrc) =
    some 0xF8000000#32 := by decide +kernel
theorem test_rxC2 : got (.rxC2 0x97#8) { State.reset with dec.wireCrc := 0xF8000000#32 } (fun t => t.dec.wireCrc) =
    some 0xF8970000#32 := by decide +kernel
theorem test_rxC1 : got (.rxC1 0x72#8) { State.reset with dec.wireCrc := 0xF8970000#32 } (fun t => t.dec.wireCrc) =
    some 0xF8977200#32 := by decide +kernel
theorem test_rxC0 :
    got (.rxC0 0x82#8) { State.reset with dec.wireCrc := 0xF8977200#32, crc.rx := 0x07688D7D#32 }
      (fun t => (t.dec.wireCrc, t.dec.state)) = some (0xF8977282#32, .eof) := by decide +kernel
theorem test_rxC0_mismatch :
    got (.rxC0 0x83#8) { State.reset with dec.wireCrc := 0xF8977200#32, crc.rx := 0x07688D7D#32 }
      (fun t => (t.dec.state, t.io.trace)) = some (.sof, [.crcMismatch 0xF8977283#32 0xF8977282#32]) := by
  decide +kernel
/-- X6: a header byte is a bad end marker. -/
theorem test_rxEof_bad :
    got (.rxEof 0xAA#8) (beforeEnd 0x01#8 0#8) (fun t => (t.dec.state, t.io.appOut, t.io.trace)) =
      some (.sof, [], [.badEndMarker 0xAA#8]) := by decide +kernel
theorem test_rxEof_dispatches :
    got (.rxEof 0x55#8) (beforeEnd 0x01#8 0#8) (fun t => (t.dec.state, t.io.appOut)) =
      some (.sof, [⟨1#6, 3#8, bs [1, 2, 3]⟩]) := by decide +kernel
/-- X16: identifier 63 of a non-transport frame. -/
theorem test_dispatch_nontp :
    got .dispatch (beforeEnd 0x7F#8 0#8) (fun t => (t.io.appOut, t.io.txOut)) =
      some ([⟨63#6, 3#8, bs [1, 2, 3]⟩], []) := by decide +kernel
/-- 4.4: control 0xAA is an application frame; with `rn = 0` it is dropped. -/
theorem test_dispatch_app :
    got .dispatch (beforeEnd 0xAA#8 0xAA#8) (fun t => (t.tp.seqMismatchDrops, t.io.trace)) =
      some (1#32, [.seqMismatch 0xAA#8 0#8]) := by decide +kernel

/-! ### The FIFO and sending (sections 5.1, 5.2) -/

/-- T4: a push that wraps round a ring of 8 bytes. -/
theorem test_fifoPush_wraps :
    got (.fifoPush 2#6 5#8 (bs [0x0A, 0x0B, 0x0C, 0x0D, 0x0E]))
      { State.reset with
        cfg.fifoBits := 2, cfg.fifoBits_le := by decide, cfg.ringBits := 3, cfg.ringBits_le := by decide
        tp.fifoHead := 1, tp.fifoTail := 1, tp.ringTail := 6
        tp.ring := [(0, 1#8), (1, 2#8), (2, 3#8), (3, 4#8), (4, 5#8), (5, 6#8)] }
      (fun t => (t.tp.ringTail, t.tp.ringUsed, t.tp.fifoTail, (slotAt 1 t).off, (List.range 8).map t.tp.ring.read)) =
      some (3, 5, 2, 6, bs [0x0C, 0x0D, 0x0E, 4, 5, 6, 0x0A, 0x0B]) := by decide +kernel
/-- The slot array's index wraps (T1). -/
theorem test_fifoPop_wraps :
    got .fifoPop { stateW with tp.fifoHead := 15, tp.slots := [(15, ⟨1#6, 0#8, 3#8, 0, 0#32⟩)] }
      (fun t => (t.tp.fifoHead, t.tp.nFrames, t.tp.ringUsed)) = some (0, 3, 1) := by decide +kernel
/-- State W's third frame. -/
theorem test_sendFrame :
    got (.sendFrame 2#8) { stateW with now := 10#32 } (fun t => (t.io.txOut, (slotAt 2 t).lastSent)) =
      some (bs [0xAA, 0xAA, 0xAA, 0x81, 0x0C, 0x01, 0x12, 0x97, 0x19, 0xB7, 0x2F, 0x55], 10#32) := by decide +kernel
/-- E15. -/
theorem test_sendAck :
    got .sendAck { State.reset with tp.rn := 6#8, now := 9#32 } (fun t => (t.io.txOut, t.tp.lastAckTx)) =
      some (bs [0xAA, 0xAA, 0xAA, 0xFF, 0x06, 0x01, 0x06, 0x0B, 0xB4, 0x31, 0x2B, 0x55], 9#32) := by decide +kernel
/-- T8: an ACK needs 12 bytes. -/
theorem test_sendAck_no_space :
    got .sendAck { withSpace 11#16 State.reset with now := 9#32 } (fun t => (t.io.txOut, t.tp.lastAckTx, t.io.trace)) =
      some ([], 0#32, [.txNoSpace .ack]) := by decide +kernel
/-- E21, with just the space it needs. -/
theorem test_sendReset :
    got .sendReset (withSpace 11#16 State.reset) (fun t => (t.io.txOut, t.io.txSpace)) =
      some (bs [0xAA, 0xAA, 0xAA, 0xFE, 0x00, 0x00, 0x40, 0x1B, 0x87, 0xC8, 0x55], 0#16) := by decide +kernel
/-- T42. -/
theorem test_sendReset_no_space :
    got .sendReset (withSpace 10#16 State.reset) (fun t => (t.io.txOut, t.io.trace)) =
      some ([], [.txNoSpace .reset]) := by decide +kernel
/-- Rule R158: the counters stay. -/
theorem test_tpClear :
    got .tpClear { stateW with now := 5#32, tp.spuriousAcks := 2#32 }
      (fun t => (t.tp.snMin, t.tp.nFrames, t.tp.ringTail, t.tp.lastAckTx, t.tp.spuriousAcks)) =
      some (0#8, 0, 0, 5#32, 2#32) := by decide +kernel

/-! ### The handlers (sections 5.3, 5.4, 5.6) -/

/-- T20 (the source's S6). -/
theorem test_hAck :
    got .hAck (stateWAck 10#32 0x0C#8 0x0D#8)
      (fun t => (t.io.txOut, t.tp.snMin, t.tp.fifoHead, t.tp.nFrames, t.tp.ringUsed, (slotAt 3 t).lastSent)) =
      some (bs [0xAA, 0xAA, 0xAA, 0x81, 0x0C, 0x01, 0x12, 0x97, 0x19, 0xB7, 0x2F, 0x55], 0x0C#8, 2, 2, 2, 4#32) := by
  decide +kernel
/-- T24: an old ACK is spurious. -/
theorem test_hAck_spurious :
    got .hAck (stateWAck 10#32 0x09#8 0x09#8) (fun t => (t.tp.spuriousAcks, t.tp.snMin, t.tp.nFrames, t.io.txOut)) =
      some (1#32, 0x0A#8, 4, []) := by decide +kernel
/-- T40. -/
theorem test_hReset :
    got .hReset { stateW with now := 100#32, tp.rn := 1#8 }
      (fun t => (t.tp.snMax, t.tp.rn, t.tp.nFrames, t.tp.lastRxFrame, t.tp.resetsReceived)) =
      some (0#8, 0#8, 0, 100#32, 1#32) := by decide +kernel
/-- T11: the sequence number wraps. -/
theorem test_hApp :
    got (.hApp false 1#6)
      { State.reset with tp.rn := 0xFF#8, dec.seq := 0xFF#8, dec.len := 1#8, dec.buf := [(0, 9#8)], now := 4#32 }
      (fun t => (t.io.txOut, t.io.appOut, t.tp.rn, t.tp.lastRxFrame)) =
      some (bs [0xAA, 0xAA, 0xAA, 0xFF, 0x00, 0x01, 0x00, 0xE6, 0x5A, 0xE8, 0xAC, 0x55], [⟨1#6, 1#8, bs [9]⟩], 0#8,
        4#32) := by decide +kernel
/-- T10: a duplicate. -/
theorem test_hApp_duplicate :
    got (.hApp false 1#6) { State.reset with tp.rn := 6#8, dec.seq := 5#8, now := 2#32 }
      (fun t => (t.io.txOut, t.io.appOut, t.tp.seqMismatchDrops, t.tp.lastRxFrame)) =
      some ([], [], 1#32, 2#32) := by decide +kernel
/-- T12. -/
theorem test_hNontp :
    got (.hNontp false 7#6) { State.reset with dec.len := 1#8, dec.buf := [(0, 0x42#8)], now := 8#32 }
      (fun t => (t.io.appOut, t.io.txOut, t.tp.lastRxFrame)) = some ([⟨7#6, 1#8, bs [0x42]⟩], [], 0#32) := by
  decide +kernel

/-! ### The host operations (sections 5.1 to 5.7) -/

/-- T30's `@1400 FEED 00`. -/
theorem test_feed :
    got (.feed 0x00#8) { State.reset with io.timeMs := 1400#32 } (fun t => (t.tp.lastRxAny, t.dec.state, t.io.txOut)) =
      some (1400#32, .sof, []) := by decide +kernel
/-- T6 with 14 bytes. -/
theorem test_poll_sends :
    got (.poll []) { withSpace 14#16 oneQueued with io.timeMs := 1#32 }
      (fun t => (t.io.txOut, t.tp.snMax, t.io.txSpace)) =
      some (bs [0xAA, 0xAA, 0xAA, 0x85, 0x00, 0x03, 0x01, 0x02, 0x03, 0x47, 0xF7, 0xD2, 0x29, 0x55], 1#8, 0#16) := by
  decide +kernel
/-- T6 with 13 bytes. -/
theorem test_poll_no_space :
    got (.poll []) { withSpace 13#16 oneQueued with io.timeMs := 1#32 } (fun t => (t.io.txOut, t.tp.snMax)) =
      some ([], 0#8) := by decide +kernel
/-- T3: the identifier is masked to 6 bits. -/
theorem test_queue :
    got (.queue 0x45#8 1#16 [9#8]) State.reset (fun t => ((slotAt 0 t).id, (slotAt 0 t).len, t.tp.nFrames, t.io.ret)) =
      some (5#6, 1#8, 1, some 1#32) := by decide +kernel
/-- T2: no room in the ring. -/
theorem test_queue_rejects :
    got (.queue 1#8 1#16 [1#8]) { stateW with tp.ringUsed := 1024 }
      (fun t => (t.tp.nFrames, t.tp.droppedFrames, t.io.ret)) = some (4, 1#32, some 0#32) := by decide +kernel
/-- T41. -/
theorem test_treset :
    got (.treset true) { stateW with io.timeMs := 5#32 } (fun t => (t.io.txOut, t.tp.nFrames, t.tp.lastAckTx)) =
      some (bs [0xAA, 0xAA, 0xAA, 0xFE, 0x00, 0x00, 0x40, 0x1B, 0x87, 0xC8, 0x55], 0, 5#32) := by decide +kernel
/-- T42: without space the clear is done all the same. -/
theorem test_treset_no_space :
    got (.treset true) (withSpace 10#16 { stateW with io.timeMs := 5#32 })
      (fun t => (t.io.txOut, t.tp.nFrames, t.tp.lastAckTx)) = some ([], 0, 5#32) := by decide +kernel
/-- 5.7, after state W. -/
theorem test_status : got (.status 4#8) stateW (fun t => t.io.ret) = some (some 0x00000E0A#32) := by decide +kernel
/-- 5.7: `rx_state` stands at bit 4, the flags in bits 1 and 0 (rule R30). -/
theorem test_status_link :
    got (.status 7#8) { State.reset with dec.state := .eof, tp.remoteActive := true } (fun t => t.io.ret) =
      some (some 0x00000092#32) := by decide +kernel
/-! ### Witnesses: the hypotheses of the statements can be met -/

/-- Where a field of the next state is got, there is one. -/
theorem answers_and {α : Type} {i : Instr} {s : State} {f : State → α} {x : α} {p : Prop} (h : got i s f = some x)
    (hp : p) : ∃ t, exec i s = .next t ∧ p := by
  unfold got at h
  split at h
  · next t ht => exact ⟨t, ht, hp⟩
  · cases h

/-- In the middle of a frame: a payload of 255 bytes of which 254 have come. -/
def lastPayloadByte : State := { State.reset with dec.state := .pay, dec.len := 255#8, dec.cnt := 254#8 }

/-- `EncRawOneByte`: each clause; the second at its smallest space. -/
theorem witness_encRawOneByte :
    State.reset.cfg.hostTx = .h0 ∧
    ((withSpace 1#16 State.reset).cfg.hostTx = .h1 ∧ (withSpace 1#16 State.reset).io.txSpace ≠ 0#16) ∧
    (withSpace 0#16 State.reset).cfg.hostTx = .h1 ∧ (withSpace 0#16 State.reset).io.txSpace = 0#16 := by decide

/-- `EncEmitWireForm`, `EncEmitNoTripleHeader`: both forms of source, `RING` at its last offset. -/
theorem witness_encEmit :
    EncSrc.ring.wf State.reset.cfg 1023#16 1023#16 = true ∧
    (EncSrc.imm [0xAA#8]).wf State.reset.cfg 0xFFFF#16 0#16 = true := by decide

/-- `CrcDetectsOneBit`: the last bit of a byte. -/
theorem witness_crcDetectsOneBit : 7 < 8 := by decide

/-- `RxSpecialBranch`, and the two clauses of `RxbyteCountsAndSelects`. -/
theorem witness_rxSpecialBranch :
    ({ State.reset with dec.hdrCnt := .two } : State).dec.hdrCnt = .two ∧ State.reset.dec.hdrCnt ≠ .two ∧
    ({ State.reset with dec.hdrCnt := .one } : State).dec.hdrCnt ≠ .two := by decide

/-- `RxPayRow`: the last byte of `RXBUF`. -/
theorem witness_rxPayRow :
    lastPayloadByte.dec.buf.wf = true ∧ lastPayloadByte.dec.cnt.toNat < lastPayloadByte.cfg.maxPayload := by decide

/-- `RxC0Row`: a checksum that matches, and one that does not. -/
theorem witness_rxC0Row :
    (wireByte0 0xF8977200#32 0x82#8).extractLsb' 0 8 = 0x82#8 ∧
    (wireByte0 0xF8977200#32 0x82#8).extractLsb' 8 24 = (0xF8977200#32).extractLsb' 8 24 ∧
    wireByte0 0xF8977200#32 0x82#8 = ~~~0x07688D7D#32 ∧ wireByte0 0xF8977200#32 0x83#8 ≠ ~~~0x07688D7D#32 := by decide

/-- `RxEofRow`, `DispatchSelectsHandler`, `HNontpDelivers`: the longest payload. -/
theorem witness_rxEofRow :
    lastPayloadByte.dec.len.toNat ≤ lastPayloadByte.cfg.maxPayload ∧ (0x55#8 : Byte) = 0x55#8 ∧
    (0xAA#8 : Byte) ≠ 0x55#8 := by decide

/-- `RxbyteAlwaysCompletes`, `RxStateTable`, `FeedPollComplete`, `PollLinkFlags`: after reset and in a payload. -/
theorem witness_decInv : DecInv State.reset ∧ DecInv lastPayloadByte ∧ DecInv (beforeEnd 0x01#8 0#8) := by
  refine ⟨⟨?_, ?_, ?_⟩, ⟨?_, ?_, ?_⟩, ⟨?_, ?_, ?_⟩⟩ <;> decide

/-- `RoundTrip`, `HardResync`: from the middle of a frame; the longest and the shortest payload. -/
theorem witness_roundTrip :
    DecInv lastPayloadByte ∧ lastPayloadByte.dec.buf.wf = true ∧ lastPayloadByte.dec.hdrCnt = .zero ∧
    (List.replicate 255 0xAA#8).length ≤ lastPayloadByte.cfg.maxPayload ∧
    ([] : List Byte).length ≤ lastPayloadByte.cfg.maxPayload :=
  ⟨witness_decInv.2.1, by decide, by decide, by rw [List.length_replicate]; decide, by decide⟩

/-- `DeliveryOnlyAtEndMarker`: a byte that is no end marker, and an end marker that delivers. -/
theorem witness_deliveryOnlyAtEndMarker :
    (∃ t, exec (.rxbyte 0xAA#8) lastPayloadByte = .next t ∧
      ¬(lastPayloadByte.dec.state = .eof ∧ lastPayloadByte.dec.hdrCnt ≠ .two ∧ (0xAA#8 : Byte) = 0x55#8)) ∧
    ∃ t, exec (.rxbyte 0x55#8) (beforeEnd 0x01#8 0#8) = .next t ∧ t.io.appOut ≠ (beforeEnd 0x01#8 0#8).io.appOut :=
  ⟨⟨_, rfl, by decide⟩, _, rfl, by decide +kernel⟩

/-- `FeedThenPoll`. -/
theorem witness_feedThenPoll : ∃ u, exec (.feed 0xAA#8) State.reset = .next u := ⟨_, rfl⟩

/-- `FifoPushStores`: the last slot and the last bytes of the ring. -/
theorem witness_fifoPushStores :
    [1#8, 2#8, 3#8].length = (3#8 : Byte).toNat ∧
    (let s : State := { stateW with tp.nFrames := 15, tp.ringUsed := 1021 }
     s.tp.ring.wf = true ∧ s.tp.slots.wf = true ∧ s.tp.nFrames < s.cfg.fifoSlots ∧
       s.tp.ringUsed + [1#8, 2#8, 3#8].length ≤ s.cfg.ringSize) := by decide

/-- `FifoPopReleases`: the only frame of the queue. -/
theorem witness_fifoPopReleases :
    0 < oneQueued.tp.nFrames ∧ (slotAt oneQueued.tp.fifoHead oneQueued).len.toNat ≤ oneQueued.tp.ringUsed := by decide

/-- `SendFrameEmits`: the last slot. -/
theorem witness_sendFrameEmits : stateW.tp.slots.wf = true ∧ (15#8 : Byte).toNat < stateW.cfg.fifoSlots := by decide

/-- `SendResetEmits`: exactly the space needed, and one byte less. -/
theorem witness_sendResetEmits :
    11 ≤ txSpace (withSpace 11#16 State.reset) ∧ ¬11 ≤ txSpace (withSpace 10#16 State.reset) := by decide

/-- `HAppAcceptsInOrder`: the number expected with the longest payload, and another number. -/
theorem witness_hAppAcceptsInOrder :
    (lastPayloadByte.dec.seq = lastPayloadByte.tp.rn ∧ lastPayloadByte.dec.len.toNat ≤ lastPayloadByte.cfg.maxPayload) ∧
    (beforeEnd 0x81#8 1#8).dec.seq ≠ (beforeEnd 0x81#8 1#8).tp.rn := by decide

/-- State W with the ACK `{seq, p0}` to be dispatched at 10. -/
def acked10 (seq p0 : Byte) : State := stateWAck 10#32 seq p0

/-- `HAckThreeCases`: all four frames acknowledged, none acknowledged, one more than there are, and nothing queued. -/
theorem witness_hAckThreeCases :
    (FifoInv (acked10 0x0E#8 0x0E#8) ∧ WindowInv (acked10 0x0E#8 0x0E#8) ∧
      (0x0E#8 - 0x0A#8 : Byte).toNat ≤ (win (acked10 0x0E#8 0x0E#8)).toNat ∧ 0 < (acked10 0x0E#8 0x0E#8).tp.nFrames) ∧
    (FifoInv (acked10 0x0A#8 0x0C#8) ∧ WindowInv (acked10 0x0A#8 0x0C#8) ∧
      (0x0A#8 - 0x0A#8 : Byte).toNat ≤ (win (acked10 0x0A#8 0x0C#8)).toNat ∧ 0 < (acked10 0x0A#8 0x0C#8).tp.nFrames) ∧
    (FifoInv (acked10 0x0F#8 0x0F#8) ∧ WindowInv (acked10 0x0F#8 0x0F#8) ∧
      (win (acked10 0x0F#8 0x0F#8)).toNat < (0x0F#8 - 0x0A#8 : Byte).toNat) ∧
    (FifoInv State.reset ∧ WindowInv State.reset ∧
      (State.reset.dec.seq - State.reset.tp.snMin).toNat ≤ (win State.reset).toNat ∧ State.reset.tp.nFrames = 0) ∧
    stateW.tp.slots.wf = true ∧ State.reset.tp.slots.wf = true := by
  refine ⟨⟨?_, ?_, by decide, by decide⟩, ⟨?_, ?_, by decide, by decide⟩, ⟨?_, ?_, by decide⟩,
    ⟨?_, ?_, by decide, by decide⟩, by decide, by decide⟩ <;> constructor <;> decide +kernel

/-- `HAckResentBytes`: T21, the count wrapped to 255, so that all that is left is asked for. -/
theorem witness_hAckResentBytes :
    FifoInv (acked10 0x0C#8 0x0B#8) ∧ WindowInv (acked10 0x0C#8 0x0B#8) ∧
    (acked10 0x0C#8 0x0B#8).tp.slots.wf = true ∧ (acked10 0x0C#8 0x0B#8).cfg.hostTx = .h0 ∧
    (0x0C#8 - 0x0A#8 : Byte).toNat ≤ (win (acked10 0x0C#8 0x0B#8)).toNat ∧ 0 < (acked10 0x0C#8 0x0B#8).tp.nFrames ∧
    (win (acked10 0x0C#8 0x0B#8)).toNat - (0x0C#8 - 0x0A#8 : Byte).toNat ≤ (0x0B#8 - 0x0C#8 : Byte).toNat := by
  refine ⟨?_, ?_, by decide, by decide, by decide, by decide, by decide⟩ <;> constructor <;> decide +kernel

/-- T21: what it resends. -/
theorem test_hAck_all :
    got .hAck (stateWAck 10#32 0x0C#8 0x0B#8) (fun t => t.io.txOut) =
      some (bs [0xAA, 0xAA, 0xAA, 0x81, 0x0C, 0x01, 0x12, 0x97, 0x19, 0xB7, 0x2F, 0x55,
        0xAA, 0xAA, 0xAA, 0x81, 0x0D, 0x01, 0x13, 0xE1, 0xDC, 0xED, 0x8E, 0x55]) := by decide +kernel

/-- `DirectionsApart`: an application frame, an ACK and a frame without the transport flag. -/
theorem witness_directionsApart :
    (∃ t, exec (.rxbyte 0x55#8) (beforeEnd 0x81#8 0#8) = .next t ∧
      (beforeEnd 0x81#8 0#8).dec.ctrl ≠ 0xFF#8 ∧ (beforeEnd 0x81#8 0#8).dec.ctrl ≠ 0xFE#8) ∧
    (∃ t, exec (.rxbyte 0x55#8) (beforeEnd 0xFF#8 0#8) = .next t ∧ (beforeEnd 0xFF#8 0#8).dec.ctrl = 0xFF#8) ∧
    ∃ t, exec (.rxbyte 0x55#8) (beforeEnd 0x7F#8 0#8) = .next t ∧ (beforeEnd 0x7F#8 0#8).dec.ctrl.getLsbD 7 = false :=
  ⟨answers_and (f := fun _ => ()) (x := ()) (by decide +kernel) ⟨by decide, by decide⟩,
    answers_and (f := fun _ => ()) (x := ()) (by decide +kernel) (by decide),
    answers_and (f := fun _ => ()) (x := ()) (by decide +kernel) (by decide)⟩

/-- `QueueAcceptsOrRejects`: each ground of rejection by one, and a frame that just fits. -/
theorem witness_queueAcceptsOrRejects :
    (2 : Nat) < (3#16 : Half).toNat ∧ (smallPayload 2).maxPayload = 2 ∧
    ({ State.reset with tp.nFrames := 16 } : State).tp.nFrames = State.reset.cfg.fifoSlots ∧
    State.reset.cfg.ringSize - 1023 < (2#16 : Half).toNat ∧
    (let s : State := { State.reset with tp.nFrames := 15, tp.ringUsed := 1023 }
     ¬(s.cfg.maxPayload < (1#16 : Half).toNat ∨ s.tp.nFrames = s.cfg.fifoSlots ∨
        s.cfg.ringSize - s.tp.ringUsed < (1#16 : Half).toNat)) ∧
    ¬(State.reset.cfg.maxPayload < (255#16 : Half).toNat ∨ State.reset.tp.nFrames = State.reset.cfg.fifoSlots ∨
        State.reset.cfg.ringSize - State.reset.tp.ringUsed < (255#16 : Half).toNat) ∧
    [7#8].length = (1#16 : Half).toNat := by decide

/-- The memories of state W. -/
theorem memInv_stateW : MemInv stateW := by constructor <;> decide

/-- `QueueKeepsQueued`: a frame accepted behind four others. -/
theorem witness_queueKeepsQueued :
    FifoInv stateW ∧ MemInv stateW ∧ [7#8].length = (1#16 : Half).toNat ∧
    got (.queue 1#8 1#16 [7#8]) stateW (fun t => t.io.ret) = some (some 1#32) :=
  ⟨by constructor <;> decide +kernel, memInv_stateW, by decide, by decide +kernel⟩

/-- `StatusWords`: every index, the counts at their greatest. -/
theorem witness_statusWords :
    ({ State.reset with tp.nFrames := 16 } : State).tp.nFrames ≤ State.reset.cfg.fifoSlots ∧
    ({ State.reset with tp.ringUsed := 1024 } : State).tp.ringUsed ≤ State.reset.cfg.ringSize ∧
    8 ≤ (8#8 : Byte).toNat ∧ 8 ≤ (0xFF#8 : Byte).toNat := by decide

/-- `PollSendsNewFrame`: the space is exactly what the frame needs. -/
theorem witness_pollSendsNewFrame :
    (let s := withSpace 14#16 oneQueued
     s.tp.slots.wf = true ∧ (win s).toNat < s.cfg.maxWindow ∧ (win s).toNat < s.tp.nFrames ∧
       (queuedSlot s (win s).toNat).len.toNat + 11 ≤ txSpace s) := by decide

/-- `PollResendsOldest`: state W at 52, its first frame 51 old. -/
theorem witness_pollResendsOldest :
    (let s : State := { stateW with io.timeMs := 52#32 }
     s.tp.slots.wf = true ∧ s.tp.fifoHead < s.cfg.fifoSlots ∧
       ¬((win s).toNat < s.cfg.maxWindow ∧ (win s).toNat < s.tp.nFrames ∧
         (queuedSlot s (win s).toNat).len.toNat + 11 ≤ txSpace s) ∧
       (s.io.timeMs - s.tp.lastRxAny).toNat < s.cfg.idleMs.toNat ∧ 0 < (win s).toNat ∧
       (∀ i, i < (win s).toNat →
         (s.io.timeMs - (queuedSlot s i).lastSent).toNat ≤ (s.io.timeMs - (queuedSlot s 0).lastSent).toNat) ∧
       (∀ i, i < 0 →
         (s.io.timeMs - (queuedSlot s i).lastSent).toNat < (s.io.timeMs - (queuedSlot s 0).lastSent).toNat) ∧
       s.cfg.frameRetxMs.toNat < (s.io.timeMs - (queuedSlot s 0).lastSent).toNat) := by decide +kernel

/-- `PollPeriodicAckOnly`: state W at 51, its first frame exactly 50 old. -/
theorem witness_pollPeriodicAckOnly :
    (let s : State := { stateW with io.timeMs := 51#32 }
     s.tp.fifoHead < s.cfg.fifoSlots ∧
       ¬((win s).toNat < s.cfg.maxWindow ∧ (win s).toNat < s.tp.nFrames ∧
         (queuedSlot s (win s).toNat).len.toNat + 11 ≤ txSpace s) ∧
       ((s.io.timeMs - s.tp.lastRxAny).toNat < s.cfg.idleMs.toNat → ∀ i, i < (win s).toNat →
         (s.io.timeMs - (queuedSlot s i).lastSent).toNat ≤ s.cfg.frameRetxMs.toNat)) := by decide +kernel

/-- `CountersChangedOnlyBy`, `ConstantsNeverChange`: each line of the table of rule R27, by one or another of the
operations that run it, and a case beside it. -/
theorem witness_countersChangedOnlyBy :
    got (.queue 1#8 1#16 [7#8]) { stateW with tp.nFrames := 16 } counters = some ⟨1#32, 0#32, 0#32, 0#32⟩ ∧
    got .dispatch (acked10 0x0F#8 0x0F#8) counters = some ⟨0#32, 1#32, 0#32, 0#32⟩ ∧
    got .dispatch (acked10 0x0E#8 0x0E#8) counters = some ⟨0#32, 0#32, 0#32, 0#32⟩ ∧
    got (.feed 0x55#8) (beforeEnd 0x81#8 1#8) counters = some ⟨0#32, 0#32, 1#32, 0#32⟩ ∧
    got (.rxbyte 0x54#8) (beforeEnd 0x81#8 1#8) counters = some ⟨0#32, 0#32, 0#32, 0#32⟩ ∧
    got (.poll [0x55#8, 0x55#8]) (beforeEnd 0xFE#8 0#8) counters = some ⟨0#32, 0#32, 0#32, 1#32⟩ := by decide +kernel

/-- State W with an operation of the host on its port. -/
def stateWPort : State := { stateW with io.port := [⟨10#32, 0, .host, 0x02#8, []⟩] }

/-- `ConstantsNeverChange`, `StreamsOnlyGrow`, `InvKept`, `RunsNeverStop`. -/
theorem witness_invKept : Inv stateWPort ∧ RequestsShaped stateWPort ∧ ∃ t, step stateWPort = .next t := by
  refine ⟨⟨⟨?_, ?_, ?_⟩, ?_, ?_, ?_, ?_⟩, ?_, _, rfl⟩
  · decide
  · decide
  · decide
  · constructor <;> decide +kernel
  · constructor <;> decide +kernel
  · exact ⟨by decide, by decide, by decide, by decide, by decide, by decide⟩
  · intro r hr
    rw [List.mem_singleton.1 hr]
    exact .inr rfl
  · intro r hr _ m
    rw [List.mem_singleton.1 hr]
    exact nofun

/-- `beforeEnd` on an instance whose `RXBUF` is one byte too short for the frame. -/
def tooLong (control seq : Byte) : State := { beforeEnd control seq with cfg := smallPayload 2 }

/-- `StopsByName`: the first index that does not exist, in each clause, and a payload too short; a list of bytes that
stops at its first, and one that is taken; bytes that are no operation. -/
theorem witness_stopsByName :
    (let s : State := { State.reset with dec.state := .pay, dec.cnt := 255#8 }
     s.cfg.maxPayload ≤ s.dec.cnt.toNat ∧ rxFault 7#8 s = some (.rxbufIndex 255) ∧ Fed [] s s) ∧
    (LongDelivery (tooLong 0x7F#8 1#8) ∧ LongDelivery (tooLong 0x81#8 0#8) ∧ ¬LongDelivery (tooLong 0x81#8 1#8) ∧
      ¬LongDelivery (tooLong 0xFE#8 0#8) ∧ ¬LongDelivery (beforeEnd 0x01#8 0#8)) ∧
    rxFault 0x55#8 (tooLong 0x7F#8 1#8) = some (.rxbufIndex 2) ∧ Fed [] State.reset State.reset ∧
    (State.reset.cfg.fifoSlots ≤ (16#8 : Byte).toNat ∧ ¬State.reset.cfg.fifoSlots ≤ (15#8 : Byte).toNat) ∧
    ([7#8].length ≤ (0 + 1) &&& (0xFFFF#16 : Half).toNat ∧ (0 + 0) &&& (0xFFFF#16 : Half).toNat < [7#8].length) ∧
    ([7#8].length ≠ (2#8 : Byte).toNat ∧ [7#8].length ≠ (2#16 : Half).toNat) ∧
    decode { space := .host, op := 0x01#8, args := [] } = .rejected (.operands "FEED") ∧
    ∀ code, DecodeError.operands "FEED" ≠ .notHostOp code :=
  ⟨⟨by decide, by decide, rfl⟩, by decide, by decide, rfl, by decide, by decide, by decide, by decide, nofun⟩

/-- `DecodeEncode`: the forms with a condition, at the ends of their ranges. -/
theorem witness_decodeEncode :
    (Instr.hApp true 61#6).wf Config.reference = true ∧ (Instr.hApp false 63#6).wf Config.reference = true ∧
    (Instr.sendFrame 15#8).wf Config.reference = true ∧ (Instr.rxViolation 0x54#8).wf Config.reference = true ∧
    (Instr.queue 0xFF#8 1#16 [7#8]).wf Config.reference = true ∧
    (Instr.fifoPush 63#6 1#8 [7#8]).wf Config.reference = true ∧
    (Instr.encEmit 0#8 0#8 .ring 1023#16 1023#16 255#8).wf Config.reference = true := by decide

/-- `StepRunsDecoded`: a request at the head of the port, and an empty port. -/
theorem witness_stepRunsDecoded :
    stateWPort.io.port = ⟨10#32, 0, .host, 0x02#8, []⟩ :: [] ∧
    decode { space := .host, op := if OpSpace.host = .handler then stateWPort.dec.ctrl else 0x02#8, args := [] } =
      .instr (.poll []) ∧
    stateW.io.port = [] := by decide

/-- `IllegalCommandIgnored`: the codes on either side of those that exist. -/
theorem witness_illegalCommandIgnored :
    (let r : Request := ⟨10#32, 0, .host, 0x06#8, []⟩
     ({ stateW with io.port := [r] } : State).io.port = r :: [] ∧ r.space = .host) ∧
    ¬(1 ≤ (0x06#8 : Byte).toNat ∧ (0x06#8 : Byte).toNat ≤ 5) ∧
    ¬(1 ≤ (0x00#8 : Byte).toNat ∧ (0x00#8 : Byte).toNat ≤ 5) := by decide

end Sys2Proof.Tests
end

section
/-! SUPPORT. Statement O50 (10_state.md rule R28): no operation and no step writes the construction constants. Most
operations have a frame in Sys2Proof/Laws already (`Keeps`, `DecOnly`, `Emitted`), which names the constants; the frames
below are those of the operations that had none. -/

namespace Sys2Proof.Machine

/-! ### CRC and ENC as operations of their own -/

@[simp] theorem crcSet_cfg (acc : CrcCtx) (v : Word) (s : State) : (crcSet acc v s).cfg = s.cfg := by
  cases acc <;> rfl

/-- `ENC_PUT` (rule R98) emits the byte and the stuff byte it causes. -/
theorem encPut_emitted (b : Byte) (crc : Bool) (s : State) :
    Emitted (stuffed s.enc.hdrCnt.seen [b]) s (encPut b crc s) :=
  emitted_iff.2 ⟨_, _, encPut_eq b crc s⟩

/-- `ENC_EMIT` (rule R96), when it answers a next state, emits the wire form of its frame. -/
theorem execEncEmit_emitted {control seq : Byte} {src : EncSrc} {off mask : Half} {len : Byte} {s t : State}
    (h : execEncEmit control seq src off mask len s = .next t) :
    Emitted (wire control seq (srcBytes src off.toNat mask.toNat len.toNat s)) s t := by
  unfold execEncEmit at h
  split at h
  · cases h
  · cases h
    exact emitFrame_emitted _ _ _ _ _ (by rw [srcBytes_length, ofNat_toNat_byte])

/-! ### The rows of the state table as operations of their own -/

/-- A row presented by itself, in whatever parse state, changes what it changes inside `RXBYTE`: the decoder's fields,
`rx_crc` and the event trace (rules R113 to R121). -/
theorem exec_rowOp_decOnly (st : RxState) (b : Byte) {s t : State} (hst : st ≠ .eof)
    (h : exec (rowOp st b) s = .next t) : DecOnly s t := by
  cases st with
  | sof | seq | c3 | c2 | c1 => cases h; exact ⟨rfl⟩
  | ctrl =>
    change execRxCtrl b s = .next t at h
    unfold execRxCtrl at h
    simp only at h
    split at h <;> cases h <;> exact ⟨rfl⟩
  | len =>
    change execRxLen b s = .next t at h
    unfold execRxLen at h
    simp only at h
    split at h
    · cases h; exact ⟨rfl⟩
    · split at h <;> cases h <;> exact ⟨rfl⟩
  | pay =>
    change execRxPay b s = .next t at h
    unfold execRxPay at h
    simp only at h
    split at h
    · split at h <;> cases h <;> exact ⟨rfl⟩
    · cases h
  | c0 =>
    change execRxC0 b s = .next t at h
    unfold execRxC0 at h
    simp only at h
    split at h <;> cases h <;> exact ⟨rfl⟩
  | eof => exact absurd rfl hst

/-- `RX_EOF` (rule R122): the handler, after `rx_state` is written, or an event. -/
theorem execRxEof_keeps {b : Byte} {s t : State} (h : execRxEof b s = .next t) : Keeps s t := by
  unfold execRxEof at h
  split at h
  · exact (goto_keeps .sof s).trans (execDispatch_keeps h)
  · cases h
    exact (goto_keeps .sof s).trans (drop_keeps _ _)

/-! ### TP and the command port -/

theorem execFifoPush_cfg {id : Ident} {len : Byte} {payload : List Byte} {s t : State}
    (h : execFifoPush id len payload s = .next t) : t.cfg = s.cfg := by
  unfold execFifoPush at h
  split at h <;> cases h
  rw [fifoPush_cfg]

theorem execSendFrame_keeps {k : Byte} {s t : State} (h : execSendFrame k s = .next t) : Keeps s t := by
  unfold execSendFrame at h
  split at h <;> cases h
  exact sendFrame_keeps _ s

theorem execQueue_cfg {id : Byte} {len : Half} {payload : List Byte} {s t : State}
    (h : execQueue id len payload s = .next t) : t.cfg = s.cfg := by
  unfold execQueue at h
  split at h
  · simp only at h
    split at h <;> cases h
    · rw [returnValue_cfg, drop_cfg, sampleNow_cfg]
    · rw [returnValue_cfg, fifoPush_cfg, sampleNow_cfg]
  · cases h

theorem execPoll_cfg {bytes : List Byte} {s t : State} (h : execPoll bytes s = .next t) : t.cfg = s.cfg := by
  obtain ⟨u, hu, rfl⟩ := execPoll_next h
  rw [(pollTimers_keeps u).cfg, (rxList_keeps hu).cfg, sampleNow_cfg]

theorem execTreset_cfg {inform : Bool} {s t : State} (h : execTreset inform s = .next t) : t.cfg = s.cfg := by
  cases h
  cases inform with
  | false => rfl
  | true => exact (sendReset_keeps (sampleNow s)).cfg

/-! ### Every operation and every step -/

/-- Rule R28, operation by operation. -/
theorem exec_cfg {i : Instr} {s t : State} (h : exec i s = .next t) : t.cfg = s.cfg := by
  cases i with
  | hwreset | status | crcFinal | rxDestuff | rxViolation => cases h; rfl
  | feed | rxbyte => exact (execRxbyte_keeps h).cfg
  | poll => exact execPoll_cfg h
  | queue => exact execQueue_cfg h
  | treset => exact execTreset_cfg h
  | crcInit | crcStep => cases h; exact crcSet_cfg ..
  | encRaw => cases h; exact txByte_cfg ..
  | encPut b crc => cases h; exact (encPut_emitted b crc s).cfg
  | encEmit => exact (execEncEmit_emitted h).cfg
  | dispatch => exact (execDispatch_keeps h).cfg
  | rxResync => exact (rxSpecial_decOnly (b := headerByte) h).keeps.cfg
  | rxSof b => exact (exec_rowOp_decOnly .sof b nofun h).keeps.cfg
  | rxCtrl b => exact (exec_rowOp_decOnly .ctrl b nofun h).keeps.cfg
  | rxSeq b => exact (exec_rowOp_decOnly .seq b nofun h).keeps.cfg
  | rxLen b => exact (exec_rowOp_decOnly .len b nofun h).keeps.cfg
  | rxPay b => exact (exec_rowOp_decOnly .pay b nofun h).keeps.cfg
  | rxC3 b => exact (exec_rowOp_decOnly .c3 b nofun h).keeps.cfg
  | rxC2 b => exact (exec_rowOp_decOnly .c2 b nofun h).keeps.cfg
  | rxC1 b => exact (exec_rowOp_decOnly .c1 b nofun h).keeps.cfg
  | rxC0 b => exact (exec_rowOp_decOnly .c0 b nofun h).keeps.cfg
  | rxEof => exact (execRxEof_keeps h).cfg
  | fifoPush => exact execFifoPush_cfg h
  | fifoPop => cases h; exact fifoPop_cfg s
  | sendFrame => exact (execSendFrame_keeps h).cfg
  | sendAck => cases h; exact (sendAck_keeps s).cfg
  | sendReset => cases h; exact (sendReset_keeps s).cfg
  | tpClear => cases h; exact tpClear_cfg s
  | hAck => exact (execHAck_keeps h).cfg
  | hReset => exact (execHReset_keeps h).cfg
  | hApp r id => exact (execHApp_keeps (r := r) (id := id) h).cfg
  | hNontp => exact (deliver_keeps h).cfg

/-- Everything a step can do (rules R80, R199): nothing on an empty port; the operation of the request it takes; or
nothing beyond taking it, for a command code that does not exist. -/
theorem step_next_cases {s t : State} (h : step s = .next t) :
    (s.io.port = [] ∧ t = s) ∨
    ∃ r rest, s.io.port = r :: rest ∧
      ((∃ i, decode (fetch r (accept r rest s)) = .instr i ∧ exec i (accept r rest s) = .next t) ∨
       (∃ code, decode (fetch r (accept r rest s)) = .rejected (.notHostOp code) ∧ t = accept r rest s)) := by
  unfold step at h
  split at h
  · next hp => cases h; exact .inl ⟨hp, rfl⟩
  · next r rest hp =>
    refine .inr ⟨r, rest, hp, ?_⟩
    simp only at h
    split at h
    · next i hi => exact .inl ⟨i, hi, h⟩
    · next code hc => cases h; exact .inr ⟨code, hc, rfl⟩
    · cases h

/-- Rule R28 for a step. -/
theorem step_cfg {s t : State} (h : step s = .next t) : t.cfg = s.cfg := by
  obtain ⟨-, rfl⟩ | ⟨r, rest, -, ⟨i, -, hi⟩ | ⟨-, -, rfl⟩⟩ := step_next_cases h
  · rfl
  · rw [exec_cfg hi, accept_cfg]
  · exact accept_cfg r rest s

/-- Settles O50: operation by operation, and a step adds only taking the request. -/
theorem constantsNeverChange : Obligations.ConstantsNeverChange := by
  unfold Obligations.ConstantsNeverChange
  exact ⟨fun _ _ _ => exec_cfg, fun _ _ => step_cfg⟩

end Sys2Proof.Machine
end

section
/-! Rules R86, R87: what `CRC_INIT` and `CRC_STEP` write into the accumulator they name. -/

namespace Sys2Proof.Machine

/-! ### The two operations on the accumulator -/

theorem exec_crcInit (acc : CrcCtx) (s : State) : exec (.crcInit acc) s = .next (crcSet acc crcInitValue s) := rfl

theorem exec_crcStep (acc : CrcCtx) (b : Byte) (s : State) :
    exec (.crcStep acc b) s = .next (crcSet acc (crcStep (crcGet acc s) b) s) := rfl

/-! ### The iterations -/

/-- The model runs the first iteration first and recurses on the rest; rule R87's sequence grows at its end. -/
theorem crcBits_succ_last (n : Nat) (a : Word) : crcBits (n + 1) a = crcBit (crcBits n a) := by
  induction n generalizing a with
  | zero => rfl
  | succ n ih => exact ih (crcBit a)

/-! ### The obligations -/

/-- Settles O3, one context at a time. -/
theorem crcInitSetsAllOnes : Obligations.CrcInitSetsAllOnes := by
  unfold Obligations.CrcInitSetsAllOnes
  exact fun s => ⟨exec_crcInit .tx s, exec_crcInit .rx s⟩

/-- Settles O4: the sequence is the accumulator after 0, 1, ..., 8 iterations of the model. -/
theorem crcStepEightIterations : Obligations.CrcStepEightIterations := by
  unfold Obligations.CrcStepEightIterations
  intro acc b s
  refine ⟨fun i => crcBits i (crcGet acc s ^^^ b.setWidth 32), ?start, fun i _ => crcBits_succ_last i _, ?written⟩
  case start => cases acc <;> rfl
  case written =>
    rw [exec_crcStep]
    cases acc <;> rfl

end Sys2Proof.Machine
end

section
/-! Rule R98: which bytes one `ENC_PUT` hands to the host, and where it leaves the countdown. -/

namespace Sys2Proof.Machine

theorem exec_encPut (b : Byte) (crc : Bool) (s : State) : exec (.encPut b crc) s = .next (encPut b crc s) := rfl

/-! ### The countdown at one logical byte -/

theorem stuffDue_iff (b : Byte) (c : TxCountdown) : stuffDue b c = true ↔ b = headerByte ∧ c = .one := by
  cases c with
  | one => simp [stuffDue]
  | two => simp [stuffDue]

theorem countDown_eq_ite (b : Byte) (c : TxCountdown) :
    countDown b c = if b = headerByte ∧ c = .two then .one else .two := by
  cases c with
  | one => simp [countDown]
  | two => simp [countDown]

theorem stuffed_singleton (b : Byte) (c : TxCountdown) :
    stuffed c.seen [b] = if b = headerByte ∧ c = .one then [b, stuffByte] else [b] := by
  have h : stuffed c.seen [b] = if stuffDue b c then [b, stuffByte] else [b] := by
    rw [stuffed_cons]
    exact List.append_nil _
  simp only [h, stuffDue_iff]

/-! ### The obligation -/

/-- Settles O9: `encPut_eq` gives the emission and the frame; the two conditionals are the countdown's at the byte. -/
theorem encPutStuffs : Obligations.EncPutStuffs := by
  unfold Obligations.EncPutStuffs
  intro b crc s
  rw [exec_encPut, encPut_eq, stuffed_singleton, countDown_eq_ite]
  rfl

end Sys2Proof.Machine
end

section
/-! Rules R113 to R121: the header rows, the length row, the payload row and the four checksum rows. -/

namespace Sys2Proof.Machine

/-! ### The rows before the length -/

theorem exec_rxSof (b : Byte) (s : State) : exec (.rxSof b) s = .next s := rfl

theorem exec_rxSeq (b : Byte) (s : State) :
    exec (.rxSeq b) s = .next { s with dec.seq := b, crc.rx := crcStep s.crc.rx b, dec.state := .len } := rfl

theorem exec_rxCtrl_transport {b : Byte} (h : controlT b = true) (s : State) :
    exec (.rxCtrl b) s =
      .next { s with dec.ctrl := b, dec.cnt := 0#8, crc.rx := crcStep crcInitValue b, dec.state := .seq } :=
  if_pos h

theorem exec_rxCtrl_nontransport {b : Byte} (h : controlT b ≠ true) (s : State) :
    exec (.rxCtrl b) s =
      .next { s with
        dec.ctrl := b, dec.cnt := 0#8, crc.rx := crcStep crcInitValue b, dec.seq := 0#8, dec.state := .len } :=
  if_neg h

/-- Settles O14: bit 7 of the control byte decides whether a sequence follows. -/
theorem rxHeaderRows : Obligations.RxHeaderRows := by
  unfold Obligations.RxHeaderRows
  intro b s
  refine ⟨exec_rxSof b s, ?ctrl, exec_rxSeq b s⟩
  case ctrl =>
    by_cases h : b.getLsbD 7 = true
    · rw [exec_rxCtrl_transport h, if_pos h, if_pos h]
      rfl
    · rw [exec_rxCtrl_nontransport h, if_neg h, if_neg h]
      rfl

/-! ### The length -/

theorem exec_rxLen_zero (s : State) :
    exec (.rxLen 0#8) s =
      .next { s with dec.len := 0#8, crc.rx := crcStep s.crc.rx 0#8, dec.state := .c3 } := rfl

theorem exec_rxLen_fits {b : Byte} {s : State} (h0 : b ≠ 0#8) (h : b.toNat ≤ s.cfg.maxPayload) :
    exec (.rxLen b) s = .next { s with dec.len := b, crc.rx := crcStep s.crc.rx b, dec.state := .pay } :=
  (if_neg h0).trans (if_pos h)

theorem exec_rxLen_oversize {b : Byte} {s : State} (h0 : b ≠ 0#8) (h : ¬b.toNat ≤ s.cfg.maxPayload) :
    exec (.rxLen b) s =
      .next { s with
        dec.len := b, crc.rx := crcStep s.crc.rx b, dec.state := .sof, io.trace := s.io.trace ++ [.oversize b] } :=
  (if_neg h0).trans (if_neg h)

/-- Settles O15: length 0 fits every `MAX_PAYLOAD`, so it notes no event either. -/
theorem rxLenRow : Obligations.RxLenRow := by
  unfold Obligations.RxLenRow
  intro b s
  by_cases h0 : b = 0#8
  · subst h0
    have hfits : (0#8).toNat ≤ s.cfg.maxPayload := Nat.zero_le _
    rw [exec_rxLen_zero, if_pos rfl, if_pos hfits]
  · by_cases h : b.toNat ≤ s.cfg.maxPayload
    · rw [exec_rxLen_fits h0 h, if_neg h0, if_pos h, if_pos h]
    · rw [exec_rxLen_oversize h0 h, if_neg h0, if_neg h, if_neg h]

/-! ### The payload -/

theorem exec_rxPay_inside {s : State} (b : Byte) (h : s.dec.cnt.toNat < s.cfg.maxPayload) :
    exec (.rxPay b) s =
      .next { s with
        dec.buf := s.dec.buf.write s.dec.cnt.toNat b
        dec.cnt := s.dec.cnt + 1#8
        crc.rx := crcStep s.crc.rx b
        dec.state := if s.dec.cnt + 1#8 = s.dec.len then .c3 else s.dec.state } := by
  refine (if_pos h).trans ?_
  by_cases hlast : s.dec.cnt + 1#8 = s.dec.len
  · rw [if_pos hlast]
    exact if_pos hlast
  · rw [if_neg hlast]
    exact if_neg hlast

/-- Settles O16: the row is one write of `RXBUF`, and the laws of the memory say what it reads as after it. -/
theorem rxPayRow : Obligations.RxPayRow := by
  unfold Obligations.RxPayRow
  intro b s hwf hroom
  exact ⟨_, exec_rxPay_inside b hroom, rfl, Memory.read_write_eq hwf _ b, fun _ ha => Memory.read_write_ne _ b ha⟩

/-! ### The bytes of the wire checksum -/

theorem wireByte3_parts (b : Byte) :
    (wireByte3 b).extractLsb' 24 8 = b ∧ (wireByte3 b).extractLsb' 0 24 = 0#24 :=
  ⟨BitVec.extractLsb'_append_eq_left, BitVec.extractLsb'_append_eq_right⟩

/-- A word put together of three parts gives each part back. -/
theorem extractLsb'_append_append {u v w : Nat} (x : BitVec u) (b : BitVec v) (y : BitVec w) :
    (x ++ b ++ y).extractLsb' w v = b ∧ (x ++ b ++ y).extractLsb' (w + v) u = x ∧
    (x ++ b ++ y).extractLsb' 0 w = y := by
  refine ⟨?middle, ?high, BitVec.extractLsb'_append_eq_right⟩
  case middle =>
    rw [BitVec.extractLsb'_append_eq_of_le (Nat.le_refl w), Nat.sub_self, BitVec.extractLsb'_append_eq_right]
  case high =>
    rw [BitVec.extractLsb'_append_eq_of_le (Nat.le_add_right w v), Nat.add_sub_cancel_left,
      BitVec.extractLsb'_append_eq_left]

theorem wireByte2_parts (w : Word) (b : Byte) :
    (wireByte2 w b).extractLsb' 16 8 = b ∧ (wireByte2 w b).extractLsb' 24 8 = w.extractLsb' 24 8 ∧
    (wireByte2 w b).extractLsb' 0 16 = w.extractLsb' 0 16 :=
  extractLsb'_append_append (w.extractLsb' 24 8) b (w.extractLsb' 0 16)

theorem wireByte1_parts (w : Word) (b : Byte) :
    (wireByte1 w b).extractLsb' 8 8 = b ∧ (wireByte1 w b).extractLsb' 16 16 = w.extractLsb' 16 16 ∧
    (wireByte1 w b).extractLsb' 0 8 = w.extractLsb' 0 8 :=
  extractLsb'_append_append (w.extractLsb' 16 16) b (w.extractLsb' 0 8)

theorem wireByte0_parts (w : Word) (b : Byte) :
    (wireByte0 w b).extractLsb' 0 8 = b ∧ (wireByte0 w b).extractLsb' 8 24 = w.extractLsb' 8 24 :=
  ⟨BitVec.extractLsb'_append_eq_right, BitVec.extractLsb'_append_eq_left⟩

/-! ### The checksum rows -/

theorem exec_rxC3 (b : Byte) (s : State) :
    exec (.rxC3 b) s = .next { s with dec.wireCrc := wireByte3 b, dec.state := .c2 } := rfl

theorem exec_rxC2 (b : Byte) (s : State) :
    exec (.rxC2 b) s = .next { s with dec.wireCrc := wireByte2 s.dec.wireCrc b, dec.state := .c1 } := rfl

theorem exec_rxC1 (b : Byte) (s : State) :
    exec (.rxC1 b) s = .next { s with dec.wireCrc := wireByte1 s.dec.wireCrc b, dec.state := .c0 } := rfl

theorem exec_rxC0_match {b : Byte} {s : State} (h : wireByte0 s.dec.wireCrc b = ~~~s.crc.rx) :
    exec (.rxC0 b) s = .next { s with dec.wireCrc := wireByte0 s.dec.wireCrc b, dec.state := .eof } :=
  if_pos h

theorem exec_rxC0_mismatch {b : Byte} {s : State} (h : wireByte0 s.dec.wireCrc b ≠ ~~~s.crc.rx) :
    exec (.rxC0 b) s =
      .next { s with
        dec.wireCrc := wireByte0 s.dec.wireCrc b, dec.state := .sof
        io.trace := s.io.trace ++ [.crcMismatch (wireByte0 s.dec.wireCrc b) (~~~s.crc.rx)] } :=
  if_neg h

/-- Settles O17: each row writes one byte into the word, whose parts are read back. -/
theorem rxChecksumRows : Obligations.RxChecksumRows := by
  unfold Obligations.RxChecksumRows
  intro b s
  exact ⟨wireByte3 b, wireByte2 s.dec.wireCrc b, wireByte1 s.dec.wireCrc b, ⟨exec_rxC3 b s, wireByte3_parts b⟩,
    ⟨exec_rxC2 b s, wireByte2_parts s.dec.wireCrc b⟩, exec_rxC1 b s, wireByte1_parts s.dec.wireCrc b⟩

/-- Settles O18: the word compared is the one the row has just completed. -/
theorem rxC0Row : Obligations.RxC0Row := by
  unfold Obligations.RxC0Row
  intro b s
  obtain ⟨hlow, hhigh⟩ := wireByte0_parts s.dec.wireCrc b
  exact ⟨wireByte0 s.dec.wireCrc b, hlow, hhigh, exec_rxC0_match, exec_rxC0_mismatch⟩

end Sys2Proof.Machine
end

section
/-! Rules R122, R124: the end marker and the handler it hands the frame to. -/

namespace Sys2Proof.Machine

theorem exec_dispatch (s : State) : exec .dispatch s = execDispatch s := rfl

theorem exec_rxEof_marker (s : State) : exec (.rxEof 0x55#8) s = exec .dispatch (goto .sof s) := rfl

theorem exec_rxEof_other {b : Byte} (h : b ≠ 0x55#8) (s : State) :
    exec (.rxEof b) s = .next (drop (.badEndMarker b) (goto .sof s)) :=
  if_neg h

/-- Settles O20: the model's selection is the statement's (`exec_handlerOp`), and every handler answers an accepted
length (`execDispatch_next`). -/
theorem dispatchSelectsHandler : Obligations.DispatchSelectsHandler := by
  unfold Obligations.DispatchSelectsHandler
  intro s
  rw [exec_dispatch, exec_handlerOp]
  exact ⟨rfl, execDispatch_next⟩

/-- Settles O19: the marker completes because `DISPATCH` does on the state that is back at searching. -/
theorem rxEofRow : Obligations.RxEofRow := by
  unfold Obligations.RxEofRow
  intro b s
  refine ⟨?marker, fun h => exec_rxEof_other h s, ?completes⟩
  case marker =>
    rintro rfl
    exact exec_rxEof_marker s
  case completes =>
    intro hlen
    by_cases hb : b = 0x55#8
    · subst hb
      rw [exec_rxEof_marker, exec_dispatch]
      exact execDispatch_next (s := goto .sof s) hlen
    · exact ⟨_, exec_rxEof_other hb s⟩

end Sys2Proof.Machine
end

section
/-! Rule R138: the pop of a queued frame. -/

namespace Sys2Proof.Machine

theorem exec_fifoPop (s : State) : exec .fifoPop s = .next (fifoPop s) := rfl

/-- Rule R138 under its calling condition alone: the two subtractions stay above zero, so neither count takes a free
value. `fifoPop_eq` asks for the whole queue invariant instead. -/
theorem fifoPop_of_held {s : State} (hn : 0 < s.tp.nFrames)
    (hlen : (slotAt s.tp.fifoHead s).len.toNat ≤ s.tp.ringUsed) :
    fifoPop s = { s with
      tp.ringUsed := s.tp.ringUsed - (slotAt s.tp.fifoHead s).len.toNat
      tp.fifoHead := (s.tp.fifoHead + 1) &&& s.cfg.fifoMask
      tp.nFrames := s.tp.nFrames - 1 } := by
  have hone : 1 ≤ s.tp.nFrames := hn
  rw [fifoPop, countSub_of_le hlen, countSub_of_le hone]
  rfl

/-- Settles O30: neither count wraps (`fifoPop_of_held`), and the slots and the ring are not written. -/
theorem fifoPopReleases : Obligations.FifoPopReleases := by
  unfold Obligations.FifoPopReleases
  intro s hn hlen
  rw [exec_fifoPop, fifoPop_of_held hn hlen]

end Sys2Proof.Machine
end

section
/-! Rules R71, R77, R78: decoding undoes encoding, operand form by operand form and then operation by operation. -/

namespace Sys2Proof

/-! ### Operand forms -/

/-- A word put together of two parts, as a number. -/
theorem toNat_append_eq_add {m n : Nat} (x : BitVec m) (y : BitVec n) :
    (x ++ y).toNat = x.toNat * 2 ^ n + y.toNat := by
  rw [BitVec.toNat_append, ← Nat.shiftLeft_add_eq_or_of_lt y.isLt, Nat.shiftLeft_eq]

/-- The two bytes of a 16-bit operand put it back together. -/
theorem halfOf_halfBytes (h : Half) : halfOf (h.setWidth 8) ((h >>> 8).setWidth 8) = h := by
  apply BitVec.eq_of_toNat_eq
  have hlt := h.isLt
  simp only [halfOf, toNat_append_eq_add, BitVec.toNat_setWidth, BitVec.toNat_ushiftRight, Nat.shiftRight_eq_div_pow]
  omega

theorem boolOf_boolByte (b : Bool) : boolOf (boolByte b) = some b := by cases b <;> rfl

theorem ctxOf_ctxByte (acc : CrcCtx) : ctxOf (ctxByte acc) = some acc := by cases acc <;> rfl

/-- A 6-bit identifier sent as a byte is below 64 and read back whole. -/
theorem ident_setWidth (id : Ident) : (id.setWidth 8).toNat < 64 ∧ controlId (id.setWidth 8) = id := by
  revert id; decide

/-! ### Control bytes -/

/-- The fields of a control byte (rule R63) are read back. -/
theorem controlByte_fields (t r : Bool) (id : Ident) :
    controlT (controlByte t r id) = t ∧ controlR (controlByte t r id) = r ∧ controlId (controlByte t r id) = id := by
  cases t <;> cases r <;> revert id <;> decide

/-- A transport control byte with an identifier below 62, or with bit 6 clear, selects `H_APP` (rule R71). -/
theorem decodeControl_app {r : Bool} {id : Ident} (h : (r && decide (62#6 ≤ id)) = false) :
    decodeControl (controlByte true r id) = .hApp r id := by
  have hcode : controlByte true r id ≠ ctrlAck ∧ controlByte true r id ≠ ctrlReset := by
    revert h; cases r <;> revert id <;> decide
  obtain ⟨hT, hR, hId⟩ := controlByte_fields true r id
  rw [decodeControl, if_neg hcode.1, if_neg hcode.2, if_pos hT, hR, hId]

/-- A control byte without the transport flag selects `H_NONTP` (rule R71). -/
theorem decodeControl_nontp (r : Bool) (id : Ident) : decodeControl (controlByte false r id) = .hNontp r id := by
  have hAck : controlByte false r id ≠ ctrlAck := (Laws.TableCode.control_nontp r id).1
  have hReset : controlByte false r id ≠ ctrlReset := (Laws.TableCode.control_nontp r id).2
  obtain ⟨hT, hR, hId⟩ := controlByte_fields false r id
  rw [decodeControl, if_neg hAck, if_neg hReset, if_neg (by rw [hT]; decide), hR, hId]

/-! ### Operations with operands of several bytes -/

theorem decodeQueue_encode {id : Byte} {len : Half} {payload : List Byte} (h : payload.length = len.toNat) :
    decodeQueue (id :: (halfBytes len ++ payload)) = .instr (.queue id len payload) := by
  simp only [decodeQueue, halfBytes, List.cons_append, List.nil_append, halfOf_halfBytes, if_pos h]

theorem decodeTreset_encode (inform : Bool) : decodeTreset [boolByte inform] = .instr (.treset inform) := by
  simp only [decodeTreset, boolOf_boolByte]

theorem decodeCtx_encode (m : String) (f : CrcCtx → Instr) (acc : CrcCtx) :
    decodeCtx m f [ctxByte acc] = .instr (f acc) := by
  simp only [decodeCtx, ctxOf_ctxByte]

theorem decodeCrcStep_encode (acc : CrcCtx) (b : Byte) : decodeCrcStep [ctxByte acc, b] = .instr (.crcStep acc b) := by
  simp only [decodeCrcStep, ctxOf_ctxByte]

theorem decodeEncPut_encode (b : Byte) (crc : Bool) : decodeEncPut [b, boolByte crc] = .instr (.encPut b crc) := by
  simp only [decodeEncPut, boolOf_boolByte]

/-- The tag byte tells the two sources apart. -/
theorem decodeEncEmit_encode (control seq : Byte) (src : EncSrc) (off mask : Half) (len : Byte) :
    decodeEncEmit (encode (.encEmit control seq src off mask len)).args =
      .instr (.encEmit control seq src off mask len) := by
  cases src with
  | ring =>
    simp only [encode, decodeEncEmit, halfBytes, List.cons_append, List.nil_append, halfOf_halfBytes, and_self, if_true]
  | imm bytes =>
    have htag : ¬((1#8 : Byte) = 0#8 ∧ bytes = []) := fun h => absurd h.1 (by decide)
    simp only [encode, decodeEncEmit, halfBytes, List.cons_append, List.nil_append, halfOf_halfBytes, if_neg htag,
      if_true]

theorem decodeViolation_encode {b : Byte} (h : b ≠ headerByte ∧ b ≠ stuffByte) :
    decodeViolation [b] = .instr (.rxViolation b) :=
  if_neg (not_or.2 h)

theorem decodeFifoPush_encode {id : Ident} {len : Byte} {payload : List Byte} (h : payload.length = len.toNat) :
    decodeFifoPush (id.setWidth 8 :: len :: payload) = .instr (.fifoPush id len payload) := by
  obtain ⟨hlt, hid⟩ := ident_setWidth id
  simp only [decodeFifoPush, hid, if_pos (And.intro hlt h)]

/-! ### The obligations -/

/-- Settles O56: the code selects the row by evaluation; the lemmas above read the operands back. -/
theorem decodeEncode : Obligations.DecodeEncode := by
  unfold Obligations.DecodeEncode
  intro c i hwf
  cases i with
  | queue id len payload => exact decodeQueue_encode (of_decide_eq_true hwf)
  | treset inform => exact decodeTreset_encode inform
  | crcInit acc => exact decodeCtx_encode _ .crcInit acc
  | crcStep acc b => exact decodeCrcStep_encode acc b
  | crcFinal acc => exact decodeCtx_encode _ .crcFinal acc
  | encPut b crc => exact decodeEncPut_encode b crc
  | encEmit control seq src off mask len =>
    have h := decodeEncEmit_encode control seq src off mask len
    cases src <;> exact h
  | rxViolation b =>
    exact decodeViolation_encode (by simpa [Instr.wf] using hwf)
  | fifoPush id len payload =>
    have h : payload.length = len.toNat ∧ len.toNat ≤ c.maxPayload := by simpa [Instr.wf] using hwf
    exact decodeFifoPush_encode h.1
  | hApp r id =>
    rw [Instr.wf, Bool.not_eq_true'] at hwf
    exact congrArg Decoded.instr (decodeControl_app hwf)
  | hNontp r id => exact congrArg Decoded.instr (decodeControl_nontp r id)
  | _ => rfl

/-- Settles O57: each word is evaluated by the decoder. -/
theorem decodeWords : Obligations.DecodeWords := by
  unfold Obligations.DecodeWords
  refine ⟨rfl, rfl, ?queue, rfl, rfl, rfl, rfl, rfl, ?app, ?nontp⟩
  case queue => exact decodeQueue_encode (id := 0x05#8) (len := 2#16) (payload := [0x0A#8, 0x0B#8]) rfl
  case app => exact congrArg Decoded.instr (decodeControl_app (r := false) (id := 5#6) rfl)
  case nontp => exact congrArg Decoded.instr (decodeControl_nontp true 5#6)

end Sys2Proof
end

section
/-! Rules R87, R88, R92: the complement `CRC_FINAL` returns, and the algebra of the CRC step: linear in both arguments
together, injective in each of them alone. -/

namespace Sys2Proof.Machine

/-! ### `CRC_FINAL` -/

theorem exec_crcFinal (acc : CrcCtx) (s : State) :
    exec (.crcFinal acc) s = .next (returnValue (crcFinal (crcGet acc s)) s) := rfl

theorem crcFinal_eq_xor (w : Word) : crcFinal w = w ^^^ 0xFFFFFFFF#32 :=
  (BitVec.xor_allOnes (x := w)).symm

theorem crcFinal_injective : Function.Injective crcFinal := fun a a' h => by
  have := congrArg (fun w : Word => ~~~w) h
  simpa only [crcFinal, BitVec.not_not] using this

/-- Settles O5, one context at a time. -/
theorem crcFinalReturnsComplement : Obligations.CrcFinalReturnsComplement := by
  unfold Obligations.CrcFinalReturnsComplement
  intro s
  rw [exec_crcFinal, exec_crcFinal, crcFinal_eq_xor, crcFinal_eq_xor]
  exact ⟨rfl, rfl⟩

/-! ### One iteration -/

/-- The polynomial is XORed in or not, by the low bit. -/
theorem crcBit_eq (a : Word) : crcBit a = (a >>> 1) ^^^ (if a.getLsbD 0 then crcPoly else 0#32) := by
  unfold crcBit
  split
  · rfl
  · exact (BitVec.xor_zero).symm

theorem crcBit_xor (a a' : Word) : crcBit (a ^^^ a') = crcBit a ^^^ crcBit a' := by
  have hpoly : (if (a ^^^ a').getLsbD 0 then crcPoly else 0#32) =
      (if a.getLsbD 0 then crcPoly else 0#32) ^^^ (if a'.getLsbD 0 then crcPoly else 0#32) := by
    rw [BitVec.getLsbD_xor]
    cases a.getLsbD 0 <;> cases a'.getLsbD 0 <;> rfl
  rw [crcBit_eq, crcBit_eq, crcBit_eq, hpoly, BitVec.ushiftRight_xor_distrib]
  ac_rfl

/-- The shift frees the top bit and the polynomial's is set, so the top bit remembers the low bit shifted out. -/
theorem crcBit_top (a : Word) : (crcBit a).getLsbD 31 = a.getLsbD 0 := by
  have hshift : (a >>> 1).getLsbD 31 = false := by
    rw [BitVec.getLsbD_ushiftRight]
    exact BitVec.getLsbD_of_ge a 32 (Nat.le_refl 32)
  rw [crcBit_eq, BitVec.getLsbD_xor, hshift]
  cases a.getLsbD 0 <;> rfl

/-- A word is its low bit and the rest. -/
theorem eq_of_low_and_shift {a a' : Word} (hlow : a.getLsbD 0 = a'.getLsbD 0) (hshift : a >>> 1 = a' >>> 1) :
    a = a' := by
  apply BitVec.eq_of_getLsbD_eq
  intro i _
  cases i with
  | zero => exact hlow
  | succ i =>
    have := congrArg (fun w : Word => w.getLsbD i) hshift
    simpa only [BitVec.getLsbD_ushiftRight, Nat.add_comm 1 i] using this

theorem crcBit_injective : Function.Injective crcBit := fun a a' h => by
  have hlow : a.getLsbD 0 = a'.getLsbD 0 := by rw [← crcBit_top a, ← crcBit_top a', h]
  rw [crcBit_eq, crcBit_eq, hlow] at h
  exact eq_of_low_and_shift hlow (BitVec.xor_left_inj _ |>.1 h)

/-! ### Several iterations and the step -/

theorem crcBits_xor (n : Nat) (a a' : Word) : crcBits n (a ^^^ a') = crcBits n a ^^^ crcBits n a' := by
  induction n generalizing a a' with
  | zero => rfl
  | succ n ih => rw [crcBits, crcBit_xor, ih]; rfl

theorem crcBits_injective (n : Nat) : Function.Injective (crcBits n) := by
  induction n with
  | zero => exact fun _ _ h => h
  | succ n ih => exact ih.comp crcBit_injective

theorem crcStep_xor (a a' : Word) (b b' : Byte) : crcStep (a ^^^ a') (b ^^^ b') = crcStep a b ^^^ crcStep a' b' := by
  have hargs : (a ^^^ a') ^^^ (b ^^^ b').setWidth 32 = (a ^^^ b.setWidth 32) ^^^ (a' ^^^ b'.setWidth 32) := by
    rw [BitVec.setWidth_xor]
    ac_rfl
  rw [crcStep, hargs, crcBits_xor]
  rfl

theorem crcStep_injective_acc (b : Byte) : Function.Injective fun a : Word => crcStep a b := fun _ _ h =>
  (BitVec.xor_left_inj _).1 (crcBits_injective 8 h)

theorem crcStep_injective_byte (a : Word) : Function.Injective fun b : Byte => crcStep a b := fun b b' h => by
  have hw : b.setWidth 32 = b'.setWidth 32 := (BitVec.xor_right_inj _).1 (crcBits_injective 8 h)
  have := congrArg BitVec.toNat hw
  rw [BitVec.toNat_setWidth_of_le (by decide), BitVec.toNat_setWidth_of_le (by decide)] at this
  exact BitVec.eq_of_toNat_eq this

/-- Settles O6: an injective map of the finite set of words into itself is a bijection. -/
theorem crcStepLinearBijective : Obligations.CrcStepLinearBijective := by
  unfold Obligations.CrcStepLinearBijective
  exact ⟨crcStep_xor, fun b => Finite.injective_iff_bijective.1 (crcStep_injective_acc b)⟩

/-! ### Messages -/

/-- Two accumulators that differ stay different over the same bytes. -/
theorem foldl_crcStep_injective (l : List Byte) : Function.Injective fun a : Word => l.foldl crcStep a := by
  induction l with
  | nil => exact fun _ _ h => h
  | cons b l ih => exact ih.comp (crcStep_injective_acc b)

/-- Two messages that differ in one byte have different checksums. -/
theorem crc32_ne_of_byte_ne (before after : List Byte) {b b' : Byte} (h : b ≠ b') :
    crc32 (before ++ b :: after) ≠ crc32 (before ++ b' :: after) := by
  intro he
  have hacc := crcFinal_injective he
  rw [List.foldl_append, List.foldl_append, List.foldl_cons, List.foldl_cons] at hacc
  exact h (crcStep_injective_byte _ (foldl_crcStep_injective after hacc))

/-- Flipping one of its bits gives another byte. -/
theorem xor_bit_ne (b : Byte) {k : Nat} (hk : k < 8) : b ≠ b ^^^ (1#8 <<< k) := by
  intro h
  have hbit := congrArg (fun x : Byte => x.getLsbD k) h
  simp only [BitVec.getLsbD_xor, BitVec.getLsbD_shiftLeft, hk, decide_true, Nat.lt_irrefl, decide_false,
    Nat.sub_self] at hbit
  revert hbit
  cases b.getLsbD k <;> decide

/-- Settles O7. -/
theorem crcDetectsOneBit : Obligations.CrcDetectsOneBit := by
  unfold Obligations.CrcDetectsOneBit
  exact fun before after b _ hk => crc32_ne_of_byte_ne before after (xor_bit_ne b hk)

end Sys2Proof.Machine
end

section
/-! Rules R96 to R100: one raw byte, the size of a frame on the wire, the run of header bytes it never holds, and
`ENC_EMIT` as the emission of that frame. -/

namespace Sys2Proof.Machine

/-! ### One raw byte -/

theorem exec_encRaw (b : Byte) (s : State) : exec (.encRaw b) s = .next (txByte b s) := rfl

theorem txByte_h0 {s : State} (h : s.cfg.hostTx = .h0) (b : Byte) :
    txByte b s = { s with io.txOut := s.io.txOut ++ [b] } := by
  unfold txByte; rw [h]

theorem txByte_h1_space {s : State} (h : s.cfg.hostTx = .h1) (hs : s.io.txSpace ≠ 0#16) (b : Byte) :
    txByte b s = { s with io.txOut := s.io.txOut ++ [b], io.txSpace := s.io.txSpace - 1#16 } := by
  unfold txByte; rw [h]; exact if_neg hs

theorem txByte_h1_full {s : State} (h : s.cfg.hostTx = .h1) (hs : s.io.txSpace = 0#16) (b : Byte) :
    txByte b s = { s with io.txOut := s.io.txOut ++ [b], io.txLost := s.io.txLost ++ [s.io.txOut.length] } := by
  unfold txByte; rw [h]; exact if_pos hs

/-- Settles O8: the three cases of the host's buffer. -/
theorem encRawOneByte : Obligations.EncRawOneByte := by
  unfold Obligations.EncRawOneByte
  intro b s
  rw [exec_encRaw]
  exact ⟨fun h => congrArg _ (txByte_h0 h b), fun h hs => congrArg _ (txByte_h1_space h hs b),
    fun h hs => congrArg _ (txByte_h1_full h hs b)⟩

/-! ### The size of the wire form -/

theorem stuffed_header_one (l : List Byte) : stuffed 1 (headerByte :: l) = headerByte :: stuffByte :: stuffed 0 l := rfl

theorem stuffed_header_ne {c : Nat} (hc : c ≠ 1) (l : List Byte) :
    stuffed c (headerByte :: l) = headerByte :: stuffed (c + 1) l := by
  simp only [stuffed, if_true, if_neg hc]

theorem stuffed_other {b : Byte} (hb : b ≠ headerByte) (c : Nat) (l : List Byte) :
    stuffed c (b :: l) = b :: stuffed 0 l := by
  simp only [stuffed, if_neg hb]

theorem stuffCount_header_one (l : List Byte) : stuffCount 1 (headerByte :: l) = stuffCount 0 l + 1 := rfl

theorem stuffCount_header_ne {c : Nat} (hc : c ≠ 1) (l : List Byte) :
    stuffCount c (headerByte :: l) = stuffCount (c + 1) l := by
  simp only [stuffCount, if_true, if_neg hc]

theorem stuffCount_other {b : Byte} (hb : b ≠ headerByte) (c : Nat) (l : List Byte) :
    stuffCount c (b :: l) = stuffCount 0 l := by
  simp only [stuffCount, if_neg hb]

theorem stuffed_length (c : Nat) (l : List Byte) : (stuffed c l).length = l.length + stuffCount c l := by
  induction l generalizing c with
  | nil => rfl
  | cons b l ih =>
    by_cases hb : b = headerByte
    · subst hb
      by_cases hc : c = 1
      · subst hc
        rw [stuffed_header_one, stuffCount_header_one]
        simp only [List.length_cons, ih]
        omega
      · rw [stuffed_header_ne hc, stuffCount_header_ne hc]
        simp only [List.length_cons, ih]
        omega
    · rw [stuffed_other hb, stuffCount_other hb]
      simp only [List.length_cons, ih]
      omega

/-- Each stuff byte pays for two header bytes, of which the count already seen may be one (rule R100). -/
theorem stuffCount_le (c : Nat) (l : List Byte) : 2 * stuffCount c l ≤ l.length + c := by
  induction l generalizing c with
  | nil => exact Nat.zero_le _
  | cons b l ih =>
    rw [List.length_cons]
    have h0 := ih 0
    by_cases hb : b = headerByte
    · subst hb
      by_cases hc : c = 1
      · subst hc
        rw [stuffCount_header_one]
        omega
      · rw [stuffCount_header_ne hc]
        have := ih (c + 1)
        omega
    · rw [stuffCount_other hb]
      omega

theorem logicalBytes_length (control seq : Byte) (payload : List Byte) :
    (logicalBytes control seq payload).length = payload.length + 6 + (control.getLsbD 7).toNat := by
  have hseq : (if controlT control then [seq] else []).length = (control.getLsbD 7).toNat := by
    unfold controlT
    cases control.getLsbD 7 <;> rfl
  simp only [logicalBytes, checkedBytes, wordBytes, List.length_append, List.length_cons, List.length_nil, hseq]
  omega

theorem wire_length (control seq : Byte) (payload : List Byte) :
    (wire control seq payload).length =
      payload.length + 10 + (control.getLsbD 7).toNat + stuffCount 0 (logicalBytes control seq payload) := by
  simp only [wire, List.length_append, List.length_cons, List.length_nil, stuffed_length, logicalBytes_length]
  omega

theorem stuffCount_logicalBytes_le (control seq : Byte) (payload : List Byte) :
    2 * stuffCount 0 (logicalBytes control seq payload) ≤ payload.length + 6 + (control.getLsbD 7).toNat := by
  have := stuffCount_le 0 (logicalBytes control seq payload)
  rwa [logicalBytes_length] at this

/-- Settles O12. -/
theorem wireFormLength : Obligations.WireFormLength := by
  unfold Obligations.WireFormLength
  exact fun control seq payload => ⟨wire_length control seq payload, stuffCount_logicalBytes_le control seq payload⟩

/-! ### No three header bytes in a row -/

theorem noTripleHeader_cons {b : Byte} {l : List Byte} (hl : noTripleHeader l)
    (h : ¬(b = headerByte ∧ l[0]? = some headerByte ∧ l[1]? = some headerByte)) : noTripleHeader (b :: l) := by
  intro i
  cases i with
  | zero => simpa using h
  | succ i => simpa using hl i

theorem noTripleHeader_cons_other {b : Byte} (hb : b ≠ headerByte) {l : List Byte} (hl : noTripleHeader l) :
    noTripleHeader (b :: l) :=
  noTripleHeader_cons hl fun h => hb h.1

/-- Two header bytes may stand before a byte that is none. -/
theorem noTripleHeader_pair {b : Byte} (hb : b ≠ headerByte) {l : List Byte} (hl : noTripleHeader (b :: l)) :
    noTripleHeader (headerByte :: headerByte :: b :: l) := by
  refine noTripleHeader_cons (noTripleHeader_cons hl ?_) ?_ <;> simp [hb]

/-- The scan's output, with the header byte it has counted put back in front, holds no three in a row, and the end
marker behind it adds none. -/
theorem noTripleHeader_stuffed (l : List Byte) :
    noTripleHeader (stuffed 0 l ++ [eofByte]) ∧ noTripleHeader (headerByte :: (stuffed 1 l ++ [eofByte])) := by
  have hone : ∀ {b : Byte} {r : List Byte}, b ≠ headerByte → noTripleHeader (b :: r) →
      noTripleHeader (headerByte :: b :: r) := fun hb h =>
    noTripleHeader_cons h fun hc => hb (by simpa using hc.2.1)
  have hnil : noTripleHeader [] := fun i h => by simp at h
  have heof : noTripleHeader [eofByte] := noTripleHeader_cons_other (by decide) hnil
  induction l with
  | nil => exact ⟨heof, hone (by decide) heof⟩
  | cons b l ih =>
    obtain ⟨ih0, ih1⟩ := ih
    by_cases hb : b = headerByte
    · subst hb
      refine ⟨ih1, ?_⟩
      rw [stuffed_header_one]
      exact noTripleHeader_pair (by decide) (noTripleHeader_cons_other (by decide) ih0)
    · have h := noTripleHeader_cons_other hb ih0
      rw [stuffed_other hb, stuffed_other hb]
      exact ⟨h, hone hb h⟩

/-! ### `ENC_EMIT` -/

theorem exec_encEmit (control seq : Byte) (src : EncSrc) (off mask : Half) (len : Byte) (s : State) :
    exec (.encEmit control seq src off mask len) s = execEncEmit control seq src off mask len s := rfl

/-- `ENC_EMIT` completes when every index it computes lies in its source (rules R42, R54). -/
theorem execEncEmit_of_inside {src : EncSrc} {off mask : Half} {len : Byte} {s : State}
    (h : ∀ i, i < len.toNat → (off.toNat + i) &&& mask.toNat < srcSize src s) (control seq : Byte) :
    execEncEmit control seq src off mask len s =
      .next (emitFrame control seq len (srcBytes src off.toNat mask.toNat len.toNat s) s) := by
  have hnone : (srcIndices off.toNat mask.toNat len.toNat).find? (fun a => decide (srcSize src s ≤ a)) = none := by
    simp only [srcIndices, List.find?_eq_none, List.mem_map, List.mem_range, decide_eq_true_eq, Nat.not_le]
    rintro a ⟨i, hi, rfl⟩
    exact h i hi
  unfold execEncEmit
  rw [hnone]

/-- The operand shapes of rule R96 reach no index outside their source: `RING` by its own mask, a one-byte source by
mask 0. -/
theorem srcIndex_lt_of_wf {src : EncSrc} {off mask : Half} {s : State} (h : src.wf s.cfg off mask = true) (i : Nat) :
    (off.toNat + i) &&& mask.toNat < srcSize src s := by
  cases src with
  | ring =>
    obtain ⟨hmask, -⟩ : mask.toNat = s.cfg.ringMask ∧ off.toNat < s.cfg.ringSize := by simpa [EncSrc.wf] using h
    rw [hmask]
    exact ringIndex_lt s.cfg _
  | imm bytes =>
    obtain ⟨hlen, rfl⟩ : bytes.length = 1 ∧ mask = 0#16 := by simpa [EncSrc.wf] using h
    show (off.toNat + i) &&& 0 < bytes.length
    rw [Nat.and_zero, hlen]
    exact Nat.one_pos

/-- `ENC_EMIT` with the operand shapes of rule R96. -/
theorem execEncEmit_of_wf {src : EncSrc} {off mask : Half} {s : State} (h : src.wf s.cfg off mask = true)
    (control seq len : Byte) :
    ∃ t, execEncEmit control seq src off mask len s = .next t ∧
      Emitted (wire control seq (srcBytes src off.toNat mask.toNat len.toNat s)) s t := by
  have he := execEncEmit_of_inside (len := len) (fun i _ => srcIndex_lt_of_wf h i) control seq
  exact ⟨_, he, execEncEmit_emitted he⟩

theorem srcBytes_eq_map_range (src : EncSrc) (off mask n : Nat) (s : State) :
    srcBytes src off mask n s = (List.range n).map fun i =>
      match src with
      | .ring => s.tp.ring.read ((off + i) &&& mask)
      | .imm bytes => bytes.getD ((off + i) &&& mask) 0#8 := by
  cases src <;> simp only [srcBytes, srcIndices, List.map_map] <;> rfl

/-- Settles O10: the emission is `execEncEmit_of_wf`, the bounds are those of rules R69, R100. -/
theorem encEmitWireForm : Obligations.EncEmitWireForm := by
  unfold Obligations.EncEmitWireForm
  intro control seq src off mask len s hwf
  obtain ⟨t, ht, hemit⟩ := execEncEmit_of_wf hwf control seq len
  have hlen := wire_length control seq (srcBytes src off.toNat mask.toNat len.toNat s)
  have hstuff := stuffCount_logicalBytes_le control seq (srcBytes src off.toNat mask.toNat len.toNat s)
  rw [srcBytes_length] at hlen hstuff
  exact ⟨t, _, ht, hemit, srcBytes_eq_map_range src off.toNat mask.toNat len.toNat s, by omega, by omega⟩

/-- Settles O11: what follows the sync is the stuffed form and the end marker. -/
theorem encEmitNoTripleHeader : Obligations.EncEmitNoTripleHeader := by
  unfold Obligations.EncEmitNoTripleHeader
  intro control seq src off mask len s hwf
  obtain ⟨t, ht, hemit⟩ := execEncEmit_of_wf hwf control seq len
  have hout := hemit.txOut
  rw [wire, List.append_assoc [headerByte, headerByte, headerByte], ← List.append_assoc s.io.txOut] at hout
  exact ⟨t, _, ht, hout, (noTripleHeader_stuffed _).1⟩

end Sys2Proof.Machine
end

section
/-! Rules R28, R32, R54, R80, R178, R199: one step. What it runs, that the streams only grow, that it keeps the
invariant, and that no run of host operations stops. -/

namespace Sys2Proof.Machine

/-! ### What a step runs -/

/-- The transmit space a request brings, as rule R191 and D31 say it. -/
theorem drainedSpace_eq_ite (freed : Nat) (s : State) :
    drainedSpace freed s =
      if s.cfg.hostTx = .h0 then s.io.txSpace else BitVec.ofNat 16 (min 0xFFFF (s.io.txSpace.toNat + freed)) := by
  unfold drainedSpace
  cases s.cfg.hostTx <;> rfl

theorem step_of_empty {s : State} (hp : s.io.port = []) : step s = .next s := by
  unfold step; rw [hp]

theorem step_of_decoded {s : State} {r : Request} {rest : List Request} {i : Instr} (hp : s.io.port = r :: rest)
    (hd : decode (fetch r s) = .instr i) : step s = exec i (accept r rest s) := by
  unfold step
  rw [hp]
  simp only [show fetch r (accept r rest s) = fetch r s from rfl, hd]

theorem step_of_ignored {s : State} {r : Request} {rest : List Request} {code : Byte} (hp : s.io.port = r :: rest)
    (hd : decode (fetch r s) = .rejected (.notHostOp code)) : step s = .next (accept r rest s) := by
  unfold step
  rw [hp]
  simp only [show fetch r (accept r rest s) = fetch r s from rfl, hd]

theorem step_of_undecodable {s : State} {r : Request} {rest : List Request} {why : DecodeError}
    (hp : s.io.port = r :: rest) (hd : decode (fetch r s) = .rejected why) (hw : ∀ code, why ≠ .notHostOp code) :
    step s = .refused (.undecodable why) := by
  unfold step
  rw [hp]
  simp only [show fetch r (accept r rest s) = fetch r s from rfl, hd]

/-- Settles O58. -/
theorem stepRunsDecoded : Obligations.StepRunsDecoded := by
  unfold Obligations.StepRunsDecoded
  refine ⟨fun s r rest i hp hd => ?_, fun s hp => step_of_empty hp⟩
  rw [← drainedSpace_eq_ite]
  exact step_of_decoded hp hd

/-- A code outside 1 to 5 is none of the five host operations (rules R77, R80). -/
theorem decodeHost_illegal {op : Byte} (h : ¬(1 ≤ op.toNat ∧ op.toNat ≤ 5)) (args : List Byte) :
    decodeHost op args = .rejected (.notHostOp op) := by
  have hne : ∀ k : Byte, 1 ≤ k.toNat ∧ k.toNat ≤ 5 → op ≠ k := fun k hk e => h (e ▸ hk)
  rw [decodeHost, if_neg (hne 0x01#8 (by decide)), if_neg (hne 0x02#8 (by decide)), if_neg (hne 0x03#8 (by decide)),
    if_neg (hne 0x04#8 (by decide)), if_neg (hne 0x05#8 (by decide))]

theorem decode_fetch_host {r : Request} (h : r.space = .host) (s : State) :
    decode (fetch r s) = decodeHost r.op r.args := by
  have hop : (fetch r s).op = r.op := if_neg (by rw [h]; decide)
  show (match (fetch r s).space with | .pin => _ | .host => _ | .micro => _ | .handler => _) = _
  rw [show (fetch r s).space = .host from h, ← hop]
  rfl

theorem decode_fetch_pin {r : Request} (h : r.space = .pin) (s : State) : decode (fetch r s) = .instr .hwreset := by
  unfold decode
  rw [show (fetch r s).space = .pin from h]

/-- Settles O59: the request is taken and nothing else happens. -/
theorem illegalCommandIgnored : Obligations.IllegalCommandIgnored := by
  unfold Obligations.IllegalCommandIgnored
  intro s r rest hp hspace hcode
  have hd : decode (fetch r s) = .rejected (.notHostOp r.op) := by
    rw [decode_fetch_host hspace, decodeHost_illegal hcode]
  exact ⟨_, step_of_ignored hp hd, rfl, rfl, rfl, rfl, rfl, rfl, rfl, rfl, rfl, rfl⟩

/-! ### Two families of operations that share a frame -/

/-- The rows before the end marker, and the pre-check's three cases. -/
def decoderOnly : Instr → Bool
  | .rxResync | .rxDestuff | .rxViolation _ | .rxSof _ | .rxCtrl _ | .rxSeq _ | .rxLen _ | .rxPay _
  | .rxC3 _ | .rxC2 _ | .rxC1 _ | .rxC0 _ => true
  | _ => false

/-- Presented by themselves they change what they change inside `RXBYTE` (rules R111 to R121). -/
theorem exec_decOnly {i : Instr} {s t : State} (hi : decoderOnly i = true) (h : exec i s = .next t) : DecOnly s t := by
  cases i with
  | rxResync => exact rxSpecial_decOnly (b := headerByte) h
  | rxDestuff | rxViolation => cases h; exact ⟨rfl⟩
  | rxSof b => exact exec_rowOp_decOnly .sof b nofun h
  | rxCtrl b => exact exec_rowOp_decOnly .ctrl b nofun h
  | rxSeq b => exact exec_rowOp_decOnly .seq b nofun h
  | rxLen b => exact exec_rowOp_decOnly .len b nofun h
  | rxPay b => exact exec_rowOp_decOnly .pay b nofun h
  | rxC3 b => exact exec_rowOp_decOnly .c3 b nofun h
  | rxC2 b => exact exec_rowOp_decOnly .c2 b nofun h
  | rxC1 b => exact exec_rowOp_decOnly .c1 b nofun h
  | rxC0 b => exact exec_rowOp_decOnly .c0 b nofun h
  | _ => cases hi

/-- The operations that hand bytes to the host and do nothing else but note a time. -/
def emitsOnly : Instr → Bool
  | .encRaw _ | .encPut _ _ | .encEmit .. | .sendFrame _ | .sendAck | .sendReset => true
  | _ => false

theorem exec_sentOnly {i : Instr} {s t : State} (hi : emitsOnly i = true) (h : exec i s = .next t) : SentOnly s t := by
  cases i with
  | encRaw b => cases h; exact (emitted_txByte b s).sentOnly
  | encPut b crc => cases h; exact (encPut_emitted b crc s).sentOnly
  | encEmit => exact (execEncEmit_emitted h).sentOnly
  | sendFrame k =>
    change execSendFrame k s = .next t at h
    unfold execSendFrame at h
    split at h <;> cases h
    exact sendFrame_sentOnly _ s
  | sendAck => cases h; exact sendAck_sentOnly s
  | sendReset => cases h; exact sendReset_sentOnly s
  | _ => cases hi

/-! ### The streams and the port -/

/-- The host's requests are the same and the two output streams have only grown (rules R32, R206). -/
structure Grows (s t : State) : Prop where
  port : t.io.port = s.io.port
  txOut : s.io.txOut <+: t.io.txOut
  appOut : s.io.appOut <+: t.io.appOut

theorem Grows.of_io {s t : State} (h : t.io = s.io) : Grows s t :=
  ⟨by rw [h], by rw [h], by rw [h]⟩

theorem Grows.trans {s t u : State} (h : Grows s t) (h' : Grows t u) : Grows s u :=
  ⟨h'.port.trans h.port, h.txOut.trans h'.txOut, h.appOut.trans h'.appOut⟩

theorem Keeps.grows {s t : State} (h : Keeps s t) : Grows s t := ⟨h.port, h.txOut, h.appOut⟩

theorem SentOnly.grows {s t : State} (h : SentOnly s t) : Grows s t := by
  obtain ⟨l, hl⟩ := h.txOut
  exact ⟨h.port, ⟨l, hl.symm⟩, by rw [h.appOut]⟩

theorem returnValue_grows (v : Word) (s : State) : Grows s (returnValue v s) :=
  ⟨rfl, List.prefix_rfl, List.prefix_rfl⟩

theorem crcSet_grows (acc : CrcCtx) (v : Word) (s : State) : Grows s (crcSet acc v s) := by
  cases acc <;> exact .of_io rfl

/-- `QUEUE` (rule R136): refused, or it rejects, or it pushes. -/
theorem execQueue_cases {id : Byte} {len : Half} {payload : List Byte} {s t : State}
    (h : execQueue id len payload s = .next t) :
    payload.length = len.toNat ∧
      ((queueRejects len.toNat s = true ∧
        t = returnValue 0#32 (drop (.queueReject id len)
          { sampleNow s with tp.droppedFrames := s.tp.droppedFrames + 1#32 })) ∨
       (queueRejects len.toNat s = false ∧ t = returnValue 1#32 (fifoPush (maskIdent id) payload (sampleNow s)))) := by
  unfold execQueue at h
  split at h
  · next hl =>
    refine ⟨hl, ?_⟩
    simp only at h
    split at h
    · next hr => cases h; exact .inl ⟨hr, rfl⟩
    · next hr => cases h; exact .inr ⟨Bool.eq_false_of_not_eq_true hr, rfl⟩
  · cases h

theorem execQueue_grows {id : Byte} {len : Half} {payload : List Byte} {s t : State}
    (h : execQueue id len payload s = .next t) : Grows s t := by
  obtain ⟨-, ⟨-, rfl⟩ | ⟨-, rfl⟩⟩ := execQueue_cases h
  · exact (Grows.of_io rfl : Grows s { sampleNow s with tp.droppedFrames := s.tp.droppedFrames + 1#32 }).trans
      ((drop_keeps _ _).grows.trans (returnValue_grows _ _))
  · exact (Grows.of_io rfl : Grows s (fifoPush (maskIdent id) payload (sampleNow s))).trans (returnValue_grows _ _)

theorem execTreset_grows (inform : Bool) (s : State) :
    Grows s (tpClear (if inform then sendReset (sampleNow s) else sampleNow s)) := by
  have h : Grows s (sampleNow s) := .of_io rfl
  refine Grows.trans ?_ (tpClear_keeps _).grows
  cases inform with
  | false => exact h
  | true => exact h.trans (sendReset_keeps _).grows

/-- Rule R32, operation by operation. -/
theorem exec_grows {i : Instr} {s t : State} (h : exec i s = .next t) : Grows s t := by
  cases i with
  | hwreset | fifoPop | tpClear => cases h; exact .of_io rfl
  | feed b => exact (Grows.of_io rfl : Grows s (sampleNow s)).trans (execRxbyte_keeps h).grows
  | poll bytes =>
    obtain ⟨u, hu, rfl⟩ := execPoll_next h
    exact (Grows.of_io rfl : Grows s (sampleNow s)).trans ((rxList_keeps hu).trans (pollTimers_keeps u)).grows
  | queue => exact execQueue_grows h
  | treset inform => cases h; exact execTreset_grows inform s
  | status | crcFinal => cases h; exact returnValue_grows _ s
  | crcInit | crcStep => cases h; exact crcSet_grows _ _ s
  | rxbyte => exact (execRxbyte_keeps h).grows
  | dispatch => exact (execDispatch_keeps h).grows
  | rxEof => exact (execRxEof_keeps h).grows
  | fifoPush id len payload =>
    change execFifoPush id len payload s = .next t at h
    unfold execFifoPush at h
    split at h <;> cases h
    exact .of_io rfl
  | hAck => exact (execHAck_keeps h).grows
  | hReset => exact (execHReset_keeps h).grows
  | hApp r id => exact (execHApp_keeps (r := r) (id := id) h).grows
  | hNontp => exact (deliver_keeps h).grows
  | encRaw | encPut | encEmit | sendFrame | sendAck | sendReset => exact (exec_sentOnly rfl h).grows
  | rxResync | rxDestuff | rxViolation | rxSof | rxCtrl | rxSeq | rxLen | rxPay | rxC3 | rxC2 | rxC1 | rxC0 =>
    exact (exec_decOnly rfl h).keeps.grows

/-- Settles O51: taking a request leaves the streams alone, and then `exec_grows`. -/
theorem streamsOnlyGrow : Obligations.StreamsOnlyGrow := by
  unfold Obligations.StreamsOnlyGrow
  intro s t h
  obtain ⟨-, rfl⟩ | ⟨r, rest, -, ⟨i, -, hi⟩ | ⟨-, -, rfl⟩⟩ := step_next_cases h
  · exact ⟨List.prefix_rfl, List.prefix_rfl⟩
  · exact ⟨(exec_grows hi).txOut, (exec_grows hi).appOut⟩
  · exact ⟨List.prefix_rfl, List.prefix_rfl⟩

/-- No step puts anything on the port. -/
theorem step_port_subset {s t : State} (h : step s = .next t) : t.io.port ⊆ s.io.port := by
  obtain ⟨-, rfl⟩ | ⟨r, rest, hp, ⟨i, -, hi⟩ | ⟨-, -, rfl⟩⟩ := step_next_cases h
  · exact List.Subset.refl _
  · rw [(exec_grows hi).port, hp]; exact List.subset_cons_self r rest
  · rw [hp]; exact List.subset_cons_self r rest

/-! ### The invariant -/

/-- Settles O52: an empty queue, an empty window, a decoder that searches for the sync, empty memories. -/
theorem invAtReset : Obligations.InvAtReset :=
  ⟨DecInv.of_early (.inl rfl), FifoInv.empty rfl rfl rfl rfl rfl, WindowInv.empty rfl, ⟨rfl, rfl, rfl, rfl, rfl, rfl⟩,
    fun _ hr => absurd hr List.not_mem_nil⟩

/-- What the pin and the command port can present (rule R77) takes a sound state to a sound state. -/
theorem exec_port_sound {r : Request} {i : Instr} {s : State} (hr : r.space = .pin ∨ r.space = .host)
    (hd : decode (fetch r s) = .instr i) (h : Sound s) : ∃ t, exec i s = .next t ∧ Sound t := by
  rcases hr with hpin | hhost
  · rw [decode_fetch_pin hpin] at hd
    cases hd
    exact execHwreset_sound s
  · rw [decode_fetch_host hhost] at hd
    exact exec_host_sound hd h

/-- Settles O53: soundness by the operation taken, the port because no step adds to it. -/
theorem invKept : Obligations.InvKept := by
  unfold Obligations.InvKept
  intro s t hinv h
  obtain ⟨hs, hport⟩ := inv_iff.1 hinv
  refine inv_iff.2 ⟨?_, fun r hr => hport r (step_port_subset h hr)⟩
  obtain ⟨-, rfl⟩ | ⟨r, rest, hp, ⟨i, hd, hi⟩ | ⟨-, -, rfl⟩⟩ := step_next_cases h
  · exact hs
  · obtain ⟨u, hu, hsu⟩ := exec_port_sound (hport r (by rw [hp]; exact List.mem_cons_self)) hd (hs.accept r rest)
    rw [hi] at hu
    cases hu
    exact hsu
  · exact hs.accept r rest

/-- The head request of a sound state, in one of the shapes of rule R78, runs to its end. -/
theorem step_next_of_inv {s : State} (hinv : Inv s) (hshape : RequestsShaped s) : ∃ t, step s = .next t := by
  cases hp : s.io.port with
  | nil => exact ⟨s, step_of_empty hp⟩
  | cons r rest =>
    have hmem : r ∈ s.io.port := by rw [hp]; exact List.mem_cons_self
    have hr := hinv.port r hmem
    cases hd : decode (fetch r s) with
    | instr i =>
      obtain ⟨t, ht, -⟩ := exec_port_sound hr (s := accept r rest s) hd ((inv_iff.1 hinv).1.accept r rest)
      exact ⟨t, (step_of_decoded hp hd).trans ht⟩
    | rejected why =>
      rcases hr with hpin | hhost
      · rw [decode_fetch_pin hpin] at hd
        cases hd
      · have hd' := hd
        rw [decode_fetch_host hhost] at hd'
        cases why with
        | notHostOp code => exact ⟨_, step_of_ignored hp hd⟩
        | operands m => exact absurd hd' (hshape r hmem hhost m)
        | noMicroOp code =>
          rcases decodeHost_cases r.op r.args with ⟨_, h⟩ | h | ⟨_, _, _, _, h⟩ | ⟨_, h⟩ | ⟨_, h⟩ | h | ⟨_, h⟩ <;>
            rw [hd'] at h <;> cases h

/-- Settles O54, by induction on the number of steps. -/
theorem runsNeverStop : Obligations.RunsNeverStop := by
  unfold Obligations.RunsNeverStop
  intro n
  induction n with
  | zero => exact fun s hinv hshape => ⟨s, rfl, hinv, hshape⟩
  | succ n ih =>
    intro s hinv hshape
    obtain ⟨u, hu⟩ := step_next_of_inv hinv hshape
    obtain ⟨t, ht, htinv, htshape⟩ := ih u (invKept s u hinv hu) fun r hr => hshape r (step_port_subset hu hr)
    refine ⟨t, ?_, htinv, htshape⟩
    rw [runFor, hu]
    exact ht

end Sys2Proof.Machine
end

section
/-! Rules R110 to R112, R127, R128, R148, R178: one received byte. What it runs, the parse state after it, that it
always completes, and that three header bytes start a new frame. -/

namespace Sys2Proof.Machine

/-! ### What `RXBYTE` runs -/

theorem exec_rxbyte (b : Byte) (s : State) : exec (.rxbyte b) s = execRxbyte b s := rfl

theorem exec_rxbyte_special {s : State} (h : s.dec.hdrCnt = .two) (b : Byte) :
    exec (.rxbyte b) s = exec (specialOp b) (noteArrival s) := by
  rw [exec_rxbyte, execRxbyte_special h, exec_specialOp]

theorem exec_rxResync (s : State) :
    exec .rxResync s =
      .next { s with
        dec.hdrCnt := .zero
        dec.state := .ctrl
        io.trace := if s.dec.state = .sof then s.io.trace else s.io.trace ++ [.resync] } := by
  show (if s.dec.state = .sof then _ else _) = _
  by_cases h : s.dec.state = .sof
  · rw [if_pos h, if_pos h]; rfl
  · rw [if_neg h, if_neg h]; rfl

/-- Settles O13. -/
theorem rxSpecialBranch : Obligations.RxSpecialBranch := by
  unfold Obligations.RxSpecialBranch
  exact fun b s => ⟨fun h => exec_rxbyte_special h b, exec_rxResync s, rfl, rfl⟩

theorem countHeader_eq_ite {c : RxHdr} (h : c ≠ .two) (b : Byte) :
    countHeader b c = if b = 0xAA#8 then (if c = .zero then .one else .two) else .zero := by
  cases c with
  | zero => rfl
  | one => rfl
  | two => exact absurd rfl h

theorem exec_rxbyte_row {s : State} (h : s.dec.hdrCnt ≠ .two) (b : Byte) :
    exec (.rxbyte b) s = exec (rowOp s.dec.state b) (setHdr (countHeader b s.dec.hdrCnt) (noteArrival s)) := by
  rw [exec_rxbyte, execRxbyte_row h, ← exec_rowOp]
  rfl

/-- Settles O21. -/
theorem rxbyteCountsAndSelects : Obligations.RxbyteCountsAndSelects := by
  unfold Obligations.RxbyteCountsAndSelects
  intro b s
  refine ⟨fun h => exec_rxbyte_special h b, fun h => ?_⟩
  rw [← countHeader_eq_ite h]
  exact exec_rxbyte_row h b

/-! ### The rows, from a state that keeps the decoder's bounds -/

/-- The rows' half of the table of rule R128 does not read the counter. -/
theorem nextRxState_of_ne_two {s : State} (h : s.dec.hdrCnt ≠ .two) (b : Byte) :
    nextRxState b s = nextRxState b (setHdr .zero s) := by
  rw [nextRxState, if_neg h]
  rfl

/-- What a byte taken by a row or by the pre-check leaves: a next state, within the decoder's bounds, its memory still
canonical, in the parse state `st`. -/
structure Taken (st : RxState) (s : State) (o : Result) (t : State) : Prop where
  next : o = .next t
  decInv : DecInv t
  state : t.dec.state = st
  bufWf : s.dec.buf.wf = true → t.dec.buf.wf = true

/-- From the payload on the bounds ask for an accepted length only. -/
theorem DecInv.of_checksum {t : State}
    (h : t.dec.state = .c3 ∨ t.dec.state = .c2 ∨ t.dec.state = .c1 ∨ t.dec.state = .c0 ∨ t.dec.state = .eof)
    (hl : t.dec.len.toNat ≤ t.cfg.maxPayload) : DecInv t := by
  rcases h with h | h | h | h | h <;>
    exact ⟨fun hs => by simp [h] at hs, fun hs => by simp [h] at hs, fun _ => hl⟩

theorem DecInv.of_header {t : State} (h : t.dec.state = .seq ∨ t.dec.state = .len) (hc : t.dec.cnt = 0#8) :
    DecInv t := by
  rcases h with h | h <;>
    exact ⟨fun _ => hc, fun hs => by simp [h] at hs, fun hs => by simp [h] at hs⟩

theorem rxCtrl_taken (b : Byte) (s : State) :
    ∃ t, Taken (if b.getLsbD 7 = true then .seq else .len) s (exec (.rxCtrl b) s) t := by
  by_cases h : controlT b = true
  · exact ⟨_, exec_rxCtrl_transport h s, .of_header (.inl rfl) rfl, (if_pos h).symm, id⟩
  · exact ⟨_, exec_rxCtrl_nontransport h s, .of_header (.inr rfl) rfl, (if_neg h).symm, id⟩

theorem rxLen_taken (b : Byte) {s : State} (hc : s.dec.cnt = 0#8) :
    ∃ t, Taken (if b = 0#8 then .c3 else if b.toNat ≤ s.cfg.maxPayload then .pay else .sof) s
      (exec (.rxLen b) s) t := by
  by_cases h0 : b = 0#8
  · subst h0
    exact ⟨_, exec_rxLen_zero s, .of_checksum (.inl rfl) (Nat.zero_le _), rfl, id⟩
  · rw [if_neg h0]
    by_cases h : b.toNat ≤ s.cfg.maxPayload
    · refine ⟨_, exec_rxLen_fits h0 h, ⟨fun hs => by simp at hs, fun _ => ?_, fun _ => h⟩, (if_pos h).symm, id⟩
      show s.dec.cnt.toNat < b.toNat
      have hpos : b.toNat ≠ 0 := fun e => h0 (BitVec.eq_of_toNat_eq e)
      rw [hc]
      exact Nat.pos_of_ne_zero hpos
    · exact ⟨_, exec_rxLen_oversize h0 h, .of_early (.inl rfl), (if_neg h).symm, id⟩

/-- The count of payload bytes does not wrap while it is below the length. -/
theorem cnt_add_one {s : State} (h : s.dec.cnt.toNat < s.dec.len.toNat) :
    (s.dec.cnt + 1#8).toNat = s.dec.cnt.toNat + 1 ∧
      (s.dec.cnt + 1#8 = s.dec.len ↔ s.dec.cnt.toNat + 1 = s.dec.len.toNat) := by
  have hlt := s.dec.len.isLt
  have hadd : (s.dec.cnt + 1#8).toNat = s.dec.cnt.toNat + 1 := by
    simp only [BitVec.toNat_add, BitVec.toNat_ofNat]; omega
  exact ⟨hadd, by rw [← hadd]; exact BitVec.toNat_inj.symm⟩

theorem rxPay_taken (b : Byte) {s : State} (hst : s.dec.state = .pay) (hd : DecInv s) :
    ∃ t, Taken (if s.dec.cnt.toNat + 1 = s.dec.len.toNat then .c3 else .pay) s (exec (.rxPay b) s) t := by
  have hroom := hd.payRoom hst
  have hfits := hd.lenFits (.inl hst)
  obtain ⟨hadd, hlast⟩ := cnt_add_one hroom
  have he := exec_rxPay_inside b (Nat.lt_of_lt_of_le hroom hfits)
  rw [hst] at he
  by_cases h : s.dec.cnt.toNat + 1 = s.dec.len.toNat
  · rw [if_pos (hlast.2 h)] at he
    exact ⟨_, he, .of_checksum (.inl rfl) hfits, (if_pos h).symm, fun hb => Memory.wf_write hb _ _⟩
  · rw [if_neg (fun e => h (hlast.1 e))] at he
    refine ⟨_, he, ⟨fun hs => by simp at hs, fun _ => ?_, fun _ => hfits⟩, (if_neg h).symm,
      fun hb => Memory.wf_write hb _ _⟩
    show (s.dec.cnt + 1#8).toNat < s.dec.len.toNat
    omega

theorem rxC0_taken (b : Byte) {s : State} (hl : s.dec.len.toNat ≤ s.cfg.maxPayload) :
    ∃ t, Taken (if (s.dec.wireCrc.extractLsb' 8 24 ++ b : BitVec 32) = ~~~s.crc.rx then .eof else .sof) s
      (exec (.rxC0 b) s) t := by
  by_cases h : wireByte0 s.dec.wireCrc b = ~~~s.crc.rx
  · exact ⟨_, exec_rxC0_match h, .of_checksum (by simp) hl, (if_pos h).symm, id⟩
  · exact ⟨_, exec_rxC0_mismatch h, .of_early (.inl rfl), (if_neg h).symm, id⟩

/-- The end marker completes because `DISPATCH` does, and no handler touches the decoder. -/
theorem rxEof_taken (b : Byte) {s : State} (hl : s.dec.len.toNat ≤ s.cfg.maxPayload) :
    ∃ t, Taken .sof s (exec (.rxEof b) s) t := by
  by_cases hb : b = 0x55#8
  · subst hb
    obtain ⟨t, ht⟩ := execDispatch_next (s := goto .sof s) hl
    have hdec := execDispatch_dec ht
    have hstate : t.dec.state = .sof := by rw [hdec]; rfl
    exact ⟨t, (exec_rxEof_marker s).trans ht, .of_early (.inl hstate), hstate, fun h => by rw [hdec]; exact h⟩
  · exact ⟨_, exec_rxEof_other hb s, .of_early (.inl rfl), rfl, id⟩

/-- Every row takes every byte (rule R178), to the parse state of rule R128. -/
theorem rxRow_taken (b : Byte) {s : State} (hd : DecInv s) :
    ∃ t, Taken (nextRxState b (setHdr .zero s)) s (rxRow b s) t := by
  have hfits := hd.lenFits
  have hcnt : (setHdr .zero s).dec.hdrCnt ≠ .two := nofun
  rw [← exec_rowOp, nextRxState, if_neg hcnt, setHdr_dec_state]
  cases hst : s.dec.state with
  | sof => exact ⟨s, rfl, hd, hst, id⟩
  | ctrl => exact rxCtrl_taken b s
  | seq => exact ⟨_, exec_rxSeq b s, .of_header (.inr rfl) (hd.cntFresh (.inl hst)), rfl, id⟩
  | len => exact rxLen_taken b (hd.cntFresh (.inr hst))
  | pay => exact rxPay_taken b hst hd
  | c3 => exact ⟨_, exec_rxC3 b s, .of_checksum (by simp) (hfits (by simp [hst])), rfl, id⟩
  | c2 => exact ⟨_, exec_rxC2 b s, .of_checksum (by simp) (hfits (by simp [hst])), rfl, id⟩
  | c1 => exact ⟨_, exec_rxC1 b s, .of_checksum (by simp) (hfits (by simp [hst])), rfl, id⟩
  | c0 => exact rxC0_taken b (hfits (by simp [hst]))
  | eof => exact rxEof_taken b (hfits (by simp [hst]))

/-! ### The pre-check's special branch and the whole of `RXBYTE` -/

theorem rxSpecial_taken (b : Byte) {s : State} (hd : DecInv s) (h : s.dec.hdrCnt = .two) :
    ∃ t, Taken (nextRxState b s) s (rxSpecial b s) t := by
  rw [← exec_specialOp, nextRxState, if_pos h, specialOp]
  by_cases h1 : b = 0xAA#8
  · rw [if_pos h1, if_pos h1]
    exact ⟨_, exec_rxResync s, .of_early (.inr rfl), rfl, id⟩
  · rw [if_neg h1, if_neg h1]
    by_cases h2 : b = 0x55#8
    · rw [if_pos h2, if_pos h2]
      exact ⟨setHdr .zero s, rfl, ⟨hd.cntFresh, hd.payRoom, hd.lenFits⟩, rfl, id⟩
    · rw [if_neg h2, if_neg h2]
      exact ⟨_, rfl, .of_early (.inl rfl), rfl, id⟩

theorem execRxbyte_taken (b : Byte) {s : State} (hd : DecInv s) :
    ∃ t, Taken (nextRxState b s) s (execRxbyte b s) t := by
  by_cases h : s.dec.hdrCnt = .two
  · rw [execRxbyte_special h]
    obtain ⟨t, ht⟩ := rxSpecial_taken b (s := noteArrival s) ⟨hd.cntFresh, hd.payRoom, hd.lenFits⟩ h
    exact ⟨t, ht.next, ht.decInv, ht.state, ht.bufWf⟩
  · rw [execRxbyte_row h, nextRxState_of_ne_two h]
    obtain ⟨t, ht⟩ := rxRow_taken b (s := setHdr (countHeader b s.dec.hdrCnt) (noteArrival s))
      ⟨hd.cntFresh, hd.payRoom, hd.lenFits⟩
    exact ⟨t, ht.next, ht.decInv, ht.state, ht.bufWf⟩

/-- Settles O22. -/
theorem rxbyteAlwaysCompletes : Obligations.RxbyteAlwaysCompletes := by
  unfold Obligations.RxbyteAlwaysCompletes
  intro b s hd
  obtain ⟨t, ht⟩ := execRxbyte_taken b hd
  exact ⟨t, ht.next, ht.decInv⟩

/-- Settles O23. -/
theorem rxStateTable : Obligations.RxStateTable := by
  unfold Obligations.RxStateTable
  intro b s hd
  obtain ⟨t, ht⟩ := execRxbyte_taken b hd
  exact ⟨t, ht.next, ht.state⟩

/-! ### `FEED` and `POLL` -/

theorem exec_feed (b : Byte) (s : State) : exec (.feed b) s = execRxbyte b (sampleNow s) := rfl

theorem exec_poll (bytes : List Byte) (s : State) :
    exec (.poll bytes) s = andThen (rxList bytes (sampleNow s)) fun t => .next (pollTimers t) := rfl

/-- Settles O27: after `FEED` the clock is already sampled. -/
theorem feedThenPoll : Obligations.FeedThenPoll := by
  unfold Obligations.FeedThenPoll
  refine fun b bytes s => ⟨rfl, fun u hu => ?_⟩
  rw [exec_feed] at hu
  have hk := execRxbyte_keeps hu
  have hnow : sampleNow u = u := by
    show { u with now := u.io.timeMs } = u
    rw [hk.timeMs, sampleNow_io, show s.io.timeMs = u.now from hk.now.symm]
  rw [exec_poll, exec_poll, rxList, hu, hnow]
  rfl

theorem rxList_decInv (bytes : List Byte) {s : State} (hd : DecInv s) : ∃ t, rxList bytes s = .next t ∧ DecInv t := by
  induction bytes generalizing s with
  | nil => exact ⟨s, rfl, hd⟩
  | cons b bytes ih =>
    obtain ⟨u, hu⟩ := execRxbyte_taken b hd
    obtain ⟨t, ht, htd⟩ := ih hu.decInv
    exact ⟨t, by rw [rxList, hu.next]; exact ht, htd⟩

theorem DecInv.sampleNow {s : State} (h : DecInv s) : DecInv (sampleNow s) := ⟨h.cntFresh, h.payRoom, h.lenFits⟩

theorem DecInv.pollTimers {s : State} (h : DecInv s) : DecInv (pollTimers s) := by
  have hdec := pollTimers_dec s
  have hcfg := (pollTimers_keeps s).cfg
  exact ⟨by rw [hdec]; exact h.cntFresh, by rw [hdec]; exact h.payRoom, by rw [hdec, hcfg]; exact h.lenFits⟩

/-- `POLL` from a state that keeps the decoder's bounds: its bytes are taken at the sampled clock, then the timers. -/
theorem exec_poll_decInv (bytes : List Byte) {s : State} (hd : DecInv s) :
    ∃ u, exec (.poll bytes) s = .next (pollTimers u) ∧ Keeps (sampleNow s) u ∧ DecInv u := by
  obtain ⟨u, hu, hud⟩ := rxList_decInv bytes hd.sampleNow
  exact ⟨u, by rw [exec_poll, hu]; rfl, rxList_keeps hu, hud⟩

/-- Settles O28. -/
theorem feedPollComplete : Obligations.FeedPollComplete := by
  unfold Obligations.FeedPollComplete
  intro b bytes s hd
  refine ⟨?feed, ?poll⟩
  case feed =>
    obtain ⟨t, ht⟩ := execRxbyte_taken b hd.sampleNow
    exact ⟨t, ht.next, (execRxbyte_keeps ht.next).now, ht.decInv⟩
  case poll =>
    obtain ⟨u, hu, hkeeps, hud⟩ := exec_poll_decInv bytes hd
    exact ⟨_, hu, (hkeeps.trans (pollTimers_keeps u)).now, hud.pollTimers⟩

/-! ### Three header bytes -/

/-- The frame of a byte that hands no frame over: the decoder, its checksum, the arrival time and the event trace. -/
def ByteFrame (s t : State) : Prop :=
  t = { s with crc.rx := t.crc.rx, dec := t.dec, tp.lastRxAny := s.now, io.trace := t.io.trace }

theorem byteFrame_iff {s t : State} :
    ByteFrame s t ↔ ∃ c d tr, t = { s with crc.rx := c, dec := d, tp.lastRxAny := s.now, io.trace := tr } := by
  constructor
  · exact fun h => ⟨t.crc.rx, t.dec, t.io.trace, h⟩
  · rintro ⟨c, d, tr, rfl⟩; rfl

theorem ByteFrame.trans {s t u : State} (h : ByteFrame s t) (h' : ByteFrame t u) : ByteFrame s u := by
  obtain ⟨c, d, tr, rfl⟩ := byteFrame_iff.1 h
  obtain ⟨c', d', tr', rfl⟩ := byteFrame_iff.1 h'
  exact byteFrame_iff.2 ⟨c', d', tr', rfl⟩

theorem setHdr_self {h : RxHdr} {s : State} (hs : s.dec.hdrCnt = h) : setHdr h s = s := by
  subst hs; rfl

/-- A row leaves the counter of the pre-check alone. -/
theorem rxRow_hdrCnt {b : Byte} {s t : State} (hs : s.dec.state ≠ .eof) (h : rxRow b s = .next t) :
    t.dec.hdrCnt = s.dec.hdrCnt := by
  have hset := rxRow_setHdr b s.dec.hdrCnt s hs
  rw [setHdr_self rfl, h] at hset
  have ht : t = setHdr s.dec.hdrCnt t := by injection hset
  rw [ht]
  rfl

/-- A header byte that is counted hands nothing over: in `S_EOF` it is a bad end marker. -/
theorem execRxbyte_header {s : State} (hd : DecInv s) (h : s.dec.hdrCnt ≠ .two) :
    ∃ t, execRxbyte headerByte s = .next t ∧ t.dec.hdrCnt = countHeader headerByte s.dec.hdrCnt ∧ ByteFrame s t ∧
      DecInv t ∧ (s.dec.buf.wf = true → t.dec.buf.wf = true) := by
  obtain ⟨t, ht⟩ := execRxbyte_taken headerByte hd
  refine ⟨t, ht.next, ?counter, ?frame, ht.decInv, ht.bufWf⟩
  case frame =>
    rcases execRxbyte_cases ht.next with hf | ⟨-, -, hb, -⟩
    · exact hf
    · exact absurd hb (by decide)
  case counter =>
    have hrow := ht.next
    rw [execRxbyte_row h] at hrow
    by_cases he : s.dec.state = .eof
    · rw [rxRow_eof (by exact he)] at hrow
      have hbad := exec_rxEof_other (b := headerByte) (by decide)
        (setHdr (countHeader headerByte s.dec.hdrCnt) (noteArrival s))
      have := hbad.symm.trans hrow
      cases this
      rfl
    · exact rxRow_hdrCnt (by exact he) hrow

/-- Three header bytes from a clear counter: the third is the pre-check's resync (rules R104, R127). -/
theorem three_headers {s : State} (hd : DecInv s) (h : s.dec.hdrCnt = .zero) :
    ∃ t, Fed [headerByte, headerByte, headerByte] s t ∧ t.dec.state = .ctrl ∧ t.dec.hdrCnt = .zero ∧ ByteFrame s t ∧
      (s.dec.buf.wf = true → t.dec.buf.wf = true) := by
  obtain ⟨u, hu, hucnt, hufr, hud, hubuf⟩ := execRxbyte_header hd (by rw [h]; decide)
  have hu1 : u.dec.hdrCnt = .one := by rw [hucnt, h]; rfl
  obtain ⟨v, hv, hvcnt, hvfr, -, hvbuf⟩ := execRxbyte_header hud (by rw [hu1]; decide)
  have hv2 : v.dec.hdrCnt = .two := by rw [hvcnt, hu1]; rfl
  have hw : exec (.rxbyte headerByte) v = exec .rxResync (noteArrival v) := exec_rxbyte_special hv2 headerByte
  rw [exec_rxResync] at hw
  exact ⟨_, ⟨u, hu, v, hv, _, hw, rfl⟩, rfl, rfl, (hufr.trans hvfr).trans (byteFrame_iff.2 ⟨_, _, _, rfl⟩),
    fun hb => hvbuf (hubuf hb)⟩

/-- Settles O26. -/
theorem hardResync : Obligations.HardResync := by
  unfold Obligations.HardResync
  intro s hd h
  obtain ⟨t, hfed, hst, hcnt, hfr, -⟩ := three_headers hd h
  exact ⟨t, hfed, hst, hcnt, hfr⟩

end Sys2Proof.Machine
end

section
/-! Rule R104: the decoder undoes the encoder. The rows of the state table read a frame's logical bytes field by field;
`Rows.fed_stuffed` carries that over to the stuffed bytes, and `three_headers` puts the sync in front. -/

namespace Sys2Proof.Machine

theorem Rows.cons_of_state {b : Byte} {l : List Byte} {s u t : State} {st : RxState} (hs : s.dec.state = st)
    (hst : st ≠ .eof) (h : exec (rowOp st b) s = .next u) (hr : Rows l u t) : Rows (b :: l) s t :=
  ⟨by rw [hs]; exact hst, u, (rxRow_of_state st hs).trans h, hr⟩

theorem ByteFrame.cfg {s t : State} (h : ByteFrame s t) : t.cfg = s.cfg := by rw [h]

theorem ByteFrame.decOnly {s₀ s t : State} (h : ByteFrame s₀ s) (h' : DecOnly s t) : ByteFrame s₀ t := by
  obtain ⟨c, d, tr, rfl⟩ := byteFrame_iff.1 h
  exact byteFrame_iff.2 ⟨_, _, _, h'.frame⟩

/-- Part of a frame is in the decoder: its control byte, its number (0 without the flag), the checksum over the
bytes `l` read so far; and nothing but the decoder has changed since `s₀`. -/
structure Heard (control seq : Byte) (l : List Byte) (s₀ s : State) : Prop where
  frame : ByteFrame s₀ s
  ctrl : s.dec.ctrl = control
  seq : s.dec.seq = if control.getLsbD 7 = true then seq else 0#8
  crc : s.crc.rx = l.foldl crcStep crcInitValue
  bufWf : s.dec.buf.wf = true

/-- Reading on: one more byte goes into the checksum, and the frame's first two fields stay. -/
theorem Heard.step {control seq b : Byte} {l : List Byte} {s₀ s t : State} (h : Heard control seq l s₀ s)
    (hfr : DecOnly s t) (hc : t.dec.ctrl = s.dec.ctrl) (hq : t.dec.seq = s.dec.seq)
    (hx : t.crc.rx = crcStep s.crc.rx b) (hb : t.dec.buf.wf = true) : Heard control seq (l ++ [b]) s₀ t where
  frame := h.frame.decOnly hfr
  ctrl := hc.trans h.ctrl
  seq := hq.trans h.seq
  crc := by rw [hx, h.crc, List.foldl_append]; rfl
  bufWf := hb

/-! ### Field by field -/

/-- The control byte, and the sequence byte it announces (rules R114, R115). -/
theorem rows_header (control seq : Byte) {s₀ s : State} (hst : s.dec.state = .ctrl) (hfr : ByteFrame s₀ s)
    (hb : s.dec.buf.wf = true) :
    ∃ t, Rows (control :: if controlT control then [seq] else []) s t ∧
      Heard control seq (control :: if controlT control then [seq] else []) s₀ t ∧
      t.dec.state = .len ∧ t.dec.cnt = 0#8 := by
  by_cases hT : controlT control = true
  · rw [if_pos hT]
    refine ⟨_, .cons_of_state hst nofun (exec_rxCtrl_transport hT s) (.cons_of_state rfl nofun (exec_rxSeq seq _) rfl),
      ⟨hfr.decOnly ⟨rfl⟩, rfl, (if_pos hT).symm, rfl, hb⟩, rfl, rfl⟩
  · rw [if_neg hT]
    exact ⟨_, .cons_of_state hst nofun (exec_rxCtrl_nontransport hT s) rfl,
      ⟨hfr.decOnly ⟨rfl⟩, rfl, (if_neg hT).symm, rfl, hb⟩, rfl, rfl⟩

/-- The length byte (rule R116): an empty payload goes straight to the checksum. -/
theorem rows_length {control seq : Byte} {l : List Byte} {s₀ s : State} (h : Heard control seq l s₀ s)
    (hst : s.dec.state = .len) {n : Nat} (hn : n ≤ s.cfg.maxPayload) :
    ∃ t, Rows [BitVec.ofNat 8 n] s t ∧ Heard control seq (l ++ [BitVec.ofNat 8 n]) s₀ t ∧ t.dec.len.toNat = n ∧
      t.dec.cnt = s.dec.cnt ∧ t.dec.state = if n = 0 then .c3 else .pay := by
  have hlt : n < 2 ^ 8 := Nat.lt_of_le_of_lt (hn.trans s.cfg.maxPayload_le) (by decide)
  have htoNat : (BitVec.ofNat 8 n).toNat = n := by rw [BitVec.toNat_ofNat, Nat.mod_eq_of_lt hlt]
  by_cases h0 : n = 0
  · subst h0
    exact ⟨_, .cons_of_state hst nofun (exec_rxLen_zero s) rfl, h.step ⟨rfl⟩ rfl rfl rfl h.bufWf, rfl, rfl, rfl⟩
  · have hb0 : BitVec.ofNat 8 n ≠ 0#8 := fun e => h0 (by rw [← htoNat, e]; rfl)
    have hfits : (BitVec.ofNat 8 n).toNat ≤ s.cfg.maxPayload := by rw [htoNat]; exact hn
    exact ⟨_, .cons_of_state hst nofun (exec_rxLen_fits hb0 hfits) rfl, h.step ⟨rfl⟩ rfl rfl rfl h.bufWf, htoNat, rfl,
      (if_neg h0).symm⟩

/-- One write behind the bytes read so far adds its byte to them. -/
theorem map_read_write {m : Memory} (hm : m.wf = true) (n : Nat) (b : Byte) :
    (List.range (n + 1)).map (m.write n b).read = (List.range n).map m.read ++ [b] := by
  rw [List.range_succ, List.map_append, List.map_singleton, Memory.read_write_eq hm]
  congr 1
  exact List.map_congr_left fun i hi => Memory.read_write_ne m b (Nat.ne_of_lt (List.mem_range.1 hi))

/-- The payload bytes (rule R117), from any of them on: they go behind those already in `RXBUF`, and the last one leads
to the checksum. -/
theorem rows_payload {control seq : Byte} {rest : List Byte} (hrest : rest ≠ []) {l : List Byte} {s₀ s : State}
    (h : Heard control seq l s₀ s) (hst : s.dec.state = .pay) (hcnt : s.dec.cnt.toNat + rest.length = s.dec.len.toNat)
    (hfits : s.dec.len.toNat ≤ s.cfg.maxPayload) :
    ∃ t, Rows rest s t ∧ Heard control seq (l ++ rest) s₀ t ∧ t.dec.state = .c3 ∧ t.dec.len = s.dec.len ∧
      (List.range s.dec.len.toNat).map t.dec.buf.read = (List.range s.dec.cnt.toNat).map s.dec.buf.read ++ rest := by
  induction rest generalizing l s with
  | nil => exact absurd rfl hrest
  | cons b rest ih =>
    rw [List.length_cons] at hcnt
    have hroom : s.dec.cnt.toNat < s.dec.len.toNat := by omega
    obtain ⟨hadd, hlast⟩ := cnt_add_one hroom
    have he := exec_rxPay_inside b (Nat.lt_of_lt_of_le hroom hfits)
    have hwf := Memory.wf_write h.bufWf s.dec.cnt.toNat b
    have hstep := h.step (b := b) (t := { s with
        dec.buf := s.dec.buf.write s.dec.cnt.toNat b
        dec.cnt := s.dec.cnt + 1#8
        crc.rx := crcStep s.crc.rx b
        dec.state := if s.dec.cnt + 1#8 = s.dec.len then .c3 else s.dec.state }) ⟨rfl⟩ rfl rfl rfl hwf
    have hread := map_read_write h.bufWf s.dec.cnt.toNat b
    cases rest with
    | nil =>
      have hend : s.dec.cnt.toNat + 1 = s.dec.len.toNat := hcnt
      refine ⟨_, .cons_of_state hst nofun he rfl, hstep, if_pos (hlast.2 hend), rfl, ?_⟩
      rw [← hend]
      exact hread
    | cons b' rest =>
      rw [List.length_cons] at hcnt
      have hmore : s.dec.cnt + 1#8 ≠ s.dec.len := fun e => by have := hlast.1 e; omega
      obtain ⟨t, hrows, hheard, ht3, htlen, htread⟩ := ih (by simp) hstep ((if_neg hmore).trans hst)
        (show (s.dec.cnt + 1#8).toNat + (rest.length + 1) = s.dec.len.toNat by omega) hfits
      refine ⟨t, .cons_of_state hst nofun he hrows, by rw [← List.append_cons] at hheard; exact hheard, ht3, htlen, ?_⟩
      have htread' : (List.range s.dec.len.toNat).map t.dec.buf.read =
          (List.range (s.dec.cnt + 1#8).toNat).map (s.dec.buf.write s.dec.cnt.toNat b).read ++ b' :: rest := htread
      rw [htread', hadd, hread, List.append_assoc]
      rfl

/-- The four checksum bytes (rules R118 to R121), when they are those of the bytes read. -/
theorem rows_checksum {control seq : Byte} {l : List Byte} {s₀ s : State} (h : Heard control seq l s₀ s)
    (hst : s.dec.state = .c3) :
    ∃ t, Rows (wordBytes (crc32 l)) s t ∧ ByteFrame s₀ t ∧ t.dec.state = .eof ∧ t.dec.ctrl = s.dec.ctrl ∧
      t.dec.seq = s.dec.seq ∧ t.dec.len = s.dec.len ∧ t.dec.buf = s.dec.buf := by
  have hcrc : crc32 l = ~~~s.crc.rx := by rw [h.crc]; rfl
  rw [hcrc]
  refine ⟨_, .cons_of_state hst nofun (exec_rxC3 _ s) (.cons_of_state rfl nofun (exec_rxC2 _ _)
    (.cons_of_state rfl nofun (exec_rxC1 _ _) (.cons_of_state rfl nofun (exec_rxC0_match ?_) rfl))),
    h.frame.decOnly ⟨rfl⟩, rfl, rfl, rfl, rfl, rfl⟩
  exact wireBytes_word (~~~s.crc.rx)

/-! ### The whole frame -/

/-- The rows take the logical bytes of a frame to `S_EOF`, the frame in the decoder's fields. -/
theorem rows_logicalBytes (control seq : Byte) (payload : List Byte) {s₀ s : State} (hfr : ByteFrame s₀ s)
    (hst : s.dec.state = .ctrl) (hb : s.dec.buf.wf = true) (hlen : payload.length ≤ s₀.cfg.maxPayload) :
    ∃ t, Rows (logicalBytes control seq payload) s t ∧ ByteFrame s₀ t ∧ t.dec.state = .eof ∧ t.dec.ctrl = control ∧
      t.dec.seq = (if control.getLsbD 7 = true then seq else 0#8) ∧ t.dec.len.toNat = payload.length ∧
      (List.range payload.length).map t.dec.buf.read = payload := by
  obtain ⟨u, hurows, hu, hust, hucnt⟩ := rows_header control seq hst hfr hb
  obtain ⟨v, hvrows, hv, hvlen, hvcnt, hvst⟩ := rows_length hu hust (n := payload.length)
    (by rw [hu.frame.cfg]; exact hlen)
  have hvcnt0 : v.dec.cnt.toNat = 0 := by rw [hvcnt, hucnt]; rfl
  have hpay : ∃ w, Rows payload v w ∧
      Heard control seq
        ((control :: if controlT control then [seq] else []) ++ [BitVec.ofNat 8 payload.length] ++ payload) s₀ w ∧
      w.dec.state = .c3 ∧ w.dec.len = v.dec.len ∧ (List.range payload.length).map w.dec.buf.read = payload := by
    by_cases h0 : payload = []
    · subst h0
      exact ⟨v, rfl, by rw [List.append_nil]; exact hv, hvst, rfl, rfl⟩
    · have hpos : payload.length ≠ 0 := fun e => h0 (List.eq_nil_of_length_eq_zero e)
      rw [if_neg hpos] at hvst
      obtain ⟨w, hwrows, hw, hwst, hwlen, hwread⟩ := rows_payload h0 hv hvst (by omega)
        (by rw [hvlen, hv.frame.cfg]; exact hlen)
      rw [hvlen, hvcnt0] at hwread
      exact ⟨w, hwrows, hw, hwst, hwlen, hwread⟩
  obtain ⟨w, hwrows, hw, hwst, hwlen, hwread⟩ := hpay
  obtain ⟨t, htrows, htfr, htst, htctrl, htseq, htlen, htbuf⟩ := rows_checksum hw hwst
  have hchecked : (control :: if controlT control then [seq] else []) ++ [BitVec.ofNat 8 payload.length] ++ payload =
      checkedBytes control seq payload := by
    simp only [checkedBytes, List.cons_append, List.append_assoc, List.nil_append]
  refine ⟨t, ?_, htfr, htst, htctrl.trans hw.ctrl, htseq.trans hw.seq, ?_, by rw [htbuf]; exact hwread⟩
  · rw [logicalBytes, ← hchecked]
    exact ((hurows.append hvrows).append hwrows).append htrows
  · rw [htlen, hwlen, hvlen]

theorem wire_dropLast (control seq : Byte) (payload : List Byte) :
    (wire control seq payload).dropLast =
      [headerByte, headerByte, headerByte] ++ stuffed 0 (logicalBytes control seq payload) := List.dropLast_concat

theorem wire_getLast? (control seq : Byte) (payload : List Byte) :
    (wire control seq payload).getLast? = some 0x55#8 := List.getLast?_concat

/-- The end marker in `S_EOF` (rules R110, R122), whatever the stuffing has left in the counter. -/
theorem exec_rxbyte_endMarker {s : State} (hst : s.dec.state = .eof) (h : s.dec.hdrCnt ≠ .two) :
    exec (.rxbyte 0x55#8) s = exec .dispatch (goto .sof (setHdr .zero (noteArrival s))) := by
  have hcnt : countHeader 0x55#8 s.dec.hdrCnt = .zero := by cases s.dec.hdrCnt <;> rfl
  rw [exec_rxbyte_row h, hst, hcnt]
  exact exec_rxEof_marker _

theorem ByteFrame.noteArrival {s t : State} (h : ByteFrame s t) : noteArrival t = t := by
  obtain ⟨c, d, tr, rfl⟩ := byteFrame_iff.1 h
  rfl

/-- Settles O24: sync, stuffed logical bytes, end marker. -/
theorem roundTrip : Obligations.RoundTrip := by
  unfold Obligations.RoundTrip
  intro control seq payload s hd hb hcnt hlen
  obtain ⟨a, hfedSync, hast, hacnt, hafr, habuf⟩ := three_headers hd hcnt
  obtain ⟨t, hrows, htfr, htst, htctrl, htseq, htlen, htread⟩ :=
    rows_logicalBytes control seq payload hafr hast (habuf hb) hlen
  have hfedBody := Rows.fed_stuffed .two hafr.noteArrival hrows
  rw [setHdr_self (h := TxCountdown.two.rxHdr) hacnt] at hfedBody
  have hne : (countDowns (logicalBytes control seq payload) .two).rxHdr ≠ .two := by
    cases countDowns (logicalBytes control seq payload) .two <;> decide
  obtain ⟨c, d, tr, rfl⟩ := byteFrame_iff.1 htfr
  have hfed := hfedSync.append hfedBody
  rw [show TxCountdown.two.seen = 0 from rfl, ← wire_dropLast] at hfed
  exact ⟨_, _, hfed, wire_getLast? control seq payload, exec_rxbyte_endMarker htst hne, rfl, rfl, rfl, rfl, htctrl,
    htseq, htlen, htread⟩

end Sys2Proof.Machine
end

section
/-! Rules R35, R205: reset. -/

namespace Sys2Proof.Machine

/-- Settles O1. -/
theorem resetState : Obligations.ResetState := by
  unfold Obligations.ResetState
  decide

/-- Settles O2. -/
theorem hwresetResult : Obligations.HwresetResult := by
  unfold Obligations.HwresetResult
  exact fun s => ⟨_, rfl, rfl⟩

end Sys2Proof.Machine
end

section
/-! Rules R145, R149, R150, R158, R159: the sending operations, `TP_CLEAR` and `TRESET`. -/

namespace Sys2Proof.Machine

theorem exec_sendFrame {k : Byte} {s : State} (h : k.toNat < s.cfg.fifoSlots) :
    exec (.sendFrame k) s = .next (sendFrame k.toNat s) :=
  if_pos h

/-- Settles O31. -/
theorem sendFrameEmits : Obligations.SendFrameEmits := by
  unfold Obligations.SendFrameEmits
  exact fun k s hwf hk => ⟨_, exec_sendFrame hk, sendFrame_sent hwf k.toNat⟩

/-- Settles O32. -/
theorem sendAckEmits : Obligations.SendAckEmits := by
  unfold Obligations.SendAckEmits
  exact fun s => ⟨_, rfl, sendAck_tried s⟩

theorem sendReset_of_space {s : State} (h : 11 ≤ txSpace s) : sendReset s = emitFrame ctrlReset 0#8 0#8 [] s :=
  if_pos ((spaceFor_iff 0 s).2 h)

theorem sendReset_of_noSpace {s : State} (h : ¬11 ≤ txSpace s) : sendReset s = drop (.txNoSpace .reset) s :=
  if_neg fun hs => h ((spaceFor_iff 0 s).1 hs)

/-- Settles O33. -/
theorem sendResetEmits : Obligations.SendResetEmits := by
  unfold Obligations.SendResetEmits
  refine fun s => ⟨sendReset s, rfl, fun h => ?_, fun h => ?_⟩
  · rw [sendReset_of_space h]; exact emitFrame_reset s
  · exact sendReset_of_noSpace h

/-- Settles O34. -/
theorem tpClearEmpties : Obligations.TpClearEmpties := by
  unfold Obligations.TpClearEmpties
  exact fun _ => rfl

/-- Settles O43. -/
theorem tresetClears : Obligations.TresetClears := by
  unfold Obligations.TresetClears
  exact fun s => ⟨rfl, ⟨_, rfl⟩, sendReset (sampleNow s), rfl, rfl, _, rfl⟩

end Sys2Proof.Machine
end

section
/-! Rules R125, R129, R152, R153, R157, R163: what the handlers deliver, and which side of TP each of them writes. -/

namespace Sys2Proof.Machine

/-! ### The handlers by themselves -/

theorem exec_hApp (r : Bool) (id : Ident) (s : State) : exec (.hApp r id) s = execHApp r id s := rfl

theorem deliver_received {id : Ident} {s : State} (h : s.dec.len.toNat ≤ s.cfg.maxPayload) :
    deliver id s = .next { s with io.appOut := s.io.appOut ++ [received id s] } :=
  deliver_next h

/-- Settles O36. -/
theorem hNontpDelivers : Obligations.HNontpDelivers := by
  unfold Obligations.HNontpDelivers
  exact fun _ _ _ h => deliver_received h

/-- Settles O39. -/
theorem hResetClears : Obligations.HResetClears := by
  unfold Obligations.HResetClears
  exact fun _ => rfl

theorem execHApp_accept {s : State} (h : s.dec.seq = s.tp.rn) (r : Bool) (id : Ident) :
    execHApp r id s = deliver id (sendAck { s with tp.lastRxFrame := s.now, tp.rn := s.tp.rn + 1#8 }) :=
  if_pos h

theorem execHApp_mismatch {s : State} (h : s.dec.seq ≠ s.tp.rn) (r : Bool) (id : Ident) :
    execHApp r id s = .next (drop (.seqMismatch s.dec.seq s.tp.rn)
      { s with tp.lastRxFrame := s.now, tp.seqMismatchDrops := s.tp.seqMismatchDrops + 1#32 }) :=
  if_neg h

/-- A delivery after a send delivers what the decoder held before it. -/
theorem deliver_after_sent {s u : State} (h : SentOnly s u) {id : Ident} (hl : s.dec.len.toNat ≤ s.cfg.maxPayload) :
    deliver id u = .next { u with io.appOut := s.io.appOut ++ [received id s] } := by
  rw [deliver_received (by rw [h.dec, h.cfg]; exact hl), h.appOut, received, h.dec]
  rfl

/-- Settles O35. -/
theorem hAppAcceptsInOrder : Obligations.HAppAcceptsInOrder := by
  unfold Obligations.HAppAcceptsInOrder
  intro r id s
  refine ⟨fun hseq hl => ?accept, fun hseq => execHApp_mismatch hseq r id⟩
  case accept =>
    have hsent := sendAck_sentOnly { s with tp.lastRxFrame := s.now, tp.rn := s.tp.rn + 1#8 }
    refine ⟨_, sendAck_tried { s with tp.lastRxFrame := s.now, tp.rn := s.tp.rn + 1#8 }, ?_⟩
    rw [exec_hApp, execHApp_accept hseq, deliver_after_sent hsent hl]
    rfl

/-! ### Deliveries -/

theorem execHAck_appOut {s t : State} (h : execHAck s = .next t) : t.io.appOut = s.io.appOut := by
  rcases execHAck_cases s with ⟨-, -, h'⟩ | ⟨-, h'⟩ | ⟨-, -, h'⟩ <;> rw [h] at h' <;> cases h'
  · rw [(resendFrom_sentOnly _ _ _).appOut, fifoPops_frame]
  · rfl
  · rfl

/-- The control bytes of ACK and RESET frames have the transport flag (rule R71). -/
theorem ctrl_ne_of_nontransport {c : Byte} (h : c.getLsbD 7 = false) : c ≠ 0xFF#8 ∧ c ≠ 0xFE#8 :=
  ⟨fun e => absurd (e ▸ h) (by decide), fun e => absurd (e ▸ h) (by decide)⟩

/-- A handler appends nothing to `app_out`, or it appends the frame the decoder holds, under the conditions of rules
R152, R153. -/
theorem execDispatch_appOut {s t : State} (h : execDispatch s = .next t) :
    t.io.appOut = s.io.appOut ∨
    (t.io.appOut = s.io.appOut ++ [received (s.dec.ctrl.extractLsb' 0 6) s] ∧
      s.dec.ctrl ≠ 0xFF#8 ∧ s.dec.ctrl ≠ 0xFE#8 ∧ (s.dec.ctrl.getLsbD 7 = true → s.dec.seq = s.tp.rn)) := by
  rcases execDispatch_cases s with ⟨-, h'⟩ | ⟨-, h'⟩ | ⟨hne, hne', -, h'⟩ | ⟨hT, h'⟩ <;> rw [h] at h'
  · exact .inl (execHAck_appOut h'.symm)
  · cases h'; exact .inl rfl
  · rcases execHApp_cases (controlR s.dec.ctrl) (controlId s.dec.ctrl) s with ⟨hseq, h''⟩ | ⟨-, h''⟩ <;> rw [h''] at h'
    · have hsent := sendAck_sentOnly { s with tp.lastRxFrame := s.now, tp.rn := s.tp.rn + 1#8 }
      obtain ⟨hl, -⟩ := deliver_eq h'.symm
      rw [hsent.dec, hsent.cfg] at hl
      rw [deliver_after_sent hsent hl] at h'
      cases h'
      exact .inr ⟨rfl, hne, hne', fun _ => hseq⟩
    · cases h'; exact .inl rfl
  · obtain ⟨-, rfl⟩ := deliver_eq h'.symm
    have hbit : s.dec.ctrl.getLsbD 7 = false := hT
    obtain ⟨hne, hne'⟩ := ctrl_ne_of_nontransport hbit
    exact .inr ⟨rfl, hne, hne', fun e => absurd (hbit.symm.trans e) Bool.false_ne_true⟩

/-- Settles O25: `execRxbyte_cases` tells a byte that hands no frame over from the end marker that does. -/
theorem deliveryOnlyAtEndMarker : Obligations.DeliveryOnlyAtEndMarker := by
  unfold Obligations.DeliveryOnlyAtEndMarker
  intro b s t h
  rcases execRxbyte_cases h with hfr | ⟨hcnt, hst, hb, hdisp⟩
  · have happ : t.io.appOut = s.io.appOut := by rw [hfr]
    exact ⟨fun _ => ⟨by rw [hfr], by rw [hfr], happ, by rw [hfr], by rw [hfr]⟩, fun hne => absurd happ hne⟩
  · refine ⟨fun hno => absurd ⟨hst, hcnt, hb⟩ hno, fun hne => ?_⟩
    rcases execDispatch_appOut hdisp with happ | ⟨happ, hctrl, hctrl', hseq⟩
    · exact absurd happ hne
    · exact ⟨hst, hcnt, hb, happ, hctrl, hctrl', hseq⟩

/-! ### The sender's side and the receiver's side -/

/-- Of TP only the receiver's number, the time stamps and the mismatch counter may differ. -/
def SenderKept (s t : State) : Prop :=
  t.tp = { s.tp with
    rn := t.tp.rn, lastRxAny := t.tp.lastRxAny, lastRxFrame := t.tp.lastRxFrame, lastAckTx := t.tp.lastAckTx
    seqMismatchDrops := t.tp.seqMismatchDrops }

/-- An ACK writes of TP its own time stamp only: `SentOnly`, which also covers the sends of frames, leaves the slots'
times free. -/
theorem sendAck_tp (s : State) : (sendAck s).tp = { s.tp with lastAckTx := (sendAck s).tp.lastAckTx } := by
  unfold sendAck
  split
  · show ({ (emitFrame ctrlAck s.tp.rn 1#8 [s.tp.rn] s).tp with lastAckTx := _ } : Tp) = _
    rw [(emitFrame_ack s).tp]
  · rfl

theorem execHApp_senderKept {r : Bool} {id : Ident} {s t : State} (h : execHApp r id s = .next t) : SenderKept s t := by
  rcases execHApp_cases r id s with ⟨-, h'⟩ | ⟨-, h'⟩ <;> rw [h] at h'
  · obtain ⟨-, rfl⟩ := deliver_eq h'.symm
    have hack := sendAck_tp { s with tp.lastRxFrame := s.now, tp.rn := s.tp.rn + 1#8 }
    show (sendAck { s with tp.lastRxFrame := s.now, tp.rn := s.tp.rn + 1#8 }).tp = _
    rw [hack]
  · cases h'; rfl

/-- Only the handlers of 0xFF and 0xFE write the sender's side. -/
theorem execDispatch_senderKept {s t : State} (hne : s.dec.ctrl ≠ 0xFF#8) (hne' : s.dec.ctrl ≠ 0xFE#8)
    (h : execDispatch s = .next t) : SenderKept s t := by
  rcases execDispatch_cases s with ⟨hc, -⟩ | ⟨hc, -⟩ | ⟨-, -, -, h'⟩ | ⟨-, h'⟩
  · exact absurd hc hne
  · exact absurd hc hne'
  · exact execHApp_senderKept (h'.symm.trans h)
  · obtain ⟨-, rfl⟩ := deliver_eq (h'.symm.trans h)
    rfl

theorem execHAck_rn {s t : State} (h : execHAck s = .next t) : t.tp.rn = s.tp.rn := by
  rcases execHAck_cases s with ⟨-, -, h'⟩ | ⟨-, h'⟩ | ⟨-, -, h'⟩ <;> rw [h] at h' <;> cases h'
  · rw [(resendFrom_sentOnly _ _ _).rn, fifoPops_frame]
  · rfl
  · rfl

/-- Only `H_APP` and the handler of 0xFE write `rn`. -/
theorem execDispatch_rn {s t : State} (hc : s.dec.ctrl = 0xFF#8 ∨ s.dec.ctrl.getLsbD 7 = false)
    (h : execDispatch s = .next t) : t.tp.rn = s.tp.rn := by
  rcases execDispatch_cases s with ⟨-, h'⟩ | ⟨hFE, -⟩ | ⟨hne, -, hT, -⟩ | ⟨-, h'⟩
  · exact execHAck_rn (h'.symm.trans h)
  · rw [hFE] at hc; exact absurd hc (by decide)
  · rcases hc with hc | hc
    · exact absurd hc hne
    · exact absurd (hc.symm.trans hT) Bool.false_ne_true
  · obtain ⟨-, rfl⟩ := deliver_eq (h'.symm.trans h)
    rfl

/-- Settles O40: a byte that hands no frame over writes of TP the arrival time only; the end marker does what the
selected handler does. -/
theorem directionsApart : Obligations.DirectionsApart := by
  unfold Obligations.DirectionsApart
  intro b s t h
  have hsender : s.dec.ctrl ≠ 0xFF#8 ∧ s.dec.ctrl ≠ 0xFE#8 → SenderKept s t := fun ⟨hne, hne'⟩ => by
    rcases execRxbyte_cases h with hfr | ⟨-, -, -, hdisp⟩
    · rw [hfr]; rfl
    · exact execDispatch_senderKept (s := { s with tp.lastRxAny := s.now, dec.hdrCnt := .zero, dec.state := .sof })
        hne hne' hdisp
  have hrn : s.dec.ctrl = 0xFF#8 ∨ s.dec.ctrl.getLsbD 7 = false → t.tp.rn = s.tp.rn := fun hc => by
    rcases execRxbyte_cases h with hfr | ⟨-, -, -, hdisp⟩
    · rw [hfr]
    · exact execDispatch_rn (s := { s with tp.lastRxAny := s.now, dec.hdrCnt := .zero, dec.state := .sof }) hc hdisp
  refine ⟨fun hc => ?_, hrn⟩
  have htp := hsender hc
  unfold SenderKept at htp
  refine ⟨?_, ?_, ?_, ?_, ?_, ?_, ?_, ?_, ?_⟩ <;> rw [htp]

end Sys2Proof.Machine
end

section
/-! Rules R20, R30, R136, R137: the push, `QUEUE`, the wire forms of the queued frames, and the status words. -/

namespace Sys2Proof.Machine

/-! ### `FIFO_PUSH` -/

theorem exec_fifoPush {len : Byte} {payload : List Byte} (h : payload.length = len.toNat) (id : Ident) (s : State) :
    exec (.fifoPush id len payload) s = .next (fifoPush id payload s) :=
  if_pos h

/-- A push under its calling conditions (rule R137): no count takes a free value. -/
theorem fifoPush_of_room {s : State} {payload : List Byte} (hn : s.tp.nFrames < s.cfg.fifoSlots)
    (hr : s.tp.ringUsed + payload.length ≤ s.cfg.ringSize) (id : Ident) :
    fifoPush id payload s = { s with
      tp.ring := (fifoPush id payload s).tp.ring
      tp.slots := (fifoPush id payload s).tp.slots
      tp.ringTail := ringIndex s.cfg (s.tp.ringTail + payload.length)
      tp.ringUsed := s.tp.ringUsed + payload.length
      tp.fifoTail := fifoIndex s.cfg (s.tp.fifoTail + 1)
      tp.nFrames := s.tp.nFrames + 1 } := by
  rw [← countAdd_used hr, ← countAdd_frames hn]
  rfl

/-- Settles O29: the counts by `fifoPush_of_room`, the slots and the ring by the laws of their stores. -/
theorem fifoPushStores : Obligations.FifoPushStores := by
  unfold Obligations.FifoPushStores
  intro id len payload s hlen hring hslots hn hr
  refine ⟨_, exec_fifoPush hlen id s, fifoPush_of_room hn hr id, ?slot, ?otherSlots, ?bytes, ?otherBytes⟩
  case slot =>
    rw [slotAt_fifoPush hslots, if_pos rfl, pushedSlot, hlen, ofNat_toNat_byte]
  case otherSlots =>
    intro k hk
    rw [slotAt_fifoPush hslots, if_neg hk]
  case bytes =>
    exact fun i hi => ringWrite_read s.cfg hring s.tp.ringTail payload (by omega) hi
  case otherBytes =>
    exact fun a ha => ringWrite_read_other s.cfg s.tp.ringTail payload ha

/-! ### `QUEUE` -/

theorem exec_queue_reject {len : Half} {payload : List Byte} {s : State} (hl : payload.length = len.toNat)
    (h : queueRejects len.toNat s = true) (id : Byte) :
    exec (.queue id len payload) s =
      .next (returnValue 0#32 (drop (.queueReject id len)
        { sampleNow s with tp.droppedFrames := s.tp.droppedFrames + 1#32 })) :=
  (if_pos hl).trans (if_pos h)

theorem exec_queue_accept {len : Half} {payload : List Byte} {s : State} (hl : payload.length = len.toNat)
    (h : ¬queueRejects len.toNat s = true) (id : Byte) :
    exec (.queue id len payload) s = .next (returnValue 1#32 (fifoPush (maskIdent id) payload (sampleNow s))) :=
  (if_pos hl).trans (if_neg h)

/-- Settles O41: an accepted length fits the 8 bits of `FIFO_PUSH`'s operand. -/
theorem queueAcceptsOrRejects : Obligations.QueueAcceptsOrRejects := by
  unfold Obligations.QueueAcceptsOrRejects
  intro id len payload s hl
  rw [← queueRejects_iff]
  refine ⟨fun h => exec_queue_reject hl h id, fun h => ⟨_, exec_fifoPush ?_ _ _, exec_queue_accept hl h id⟩⟩
  have hfits : len.toNat ≤ s.cfg.maxPayload := by
    rw [queueRejects_iff] at h
    omega
  have hmax := s.cfg.maxPayload_le
  rw [hl, BitVec.toNat_setWidth, Nat.mod_eq_of_lt (by omega)]

/-! ### The wire forms of the queued frames -/

/-- The wire form of a slot's frame hangs on the slot's identifier, number, length and offset and on the ring bytes they
name, not on the time it was last sent. -/
theorem slotWire_congr {j k : Nat} {s t : State} (hslot : untimed (slotAt k t) = untimed (slotAt j s))
    (hring : ∀ i, i < (slotAt j s).len.toNat →
      t.tp.ring.read (ringIndex t.cfg ((slotAt j s).off + i)) =
        s.tp.ring.read (ringIndex s.cfg ((slotAt j s).off + i))) :
    slotWire k t = slotWire j s := by
  rw [slotWire, slotWire, untimed_id hslot, untimed_seq hslot, untimed_len hslot, untimed_off hslot]
  congr 1
  exact List.map_congr_left fun i hi => hring i (List.mem_range.1 hi)

/-- A push leaves the wire form of every queued frame alone (rules R20, R137). -/
theorem slotWire_fifoPush_queued {s : State} (hf : FifoInv s) (hs : s.tp.slots.wf = true)
    (hn : s.tp.nFrames < s.cfg.fifoSlots) (id : Ident) (payload : List Byte)
    (hr : s.tp.ringUsed + payload.length ≤ s.cfg.ringSize) {j : Nat} (hj : j < s.tp.nFrames) :
    slotWire (queuedIndex s j) (fifoPush id payload s) = slotWire (queuedIndex s j) s := by
  refine slotWire_congr ?_ fun i hi => ring_fifoPush_queued hf id payload hr hj hi
  have hq := queuedSlot_fifoPush hs hf hn id payload (Nat.le_of_lt hj)
  rw [if_neg (Nat.ne_of_lt hj)] at hq
  exact congrArg untimed hq

/-- The frame pushed has the wire form of its payload. -/
theorem slotWire_fifoPush_new {s : State} (hf : FifoInv s) (hm : MemInv s) (hn : s.tp.nFrames < s.cfg.fifoSlots)
    (id : Ident) {payload : List Byte} (hr : s.tp.ringUsed + payload.length ≤ s.cfg.ringSize)
    (hp : payload.length < 256) :
    queuedSlot (fifoPush id payload s) s.tp.nFrames = pushedSlot id payload s ∧
      slotWire (queuedIndex s s.tp.nFrames) (fifoPush id payload s) =
        wire (frameControl id) (pushedSlot id payload s).seq payload := by
  have hq := queuedSlot_fifoPush hm.slotsWf hf hn id payload (Nat.le_refl _)
  rw [if_pos rfl] at hq
  refine ⟨hq, ?_⟩
  have hslot : slotAt (queuedIndex s s.tp.nFrames) (fifoPush id payload s) = pushedSlot id payload s := hq
  have hlen : (pushedSlot id payload s).len.toNat = payload.length := by
    rw [pushedSlot, BitVec.toNat_ofNat, Nat.mod_eq_of_lt hp]
  have hbytes : (List.range payload.length).map (fun i =>
      (fifoPush id payload s).tp.ring.read (ringIndex s.cfg (s.tp.ringTail + i))) = payload := by
    refine List.ext_getElem (by simp) fun i hi _ => ?_
    have hi' : i < payload.length := by simpa using hi
    rw [List.getElem_map, List.getElem_range]
    exact ringWrite_read s.cfg hm.ringWf s.tp.ringTail payload (by omega) hi'
  rw [slotWire, hslot, hlen]
  exact congrArg (wire (frameControl id) _) hbytes

/-- Settles O42. -/
theorem queueKeepsQueued : Obligations.QueueKeepsQueued := by
  unfold Obligations.QueueKeepsQueued
  intro id len payload s hf hm hl
  by_cases h : queueRejects len.toNat s = true
  · exact ⟨_, exec_queue_reject hl h id, fun j _ => ⟨rfl, rfl⟩, fun hret => absurd hret (by simp)⟩
  · have hroom := h
    rw [queueRejects_iff, ← hl] at hroom
    have hn : s.tp.nFrames < s.cfg.fifoSlots := Nat.lt_of_le_of_ne hf.framesFit fun e => hroom (.inr (.inl e))
    have hused := hf.usedFits
    have hr : s.tp.ringUsed + payload.length ≤ s.cfg.ringSize := by omega
    have hmax := s.cfg.maxPayload_le
    have hs : s.tp.slots.wf = true := hm.slotsWf
    have hf' : FifoInv (sampleNow s) := hf.of_same ⟨rfl, rfl, rfl, rfl, rfl, rfl, fun _ _ => rfl, fun _ _ => rfl⟩
    have hm' : MemInv (sampleNow s) :=
      ⟨hm.bufWf, hm.bufInside, hm.ringWf, hm.ringInside, hm.slotsWf, hm.slotsInside⟩
    obtain ⟨hslot, hwire⟩ := slotWire_fifoPush_new hf' hm' hn (maskIdent id) hr (by omega)
    refine ⟨_, exec_queue_accept hl h id, fun j hj => ⟨rfl, slotWire_fifoPush_queued hf' hs hn _ _ hr hj⟩, fun _ => ?_⟩
    refine ⟨countAdd_frames hn, congrArg Slot.id hslot, hwire.trans ?_⟩
    exact congrArg (fun q => wire _ q payload) (congrArg Slot.seq hslot).symm

/-! ### `STATUS` -/

/-- Word 4 packs the three sequence numbers (rule R30). -/
theorem toNat_statusWord_seqs (s : State) :
    (statusWord 4#8 s).toNat = s.tp.snMin.toNat + 2 ^ 8 * s.tp.snMax.toNat + 2 ^ 16 * s.tp.rn.toNat := by
  show (0#8 ++ s.tp.rn ++ s.tp.snMax ++ s.tp.snMin : BitVec 32).toNat = _
  rw [toNat_append_eq_add, toNat_append_eq_add, toNat_append_eq_add, BitVec.toNat_ofNat]
  omega

/-- Word 7 packs the link flags and the parse state (rule R30). -/
theorem toNat_statusWord_flags (s : State) :
    (statusWord 7#8 s).toNat =
      s.tp.remoteConnected.toNat + 2 * s.tp.remoteActive.toNat + 2 ^ 4 * s.dec.state.code.toNat := by
  show (0#24 ++ s.dec.state.code ++ 0#2 ++ BitVec.ofBool s.tp.remoteActive ++ BitVec.ofBool s.tp.remoteConnected :
    BitVec 32).toNat = _
  rw [toNat_append_eq_add, toNat_append_eq_add, toNat_append_eq_add, toNat_append_eq_add, BitVec.toNat_ofNat,
    BitVec.toNat_ofNat, BitVec.toNat_ofBool, BitVec.toNat_ofBool]
  omega

theorem toNat_statusWord_frames {s : State} (h : s.tp.nFrames ≤ s.cfg.fifoSlots) :
    (statusWord 5#8 s).toNat = s.tp.nFrames := by
  show (BitVec.ofNat 32 s.tp.nFrames).toNat = _
  have hcap : s.cfg.fifoSlots ≤ 2 ^ 8 := Nat.pow_le_pow_right (by decide) s.cfg.fifoBits_le
  rw [BitVec.toNat_ofNat, Nat.mod_eq_of_lt (by omega)]

theorem toNat_statusWord_used {s : State} (h : s.tp.ringUsed ≤ s.cfg.ringSize) :
    (statusWord 6#8 s).toNat = s.tp.ringUsed := by
  show (BitVec.ofNat 32 s.tp.ringUsed).toNat = _
  have hcap : s.cfg.ringSize ≤ 2 ^ 16 := Nat.pow_le_pow_right (by decide) s.cfg.ringBits_le
  rw [BitVec.toNat_ofNat, Nat.mod_eq_of_lt (by omega)]

/-- From index 8 on there is no word (rule R30). -/
theorem statusWord_of_ge {idx : Byte} (h : 8 ≤ idx.toNat) (s : State) : statusWord idx s = 0#32 := by
  have hne : ∀ k : Byte, k.toNat < 8 → idx ≠ k := fun k hk e => by rw [e] at h; omega
  simp only [statusWord, if_neg (hne 0#8 (by decide)), if_neg (hne 1#8 (by decide)), if_neg (hne 2#8 (by decide)),
    if_neg (hne 3#8 (by decide)), if_neg (hne 4#8 (by decide)), if_neg (hne 5#8 (by decide)),
    if_neg (hne 6#8 (by decide)), if_neg (hne 7#8 (by decide))]

/-- Settles O44, index by index. -/
theorem statusWords : Obligations.StatusWords := by
  unfold Obligations.StatusWords
  refine fun idx s => ⟨statusWord idx s, rfl, ?_, ?_, ?_, ?_, ?_, ?_, ?_, ?_, fun h => statusWord_of_ge h s⟩
  · rintro rfl; rfl
  · rintro rfl; rfl
  · rintro rfl; rfl
  · rintro rfl; rfl
  · rintro rfl; exact toNat_statusWord_seqs s
  · rintro rfl; exact toNat_statusWord_frames
  · rintro rfl; exact toNat_statusWord_used
  · rintro rfl; exact toNat_statusWord_flags s

end Sys2Proof.Machine
end

section
/-! Rules R154 to R156: the three cases of a received ACK, and the bytes an accepted one puts on the wire. -/

namespace Sys2Proof.Machine

/-! ### The three cases -/

/-- The state an accepted ACK resends from: the frames acknowledged are released (rules R138, R155). -/
def afterAck (s : State) : State := fifoPops (acked s).toNat { s with tp.snMin := s.dec.seq }

theorem execHAck_accept {s : State} (h : (acked s).toNat ≤ (win s).toNat) (hn : 0 < s.tp.nFrames) :
    execHAck s = .next (resendFrom (min (nacked s).toNat ((win s).toNat - (acked s).toNat)) 0 (afterAck s)) :=
  if_pos ⟨h, hn⟩

theorem execHAck_spurious {s : State} (h : (win s).toNat < (acked s).toNat) :
    execHAck s =
      .next (drop (.spuriousAck s.dec.seq) { s with tp.spuriousAcks := s.tp.spuriousAcks + 1#32 }) :=
  (if_neg fun hc => Nat.not_le_of_gt h hc.1).trans (if_pos h)

theorem execHAck_nothing {s : State} (h : (acked s).toNat ≤ (win s).toNat) (hn : s.tp.nFrames = 0) :
    execHAck s = .next s :=
  (if_neg fun hc => Nat.ne_of_gt hc.2 hn).trans (if_neg (Nat.not_lt_of_ge h))

/-- The releases, as one update (rule R155): the frames acknowledged are all queued, so no count wraps. -/
theorem afterAck_eq {s : State} (hf : FifoInv s) (h : (acked s).toNat ≤ s.tp.nFrames) :
    afterAck s = { s with
      tp.snMin := s.dec.seq
      tp.ringUsed := s.tp.ringUsed - lensFrom s 0 (acked s).toNat
      tp.fifoHead := fifoIndex s.cfg (s.tp.fifoHead + (acked s).toNat)
      tp.nFrames := s.tp.nFrames - (acked s).toNat } := by
  have hf' : FifoInv { s with tp.snMin := s.dec.seq } :=
    hf.of_same ⟨rfl, rfl, rfl, rfl, rfl, rfl, fun _ _ => rfl, fun _ _ => rfl⟩
  have hlens : lensFrom { s with tp.snMin := s.dec.seq } 0 (acked s).toNat = lensFrom s 0 (acked s).toNat :=
    lensFrom_congr fun _ _ => rfl
  rw [afterAck, fifoPops_eq hf' h, hlens]

theorem afterAck_slotsWf {s : State} (h : s.tp.slots.wf = true) : (afterAck s).tp.slots.wf = true := by
  rw [afterAck, fifoPops_frame]; exact h

/-- Settles O37. -/
theorem hAckThreeCases : Obligations.HAckThreeCases := by
  unfold Obligations.HAckThreeCases
  rintro s _ _ hf hw hslots rfl rfl
  refine ⟨fun hle hn => ⟨_, execHAck_accept hle hn, ?_⟩, execHAck_spurious, execHAck_nothing⟩
  have hres := resendFrom_resends (afterAck_slotsWf hslots)
    (min (nacked s).toNat ((win s).toNat - (acked s).toNat)) 0
  have heq := afterAck_eq hf (Nat.le_trans hle hw.windowQueued)
  rw [heq] at hres ⊢
  exact hres

/-! ### Resends with an unbounded host buffer -/

/-- Under `H0` every resend finds its space (rule R191). -/
theorem resendSlot_h0 {s : State} (h : s.cfg.hostTx = .h0) (k : Nat) : resendSlot k s = sendFrame k s := by
  refine if_pos ((spaceFor_iff _ s).2 ?_)
  have := (slotAt k s).len.isLt
  rw [txSpace_h0 h]
  omega

theorem sendFrame_txOut (k : Nat) (s : State) : (sendFrame k s).io.txOut = s.io.txOut ++ slotWire k s :=
  (emitFrame_slot k s).txOut

/-- A send changes the wire form of no slot. -/
theorem SentOnly.slotWire {s t : State} (h : SentOnly s t) (hs : s.tp.slots.wf = true) (k : Nat) :
    slotWire k t = Machine.slotWire k s :=
  slotWire_congr (h.slots hs k) fun i _ => by rw [h.ring, h.cfg]

/-- The bytes of several resends, in window order. -/
theorem resendFrom_txOut {s : State} (h : s.cfg.hostTx = .h0) (hs : s.tp.slots.wf = true) (n j : Nat) :
    (resendFrom n j s).io.txOut =
      s.io.txOut ++ ((List.range n).map fun i => slotWire (queuedIndex s (j + i)) s).flatten := by
  induction n generalizing s j with
  | zero => exact (List.append_nil _).symm
  | succ n ih =>
    have hsent := sendFrame_sentOnly (queuedIndex s j) s
    have hstep : resendFrom (n + 1) j s = resendFrom n (j + 1) (sendFrame (queuedIndex s j) s) := by
      rw [← resendSlot_h0 h]; rfl
    have htail : (List.range n).map (fun i => slotWire (queuedIndex s (j + (i + 1))) s) =
        (List.range n).map fun i =>
          slotWire (queuedIndex (sendFrame (queuedIndex s j) s) (j + 1 + i)) (sendFrame (queuedIndex s j) s) :=
      List.map_congr_left fun i _ => by
        rw [hsent.queuedIndex, hsent.slotWire hs, show j + 1 + i = j + (i + 1) by omega]
    rw [hstep, ih (by rw [hsent.cfg]; exact h) (hsent.slotsWf hs), sendFrame_txOut, ← htail,
      List.range_succ_eq_map, List.map_cons, List.map_map, List.flatten_cons, List.append_assoc]
    rfl

/-- A slot's time of sending after `SEND_FRAME(k)` (rule R145). -/
theorem sendFrame_lastSent {s : State} (hs : s.tp.slots.wf = true) (k i : Nat) :
    (slotAt i (sendFrame k s)).lastSent = if i = k then s.now else (slotAt i s).lastSent := by
  obtain ⟨u, hemit, -, hk, hother⟩ := sendFrame_sent hs k
  by_cases h : i = k
  · rw [if_pos h, h, hk]
  · rw [if_neg h, hother i h, slotAt, hemit.tp]; rfl

/-- Every slot resent, and every slot that had the present time before, has it after the resends. -/
theorem resendFrom_lastSent {s : State} (h : s.cfg.hostTx = .h0) (hs : s.tp.slots.wf = true) {n j k : Nat}
    (hk : (slotAt k s).lastSent = s.now ∨ ∃ i, i < n ∧ k = queuedIndex s (j + i)) :
    (slotAt k (resendFrom n j s)).lastSent = s.now := by
  induction n generalizing s j with
  | zero =>
    rcases hk with hk | ⟨i, hi, -⟩
    · exact hk
    · exact absurd hi (Nat.not_lt_zero i)
  | succ n ih =>
    have hsent := sendFrame_sentOnly (queuedIndex s j) s
    have hstep : resendFrom (n + 1) j s = resendFrom n (j + 1) (sendFrame (queuedIndex s j) s) := by
      rw [← resendSlot_h0 h]; rfl
    rw [hstep, ← hsent.now]
    refine ih (by rw [hsent.cfg]; exact h) (hsent.slotsWf hs) ?_
    rw [sendFrame_lastSent hs, hsent.now]
    by_cases hkj : k = queuedIndex s j
    · exact .inl (if_pos hkj)
    · rw [if_neg hkj]
      rcases hk with hk | ⟨i, hi, hki⟩
      · exact .inl hk
      · cases i with
        | zero => exact absurd hki hkj
        | succ i => exact .inr ⟨i, by omega, by rw [hsent.queuedIndex, hki]; congr 1; omega⟩

/-! ### The bytes of an accepted ACK -/

/-- The frame at distance `j` after the releases is the one that stood `acked` further back. -/
theorem queuedSlot_afterAck (s : State) (j : Nat) : queuedSlot (afterAck s) j = queuedSlot s (j + (acked s).toNat) :=
  queuedSlot_fifoPops _ _

theorem slotWire_afterAck (s : State) (j : Nat) :
    slotWire (queuedIndex (afterAck s) j) (afterAck s) = slotWire (queuedIndex s ((acked s).toNat + j)) s := by
  have hslot : slotAt (queuedIndex (afterAck s) j) (afterAck s) = slotAt (queuedIndex s ((acked s).toNat + j)) s := by
    rw [Nat.add_comm]; exact queuedSlot_afterAck s j
  have hring : (afterAck s).tp.ring = s.tp.ring ∧ (afterAck s).cfg = s.cfg := by
    rw [afterAck, fifoPops_frame]; exact ⟨rfl, rfl⟩
  exact slotWire_congr (congrArg untimed hslot) fun i _ => by rw [hring.1, hring.2]

theorem nacked_toNat (s : State) :
    (nacked s).toNat = if 1 ≤ s.dec.len.toNat then (s.dec.buf.read 0 - s.dec.seq).toNat else 0 := by
  unfold nacked
  split <;> rfl

/-- Settles O38. -/
theorem hAckResentBytes : Obligations.HAckResentBytes := by
  unfold Obligations.HAckResentBytes
  rintro s _ _ - hw hslots hh0 rfl rfl
  rw [← nacked_toNat, show s.dec.seq - s.tp.snMin = acked s from rfl]
  intro hle hn
  have hwf := afterAck_slotsWf hslots
  have hframe : (afterAck s).cfg = s.cfg ∧ (afterAck s).io = s.io ∧ (afterAck s).now = s.now := by
    rw [afterAck, fifoPops_frame]; exact ⟨rfl, rfl, rfl⟩
  obtain ⟨hcfg, hio, hnow⟩ := hframe
  have hh0' : (afterAck s).cfg.hostTx = .h0 := by rw [hcfg]; exact hh0
  refine ⟨_, execHAck_accept hle hn, ?bytes, fun hall j hj hjw => ?slots⟩
  case bytes =>
    rw [resendFrom_txOut hh0' hwf, hio]
    congr 2
    exact List.map_congr_left fun i _ => by rw [Nat.zero_add]; exact slotWire_afterAck s i
  case slots =>
    rw [Nat.min_eq_right hall]
    have hsent := resendFrom_sentOnly ((win s).toNat - (acked s).toNat) 0 (afterAck s)
    refine ⟨?time, ?number⟩
    case time =>
      rw [← hnow, queuedSlot, hsent.queuedIndex]
      exact resendFrom_lastSent hh0' hwf (.inr ⟨j - (acked s).toNat, by omega, by rw [Nat.zero_add]⟩)
    case number =>
      rw [untimed_seq (hsent.queuedSlot hwf _), queuedSlot_afterAck,
        Nat.sub_add_cancel hj]
      exact hw.seqInOrder j hjw

end Sys2Proof.Machine
end

section
/-! Rules R26, R139 to R144: the link flags after `POLL`, and which of its steps 3, 4 and 5 do what. -/

namespace Sys2Proof.Machine

/-! ### The link flags -/

/-- Steps 3 to 5 leave the flags that step 2 has computed, and the time stamps they were computed from. -/
theorem pollTimers_link (s : State) :
    (pollTimers s).tp.lastRxAny = s.tp.lastRxAny ∧ (pollTimers s).tp.lastRxFrame = s.tp.lastRxFrame ∧
    (pollTimers s).tp.remoteConnected = decide (elapsed s s.tp.lastRxAny < s.cfg.idleMs.toNat) ∧
    (pollTimers s).tp.remoteActive = decide (elapsed s s.tp.lastRxFrame < s.cfg.idleMs.toNat) := by
  have hack := pollAck_sentOnly (pollSend (linkFlags s))
  have hsend := pollSend_tp (linkFlags s)
  refine ⟨hack.lastRxAny.trans ?_, hack.lastRxFrame.trans ?_, hack.remoteConnected.trans ?_,
    hack.remoteActive.trans ?_⟩ <;> rw [hsend] <;> rfl

/-- Settles O45. -/
theorem pollLinkFlags : Obligations.PollLinkFlags := by
  unfold Obligations.PollLinkFlags
  intro bytes s hd
  obtain ⟨u, hu, hkeeps, -⟩ := exec_poll_decInv bytes hd
  have hnow : u.now = s.io.timeMs := hkeeps.now
  have hcfg : u.cfg = s.cfg := hkeeps.cfg
  obtain ⟨hany, hframe, hconnected, hactive⟩ := pollTimers_link u
  refine ⟨_, hu, (pollTimers_keeps u).now.trans hnow, ?_, ?_⟩
  · rw [hconnected, hany, elapsed, hnow, hcfg]
  · rw [hactive, hframe, elapsed, hnow, hcfg]

/-! ### Steps 3 and 4 -/

/-- `POLL` of nothing is its timers at the sampled clock (rule R139). -/
theorem exec_poll_nil (s : State) : exec (.poll []) s = .next (pollAck (pollSend (linkFlags (sampleNow s)))) := rfl

theorem pollSend_new {s : State} (hd : newFrameDue s = true)
    (hs : (queuedSlot s (win s).toNat).len.toNat + 11 ≤ txSpace s) : pollSend s = sendNew s :=
  (if_pos hd).trans (if_pos ((spaceFor_iff _ s).2 hs))

/-- When step 3 sends nothing, step 4 follows, on a state that may have one more event in the trace. -/
theorem pollSend_noNew {s : State}
    (h : ¬((win s).toNat < s.cfg.maxWindow ∧ (win s).toNat < s.tp.nFrames ∧
      (queuedSlot s (win s).toNat).len.toNat + 11 ≤ txSpace s)) :
    ∃ trace, pollSend s = pollResend { s with io.trace := trace } ∧
      (¬((win s).toNat < s.cfg.maxWindow ∧ (win s).toNat < s.tp.nFrames) → trace = s.io.trace) := by
  by_cases hd : newFrameDue s = true
  · obtain ⟨hw, hn⟩ := (newFrameDue_iff s).1 hd
    have hs : ¬spaceFor (slotAt (nextSlot s) s).len.toNat s = true := fun hs =>
      h ⟨hw, hn, (spaceFor_iff _ s).1 hs⟩
    exact ⟨_, (if_pos hd).trans (if_neg hs), fun hno => absurd ⟨hw, hn⟩ hno⟩
  · exact ⟨s.io.trace, if_neg hd, fun _ => rfl⟩

/-- The frame that has waited longest, the nearest to the head among equals, is the one `OLDEST()` answers (rule
R143). -/
theorem oldest_eq {s : State} {j : Nat} (hf : s.tp.fifoHead < s.cfg.fifoSlots) (hj : j < (win s).toNat)
    (hmax : ∀ i, i < (win s).toNat → slotAge (queuedIndex s i) s ≤ slotAge (queuedIndex s j) s)
    (hfirst : ∀ i, i < j → slotAge (queuedIndex s i) s < slotAge (queuedIndex s j) s) :
    oldest s = queuedIndex s j := by
  obtain ⟨d, hd, he, hdmax, hdfirst⟩ := oldest_spec hf (Nat.zero_lt_of_lt hj)
  rw [he, oldest_unique hd hj hdmax hdfirst hmax hfirst]

theorem pollResend_due {s : State} {k : Nat} (hk : oldest s = k) (hw : 0 < (win s).toNat)
    (hc : s.tp.remoteConnected = true) (hage : s.cfg.frameRetxMs.toNat < slotAge k s) :
    pollResend s = resendSlot k s := by
  subst hk
  exact if_pos ⟨hw, hc, hage⟩

/-- Without a frame in flight that is old enough, or with the remote not connected, step 4 does nothing (rule R142). -/
theorem pollResend_notDue {s : State} (hf : s.tp.fifoHead < s.cfg.fifoSlots)
    (h : s.tp.remoteConnected = true → ∀ i, i < (win s).toNat →
      slotAge (queuedIndex s i) s ≤ s.cfg.frameRetxMs.toNat) : pollResend s = s := by
  refine if_neg fun ⟨hw, hc, hage⟩ => ?_
  obtain ⟨d, hd, he, -⟩ := oldest_spec hf hw
  rw [he] at hage
  exact Nat.not_le_of_gt hage (h hc d hd)

/-! ### The obligations -/

/-- Settles O46: after step 2 the state is the statement's `s'`, by evaluation. -/
theorem pollSendsNewFrame : Obligations.PollSendsNewFrame := by
  unfold Obligations.PollSendsNewFrame
  rintro s _ hslots rfl hw hn hspace
  refine ⟨_, _, sendNew_sent (s := linkFlags (sampleNow s)) hslots, pollAck_periodic _, ?_⟩
  have hsend : pollSend (linkFlags (sampleNow s)) = sendNew (linkFlags (sampleNow s)) :=
    pollSend_new ((newFrameDue_iff _).2 ⟨hw, hn⟩) hspace
  rw [exec_poll_nil, hsend]

/-- Settles O47. -/
theorem pollResendsOldest : Obligations.PollResendsOldest := by
  unfold Obligations.PollResendsOldest
  rintro s _ j hslots hf rfl hno hconnected hj hmax hfirst hage
  obtain ⟨trace, hsend, -⟩ := pollSend_noNew (s := linkFlags (sampleNow s)) hno
  have hold : oldest { linkFlags (sampleNow s) with io.trace := trace } = queuedIndex s j :=
    oldest_eq (s := { linkFlags (sampleNow s) with io.trace := trace }) hf hj hmax hfirst
  have hres := pollResend_due hold (Nat.zero_lt_of_lt hj) (decide_eq_true hconnected) hage
  refine ⟨trace, _, _,
    resendSlot_tried (s := { linkFlags (sampleNow s) with io.trace := trace }) hslots (queuedIndex s j),
    pollAck_periodic _, ?_⟩
  rw [exec_poll_nil, hsend, hres]

/-- Settles O48. -/
theorem pollPeriodicAckOnly : Obligations.PollPeriodicAckOnly := by
  unfold Obligations.PollPeriodicAckOnly
  rintro s _ hf rfl hno hage
  obtain ⟨trace, hsend, htrace⟩ := pollSend_noNew (s := linkFlags (sampleNow s)) hno
  have hres : pollResend { linkFlags (sampleNow s) with io.trace := trace } =
      { linkFlags (sampleNow s) with io.trace := trace } :=
    pollResend_notDue (s := { linkFlags (sampleNow s) with io.trace := trace }) hf fun hc => hage (of_decide_eq_true hc)
  refine ⟨trace, _, pollAck_periodic { linkFlags (sampleNow s) with io.trace := trace }, ?_, htrace⟩
  rw [exec_poll_nil, hsend, hres]

end Sys2Proof.Machine
end

section
/-! Rule R27: what every operation does to the four diagnostic counters. -/

namespace Sys2Proof.Machine

/-! ### The handlers -/

theorem execHAck_counters {s t : State} (h : execHAck s = .next t) : counters t = countersAfterAck s := by
  rcases execHAck_cases s with ⟨hle, -, h'⟩ | ⟨hlt, h'⟩ | ⟨hle, -, h'⟩ <;> rw [h] at h' <;> cases h'
  · rw [(resendFrom_sentOnly _ _ _).counters, counters_fifoPops]
    exact (if_neg (Nat.not_lt_of_ge hle)).symm
  · exact (if_pos hlt).symm
  · exact (if_neg (Nat.not_lt_of_ge hle)).symm

theorem execHReset_counters {s t : State} (h : execHReset s = .next t) : counters t = countersAfterReset s := by
  cases h; rfl

theorem execHApp_counters {r : Bool} {id : Ident} {s t : State} (h : execHApp r id s = .next t) :
    counters t = countersAfterApp s := by
  by_cases hseq : s.dec.seq = s.tp.rn
  · rw [execHApp_accept hseq] at h
    rw [deliver_counters h, (sendAck_sentOnly _).counters]
    exact (if_pos hseq).symm
  · rw [execHApp_mismatch hseq] at h
    cases h
    exact (if_neg hseq).symm

/-- `DISPATCH` does what the handler it selects does (rule R124). -/
theorem execDispatch_counters {s t : State} (h : execDispatch s = .next t) : counters t = countersAfterHandler s := by
  unfold countersAfterHandler
  rcases execDispatch_cases s with ⟨hc, h'⟩ | ⟨hc, h'⟩ | ⟨hne, hne', hT, h'⟩ | ⟨hT, h'⟩ <;> rw [h'] at h
  · rw [if_pos hc]; exact execHAck_counters h
  · rw [hc, if_neg (by decide), if_pos rfl]; exact execHReset_counters h
  · rw [if_neg hne, if_neg hne', if_pos (by exact hT)]; exact execHApp_counters h
  · have hbit : s.dec.ctrl.getLsbD 7 = false := hT
    obtain ⟨hne, hne'⟩ := ctrl_ne_of_nontransport hbit
    rw [if_neg hne, if_neg hne', if_neg (by rw [hbit]; decide)]
    exact deliver_counters h

/-! ### Received bytes -/

theorem execRxEof_counters {b : Byte} {s t : State} (h : execRxEof b s = .next t) :
    counters t = if b = 0x55#8 then countersAfterHandler s else counters s := by
  by_cases hb : b = 0x55#8
  · subst hb
    rw [if_pos rfl]
    exact execDispatch_counters (s := goto .sof s) h
  · rw [if_neg hb]
    have := (exec_rxEof_other hb s).symm.trans h
    cases this
    rfl

/-- Only a byte that ends a frame runs a handler (rules R110, R122). -/
theorem execRxbyte_counters {b : Byte} {s t : State} (h : execRxbyte b s = .next t) :
    counters t = if FrameEnds b s then countersAfterHandler s else counters s := by
  by_cases he : FrameEnds b s
  · obtain ⟨hcnt, hst, rfl⟩ := he
    rw [if_pos ⟨hcnt, hst, rfl⟩]
    have hdisp := (exec_rxbyte_endMarker hst hcnt).symm.trans h
    exact execDispatch_counters (s := goto .sof (setHdr .zero (noteArrival s))) hdisp
  · rw [if_neg he]
    rcases execRxbyte_cases h with hfr | ⟨hcnt, hst, hb, -⟩
    · rw [hfr]; rfl
    · exact absurd ⟨hcnt, hst, hb⟩ he

/-! ### The other operations -/

theorem DecOnly.counters {s t : State} (h : DecOnly s t) : counters t = Machine.counters s := by
  rw [h.frame]; rfl

@[simp] theorem counters_crcSet (acc : CrcCtx) (v : Word) (s : State) : counters (crcSet acc v s) = counters s := by
  cases acc <;> rfl

theorem execQueue_counters {id : Byte} {len : Half} {payload : List Byte} {s t : State}
    (h : execQueue id len payload s = .next t) :
    counters t =
      if s.cfg.maxPayload < len.toNat ∨ s.tp.nFrames = s.cfg.fifoSlots ∨ s.cfg.ringSize - s.tp.ringUsed < len.toNat then
        { counters s with dropped := s.tp.droppedFrames + 1#32 }
      else counters s := by
  obtain ⟨-, ⟨hr, rfl⟩ | ⟨hr, rfl⟩⟩ := execQueue_cases h
  · rw [if_pos ((queueRejects_iff _ s).1 hr)]; rfl
  · rw [if_neg fun hc => absurd (hr.symm.trans ((queueRejects_iff _ s).2 hc)) Bool.false_ne_true]; rfl

theorem counters_execTreset (inform : Bool) (s : State) :
    counters (tpClear (if inform then sendReset (sampleNow s) else sampleNow s)) = counters s := by
  rw [counters_tpClear]
  cases inform with
  | false => rfl
  | true => exact (sendReset_sentOnly (sampleNow s)).counters

theorem execFifoPush_counters {id : Ident} {len : Byte} {payload : List Byte} {s t : State}
    (h : execFifoPush id len payload s = .next t) : counters t = counters s := by
  unfold execFifoPush at h
  split at h <;> cases h
  exact counters_fifoPush id payload s

/-- Settles O49, operation by operation. -/
theorem countersChangedOnlyBy : Obligations.CountersChangedOnlyBy := by
  unfold Obligations.CountersChangedOnlyBy
  intro i s t h
  cases i with
  | hwreset => cases h; rfl
  | queue => exact execQueue_counters h
  | hAck => exact execHAck_counters h
  | hReset => exact execHReset_counters h
  | hApp r id => exact execHApp_counters (r := r) (id := id) h
  | hNontp => exact deliver_counters h
  | dispatch => exact execDispatch_counters h
  | rxEof => exact execRxEof_counters h
  | rxbyte => exact execRxbyte_counters h
  | feed => exact execRxbyte_counters (s := sampleNow s) h
  | poll bytes =>
    obtain ⟨u, hu, rfl⟩ := execPoll_next h
    exact ⟨u, rxList_iff_fed.1 hu, counters_pollTimers u⟩
  | treset inform => cases h; exact counters_execTreset inform s
  | status | crcFinal | fifoPop | tpClear => cases h; rfl
  | crcInit | crcStep => cases h; exact counters_crcSet _ _ s
  | fifoPush => exact execFifoPush_counters h
  | encRaw | encPut | encEmit | sendFrame | sendAck | sendReset => exact (exec_sentOnly rfl h).counters
  | rxResync | rxDestuff | rxViolation | rxSof | rxCtrl | rxSeq | rxLen | rxPay | rxC3 | rxC2 | rxC1 | rxC0 =>
    exact (exec_decOnly rfl h).counters

end Sys2Proof.Machine
end

section
/-! Rules R54, R178: on what each operation stops, and that on everything else it completes. -/

namespace Sys2Proof.Machine

/-! ### Deliveries and the handlers -/

theorem deliver_stopsIf (id : Ident) (s : State) :
    StopsIf (s.cfg.maxPayload < s.dec.len.toNat) (.rxbufIndex s.cfg.maxPayload) (deliver id s) :=
  ⟨fun h => if_neg (Nat.not_le_of_gt h), fun h => ⟨_, deliver_next (Nat.le_of_not_lt h)⟩⟩

theorem execHAck_next (s : State) : ∃ t, execHAck s = .next t := by
  rcases execHAck_cases s with ⟨-, -, h⟩ | ⟨-, h⟩ | ⟨-, -, h⟩ <;> exact ⟨_, h⟩

/-- `H_APP` stops where its delivery does, and delivers only the number it expects (rule R152). -/
theorem execHApp_stopsIf (r : Bool) (id : Ident) (s : State) :
    StopsIf (s.cfg.maxPayload < s.dec.len.toNat ∧ s.dec.seq = s.tp.rn) (.rxbufIndex s.cfg.maxPayload)
      (execHApp r id s) := by
  by_cases hseq : s.dec.seq = s.tp.rn
  · have hsent := sendAck_sentOnly { s with tp.lastRxFrame := s.now, tp.rn := s.tp.rn + 1#8 }
    obtain ⟨hfault, hnext⟩ :=
      deliver_stopsIf id (sendAck { s with tp.lastRxFrame := s.now, tp.rn := s.tp.rn + 1#8 })
    rw [hsent.dec, hsent.cfg] at hfault hnext
    rw [execHApp_accept hseq]
    exact ⟨fun h => hfault h.1, fun h => hnext fun hl => h ⟨hl, hseq⟩⟩
  · rw [execHApp_mismatch hseq]
    exact ⟨fun h => absurd h.2 hseq, fun _ => ⟨_, rfl⟩⟩

/-- `DISPATCH` stops where the handler it selects does (rule R124). -/
theorem execDispatch_stopsIf (s : State) :
    StopsIf (LongDelivery s) (.rxbufIndex s.cfg.maxPayload) (execDispatch s) := by
  rcases execDispatch_cases s with ⟨hc, h⟩ | ⟨hc, h⟩ | ⟨hne, hne', hT, h⟩ | ⟨hT, h⟩ <;> rw [h]
  · exact ⟨fun hl => absurd hc (hl.2 (by rw [hc]; decide)).1, fun _ => execHAck_next s⟩
  · exact ⟨fun hl => absurd hc (hl.2 (by rw [hc]; decide)).2.1, fun _ => ⟨_, rfl⟩⟩
  · obtain ⟨hfault, hnext⟩ := execHApp_stopsIf (controlR s.dec.ctrl) (controlId s.dec.ctrl) s
    exact ⟨fun hl => hfault ⟨hl.1, (hl.2 hT).2.2⟩, fun hl => hnext fun hc => hl ⟨hc.1, fun _ => ⟨hne, hne', hc.2⟩⟩⟩
  · have hbit : s.dec.ctrl.getLsbD 7 ≠ true := fun e => Bool.false_ne_true (hT.symm.trans e)
    obtain ⟨hfault, hnext⟩ := deliver_stopsIf (controlId s.dec.ctrl) s
    exact ⟨fun hl => hfault hl.1, fun hl => hnext fun hc => hl ⟨hc, fun e => absurd e hbit⟩⟩

/-! ### The rows and `RXBYTE` -/

theorem exec_rxPay_stopsIf (b : Byte) (s : State) :
    StopsIf (s.cfg.maxPayload ≤ s.dec.cnt.toNat) (.rxbufIndex s.dec.cnt.toNat) (exec (.rxPay b) s) :=
  ⟨fun h => if_neg (Nat.not_lt_of_ge h), fun h => ⟨_, exec_rxPay_inside b (Nat.lt_of_not_le h)⟩⟩

theorem exec_rxEof_stopsIf (b : Byte) (s : State) :
    StopsIf (b = 0x55#8 ∧ LongDelivery s) (.rxbufIndex s.cfg.maxPayload) (exec (.rxEof b) s) := by
  by_cases hb : b = 0x55#8
  · subst hb
    obtain ⟨hfault, hnext⟩ := execDispatch_stopsIf (goto .sof s)
    rw [exec_rxEof_marker, exec_dispatch]
    exact ⟨fun h => hfault h.2, fun h => hnext fun hl => h ⟨rfl, hl⟩⟩
  · rw [exec_rxEof_other hb]
    exact ⟨fun h => absurd h.1 hb, fun _ => ⟨_, rfl⟩⟩

/-- Every row but the payload's and the end marker's completes. -/
theorem exec_rowOp_next {st : RxState} (hpay : st ≠ .pay) (heof : st ≠ .eof) (b : Byte) (s : State) :
    ∃ t, exec (rowOp st b) s = .next t := by
  cases st with
  | sof | seq | c3 | c2 | c1 => exact ⟨_, rfl⟩
  | ctrl => exact ⟨_, (rxHeaderRows b s).2.1⟩
  | len => exact ⟨_, rxLenRow b s⟩
  | c0 =>
    obtain ⟨w, -, -, hmatch, hmismatch⟩ := rxC0Row b s
    by_cases hw : w = ~~~s.crc.rx
    · exact ⟨_, hmatch hw⟩
    · exact ⟨_, hmismatch hw⟩
  | pay => exact absurd rfl hpay
  | eof => exact absurd rfl heof

theorem exec_specialOp_next (b : Byte) (s : State) : ∃ t, exec (specialOp b) s = .next t := by
  unfold specialOp
  split
  · exact ⟨_, exec_rxResync s⟩
  · split <;> exact ⟨_, rfl⟩

theorem StopsIf.stopsOn {p : Prop} [Decidable p] {f : Fault} {o : Result} (h : StopsIf p f o) :
    StopsOn (if p then some f else none) o := by
  by_cases hp : p
  · rw [if_pos hp]; exact h.1 hp
  · rw [if_neg hp]; exact h.2 hp

theorem rxFault_pay {s : State} (h : s.dec.hdrCnt ≠ .two) (hst : s.dec.state = .pay) (b : Byte) :
    rxFault b s = if s.cfg.maxPayload ≤ s.dec.cnt.toNat then some (.rxbufIndex s.dec.cnt.toNat) else none := by
  simp [rxFault, h, hst]

theorem rxFault_eof {s : State} (h : s.dec.hdrCnt ≠ .two) (hst : s.dec.state = .eof) (b : Byte) :
    rxFault b s = if b = 0x55#8 ∧ LongDelivery s then some (.rxbufIndex s.cfg.maxPayload) else none := by
  simp [rxFault, h, hst]

theorem rxFault_other {s : State} (hpay : s.dec.state ≠ .pay) (heof : s.dec.state ≠ .eof) (b : Byte) :
    rxFault b s = none := by
  simp [rxFault, hpay, heof]

/-- `RXBYTE` stops where the row `rx_state` selects does, and never in the pre-check. -/
theorem execRxbyte_stopsOn (b : Byte) (s : State) : StopsOn (rxFault b s) (execRxbyte b s) := by
  by_cases h : s.dec.hdrCnt = .two
  · rw [rxFault, if_pos h, ← exec_rxbyte, exec_rxbyte_special h]
    exact exec_specialOp_next b (noteArrival s)
  · rw [← exec_rxbyte, exec_rxbyte_row h]
    by_cases hpay : s.dec.state = .pay
    · rw [rxFault_pay h hpay, hpay]
      exact (exec_rxPay_stopsIf b (setHdr (countHeader b s.dec.hdrCnt) (noteArrival s))).stopsOn
    · by_cases heof : s.dec.state = .eof
      · rw [rxFault_eof h heof, heof]
        exact (exec_rxEof_stopsIf b (setHdr (countHeader b s.dec.hdrCnt) (noteArrival s))).stopsOn
      · rw [rxFault_other hpay heof]
        exact exec_rowOp_next hpay heof b _

/-- `POLL` completes when `RXBYTE` takes each of its bytes. -/
theorem exec_poll_fed {bytes : List Byte} {s u : State} (h : Fed bytes (sampleNow s) u) :
    exec (.poll bytes) s = .next (pollTimers u) := by
  rw [exec_poll, rxList_iff_fed.2 h]
  rfl

/-- `POLL` stops at the first of its bytes that `RXBYTE` stops on. -/
theorem exec_poll_fault {before after : List Byte} {b : Byte} {s u : State} {f : Fault}
    (hfed : Fed before (sampleNow s) u) (hf : rxFault b u = some f) :
    exec (.poll (before ++ b :: after)) s = .fault f := by
  have hb : execRxbyte b u = .fault f := by
    have := execRxbyte_stopsOn b u
    rwa [hf] at this
  rw [exec_poll, rxList_append, rxList_iff_fed.2 hfed]
  show andThen (andThen (execRxbyte b u) (rxList after)) _ = _
  rw [hb]
  rfl

/-! ### `ENC_EMIT` -/

/-- The first index outside the source is the one `ENC_EMIT` stops on (rules R42, R54). -/
theorem execEncEmit_of_outside {src : EncSrc} {off mask : Half} {len : Byte} {s : State} {k : Nat} (hk : k < len.toNat)
    (hout : srcSize src s ≤ (off.toNat + k) &&& mask.toNat)
    (hbefore : ∀ j, j < k → (off.toNat + j) &&& mask.toNat < srcSize src s) (control seq : Byte) :
    execEncEmit control seq src off mask len s = .fault (.sourceIndex ((off.toNat + k) &&& mask.toNat)) := by
  have hfind : (srcIndices off.toNat mask.toNat len.toNat).find? (fun a => decide (srcSize src s ≤ a)) =
      some ((off.toNat + k) &&& mask.toNat) := by
    have hrange : (List.range len.toNat).find? (fun i => decide (srcSize src s ≤ (off.toNat + i) &&& mask.toNat)) =
        some k := by
      rw [List.find?_range_eq_some]
      exact ⟨decide_eq_true hout, List.mem_range.2 hk, fun j hj => by simpa using hbefore j hj⟩
    rw [srcIndices, List.find?_map]
    exact congrArg (Option.map fun i => (off.toNat + i) &&& mask.toNat) hrange
  unfold execEncEmit
  rw [hfind]

theorem exec_encEmit_stopsOutside (control seq : Byte) (src : EncSrc) (off mask : Half) (len : Byte) (s : State) :
    StopsOutside (srcSize src s) (fun k => (off.toNat + k) &&& mask.toNat) len.toNat
      (exec (.encEmit control seq src off mask len) s) :=
  ⟨fun h => ⟨_, execEncEmit_of_inside h control seq⟩,
    fun _ hk hout hbefore => execEncEmit_of_outside hk hout hbefore control seq⟩

/-! ### Payloads of another length than their operand (rule R78) -/

theorem exec_fifoPush_stops (id : Ident) (len : Byte) (payload : List Byte) (s : State) :
    if payload.length = len.toNat then ∃ t, exec (.fifoPush id len payload) s = .next t
    else exec (.fifoPush id len payload) s = .refused .payloadLength := by
  by_cases h : payload.length = len.toNat
  · rw [if_pos h]; exact ⟨_, exec_fifoPush h id s⟩
  · rw [if_neg h]; exact if_neg h

theorem exec_queue_stops (id : Byte) (len : Half) (payload : List Byte) (s : State) :
    if payload.length = len.toNat then ∃ t, exec (.queue id len payload) s = .next t
    else exec (.queue id len payload) s = .refused .payloadLength := by
  by_cases h : payload.length = len.toNat
  · rw [if_pos h]
    by_cases hr : queueRejects len.toNat s = true
    · exact ⟨_, exec_queue_reject h hr id⟩
    · exact ⟨_, exec_queue_accept h hr id⟩
  · rw [if_neg h]; exact if_neg h

/-- Settles O55, operation by operation; then the step's own refusal. -/
theorem stopsByName : Obligations.StopsByName := by
  unfold Obligations.StopsByName
  refine ⟨fun i s => ?_, fun s r rest why hp hd hw => step_of_undecodable hp hd hw⟩
  cases i with
  | rxPay b => exact exec_rxPay_stopsIf b s
  | hNontp r id => exact deliver_stopsIf id s
  | hApp r id => exact execHApp_stopsIf r id s
  | dispatch => exact execDispatch_stopsIf s
  | rxEof b => exact exec_rxEof_stopsIf b s
  | rxbyte b => exact execRxbyte_stopsOn b s
  | feed b => exact execRxbyte_stopsOn b (sampleNow s)
  | poll bytes =>
    refine ⟨fun ⟨u, hu⟩ => ⟨pollTimers u, exec_poll_fed hu⟩, ?_⟩
    rintro before b after u f rfl hfed hf
    exact exec_poll_fault hfed hf
  | sendFrame k =>
    exact ⟨fun h => if_neg (Nat.not_lt_of_ge h), fun h => ⟨_, exec_sendFrame (Nat.lt_of_not_le h)⟩⟩
  | encEmit control seq src off mask len =>
    cases src with
    | ring => exact exec_encEmit_stopsOutside control seq .ring off mask len s
    | imm bytes => exact exec_encEmit_stopsOutside control seq (.imm bytes) off mask len s
  | fifoPush id len payload => exact exec_fifoPush_stops id len payload s
  | queue id len payload => exact exec_queue_stops id len payload s
  | rxResync => exact ⟨_, exec_rxResync s⟩
  | rxCtrl b => exact exec_rowOp_next (st := .ctrl) nofun nofun b s
  | rxLen b => exact exec_rowOp_next (st := .len) nofun nofun b s
  | rxC0 b => exact exec_rowOp_next (st := .c0) nofun nofun b s
  | hAck => exact execHAck_next s
  | _ => exact ⟨_, rfl⟩

end Sys2Proof.Machine
end
